-- ==== Sys2Proof/Word.lean ====
section
/-! DEFINITION. The plain word types of the synthesizer control block (`spec/00_scope.md` R10) and the raw hardware
status code (`spec/30_encoding.md` R89). -/

namespace Sys2Proof

/-- One byte on the bus, in the remote map or in a command packet. -/
abbrev Byte := BitVec 8

/-- A `u32` operand (R73). -/
abbrev U32 := BitVec 32

/-- A `u64` operand or result: a frequency in Hz × 100 (R9). -/
abbrev U64 := BitVec 64

/-- A raw hardware status code. R89: "no code is 0", so the code is kept as its distance from 1 and cannot be 0.
It is otherwise uninterpreted. -/
structure RawCode where
  idx : Fin 255
deriving DecidableEq, Repr

/-- The code as the byte a response packet carries: 1 to 255. -/
def RawCode.byte (c : RawCode) : Byte := BitVec.ofNat 8 (c.idx.val + 1)

/-- The raw code whose byte is `n`, for `n` in 1..255. -/
def RawCode.ofNat (n : Nat) : RawCode := { idx := Fin.ofNat 255 (n - 1) }

/-- Every raw code, in rising order. -/
def RawCode.all : List RawCode := (List.range 255).map fun n => RawCode.ofNat (n + 1)

end Sys2Proof
end

