-- ==== Sys2Proof/Syntax.lean ====
section
/-! DEFINITION. The operations of the block as data (`spec/30_encoding.md` R72, one constructor per row of
`spec/opcode_table.json`), their selector operands (R73), and the reasons a command packet is refused (R74). -/

namespace Sys2Proof

/-- A PLL stage, `which: {A,B}` (R73). -/
inductive Pll where
  | a
  | b
deriving DecidableEq, Repr

/-- An output channel, `channel: 0..2` (R73). -/
inductive Channel where
  | ch0
  | ch1
  | ch2
deriving DecidableEq, Repr

/-- The reference selector: the crystal is the only one in scope (R5 (c), R26). -/
inductive Reference where
  | crystal
deriving DecidableEq, Repr

/-- The 22 operations of R72, in the order of `spec/opcode_table.json`. -/
inductive Instr where
  /-- START, 0x00, `42_bus_transport.md` R154. -/
  | start
  /-- SEND_ADDRESS, 0x01, R155. -/
  | sendAddress (addr7 : BitVec 7) (read : Bool)
  /-- SEND_BYTE, 0x02, R156. -/
  | sendByte (b : Byte)
  /-- RECEIVE_BYTE, 0x03, R157. -/
  | receiveByte
  /-- STOP, 0x04, R158. -/
  | stop
  /-- READ_REG, 0x10, `43_register_access.md` R181. -/
  | readReg (addr : Byte)
  /-- WRITE_REG, 0x11, R183. -/
  | writeReg (addr value : Byte)
  /-- WRITE_BULK, 0x12, R184. -/
  | writeBulk (addr : Byte) (values : List Byte)
  /-- UPDATE_REG, 0x13, R186. -/
  | updateReg (addr mask value : Byte)
  /-- PLAN_PLL, 0x20, `40_planner.md` R101. -/
  | planPll (targetFreq referenceFreq : U64) (correctionPpb : BitVec 32)
  /-- PLAN_MULTISYNTH, 0x21, R109. -/
  | planMultisynth (targetFreq pllFreq : U64) (fixedPll : Bool)
  /-- ENCODE_FIELDS, 0x22, R119. -/
  | encodeFields (a b c : U32)
  /-- SELECT_R_DIVIDER, 0x23, `41_rdiv.md` R142. -/
  | selectRDivider (freq : U64)
  /-- INITIALIZE, 0x30, `44_controller.md` R198. -/
  | initializeAll
  /-- SET_FREQUENCY, 0x31, R200. -/
  | setFrequency (channel : Channel) (freq : U64)
  /-- SET_PLL, 0x32, R203. -/
  | setPll (freq : U64) (which : Pll)
  /-- SET_CORRECTION, 0x33, R205. -/
  | setCorrection (ppb : BitVec 32) (reference : Reference)
  /-- OUTPUT_ENABLE, 0x34, R207. -/
  | outputEnable (channel : Channel) (enable : Bool)
  /-- DRIVE_STRENGTH, 0x35, R208. -/
  | driveStrength (channel : Channel) (level : BitVec 2)
  /-- SET_CLOCK_POWER, 0x36, R209. -/
  | setClockPower (channel : Channel) (on : Bool)
  /-- POWER_DOWN, 0x37, R210. -/
  | powerDown
  /-- SET_PLL_ASSIGNMENT, 0x38, R206. -/
  | setPllAssignment (channel : Channel) (which : Pll)
deriving DecidableEq, Repr

/-- The opcodes of R72, apart from their operands. -/
inductive Op where
  | start | sendAddress | sendByte | receiveByte | stop
  | readReg | writeReg | writeBulk | updateReg
  | planPll | planMultisynth | encodeFields | selectRDivider
  | initializeAll | setFrequency | setPll | setCorrection | outputEnable | driveStrength | setClockPower
  | powerDown | setPllAssignment
deriving DecidableEq, Repr

/-- Why a command packet is refused (R74). Each names the byte that is out of range. -/
inductive BadCommand where
  /-- The opcode is not in R72. -/
  | unassignedOpcode (opcode : Byte)
  /-- `addr7` with bit 7 set. -/
  | deviceAddress (operand : Byte)
  /-- A Boolean byte above 1 (`read`, `fixed_pll`, `enable`, `on`). -/
  | boolean (operand : Byte)
  /-- `channel` above 2. -/
  | channel (operand : Byte)
  /-- `which` above 1. -/
  | pll (operand : Byte)
  /-- `reference` not 0. -/
  | reference (operand : Byte)
  /-- `level` above 3. -/
  | level (operand : Byte)
  /-- `n = 0` in WRITE_BULK. -/
  | emptyValues
deriving DecidableEq, Repr

/-- The opcode of an operation. -/
def Instr.op : Instr → Op
  | .start => .start
  | .sendAddress _ _ => .sendAddress
  | .sendByte _ => .sendByte
  | .receiveByte => .receiveByte
  | .stop => .stop
  | .readReg _ => .readReg
  | .writeReg _ _ => .writeReg
  | .writeBulk _ _ => .writeBulk
  | .updateReg _ _ _ => .updateReg
  | .planPll _ _ _ => .planPll
  | .planMultisynth _ _ _ => .planMultisynth
  | .encodeFields _ _ _ => .encodeFields
  | .selectRDivider _ => .selectRDivider
  | .initializeAll => .initializeAll
  | .setFrequency _ _ => .setFrequency
  | .setPll _ _ => .setPll
  | .setCorrection _ _ => .setCorrection
  | .outputEnable _ _ => .outputEnable
  | .driveStrength _ _ => .driveStrength
  | .setClockPower _ _ => .setClockPower
  | .powerDown => .powerDown
  | .setPllAssignment _ _ => .setPllAssignment

end Sys2Proof
end

