-- ==== Sys2Proof/Config.lean ====
section
/-! DEFINITION. What an implementation fixes (`spec/00_scope.md` R6, R7), the reference instantiation `P_ref`
(`spec/92_eei_decisions.md` D1), and the one free value of the model. -/

namespace Sys2Proof

/-- The names of the hardware status classes of R151. -/
inductive StatusClass where
  | start
  | repStart
  | slaWAck
  | slaWNack
  | slaRAck
  | slaRNack
  | txAck
  | txNack
  | rxDone
  | rxNack
  | arbLost
  | other
deriving DecidableEq, Repr

/-- D3 `STATUS_CODES`, an open parameter: the map from raw codes to classes. A class may have any number of codes; a code that
is not listed is `HS_OTHER`'s, and of two entries for one code the first counts, so that each code belongs to exactly one class
(R89, log 20). -/
abbrev StatusCodes := List (RawCode × StatusClass)

/-- `INT_MODE_POLICY` (D21): when `set_frequency` sets the integer-mode bit. R201 takes `divBy4Only`. -/
inductive IntModePolicy where
  | divBy4Only
  | whenBZero
deriving DecidableEq, Repr

/-- `CORR_ROUNDING` (D11): how the correction quotient rounds. R102 takes `towardZero`. -/
inductive CorrRounding where
  | towardZero
  | floor
deriving DecidableEq, Repr

/-- The configuration record (R7): every parameter that the source names without a value. Frequencies are in Hz, but for the
two whose names end in `X100`. -/
structure Config where
  vcoMin : Nat
  vcoMax : Nat
  multisynthMin : Nat
  multisynthMax : Nat
  divBy4Threshold : Nat
  clkoutMin : Nat
  xtalFreqX100 : Nat
  pllBringupX100 : Nat
  chipAddr : BitVec 7
  regOutputEnable : Byte
  regClkCtrl0 : Byte
  regClkCtrl1 : Byte
  regClkCtrl2 : Byte
  regDisableState : List Byte
  regPllParamsA : Byte
  regPllParamsB : Byte
  regMsParams0 : Byte
  regMsParams1 : Byte
  regMsParams2 : Byte
  regVcxo : List Byte
  regPllReset : Byte
  regXtalLoad : Byte
  /-- `CC_PDN`, a bit number of the control byte (R85). -/
  ccPdn : Fin 8
  /-- `CC_INT` (R85). -/
  ccInt : Fin 8
  /-- `CC_PLLSEL` (R85). -/
  ccPllSel : Fin 8
  /-- The low bit of the two-bit field `CC_DRV` (R85, R208). -/
  ccDrv : Fin 7
  /-- `RST_A`, a bit number of the PLL-reset register (R86). -/
  rstA : Fin 8
  /-- `RST_B` (R86). -/
  rstB : Fin 8
  xtalLoadValue : Byte
  disableStateValue : Byte
  oeMaskInit : Byte
  clkCtrlPdnValue : Byte
  /-- `STATUS_CODES` (D3). -/
  statusCodes : StatusCodes
  /-- `INT_MODE_POLICY` (D21). -/
  intModePolicy : IntModePolicy
  /-- `CORR_ROUNDING` (D11). -/
  corrRounding : CorrRounding
  /-- `RW_READ_VALUE` (D8): the value of the address byte's bit 0 that asks for a read. -/
  rwReadValue : Bool
  /-- `OE_ACTIVE_LOW` (D34): true when a 1 in the output-enable register disables a channel. -/
  oeActiveLow : Bool
deriving DecidableEq, Repr

/-- Frequency scale: hertz × 100 (R6, R9). -/
def freqMult : Nat := 100

/-- `C_DENOM` (R6). -/
def cDenom : Nat := 1000000

/-- PRESUMED: the reference codes of D3, which give `HS_RX_DONE` two codes and `HS_RX_NACK` none (log 20). -/
def StatusCodes.reference : StatusCodes :=
  [(.ofNat 0x08, .start), (.ofNat 0x10, .repStart), (.ofNat 0x18, .slaWAck), (.ofNat 0x20, .slaWNack),
   (.ofNat 0x28, .txAck), (.ofNat 0x30, .txNack), (.ofNat 0x38, .arbLost), (.ofNat 0x40, .slaRAck),
   (.ofNat 0x48, .slaRNack), (.ofNat 0x58, .rxDone), (.ofNat 0x50, .rxDone)]

/-- PRESUMED: `P_ref` of D1, the spec's reference instantiation, which the spec marks as general knowledge (log 3). -/
def Config.pRef : Config where
  vcoMin := 600000000
  vcoMax := 900000000
  multisynthMin := 500000
  multisynthMax := 225000000
  divBy4Threshold := 150000000
  clkoutMin := 4000
  xtalFreqX100 := 2500000000
  pllBringupX100 := 80000000000
  chipAddr := 0x60#7
  regOutputEnable := 3#8
  regClkCtrl0 := 16#8
  regClkCtrl1 := 17#8
  regClkCtrl2 := 18#8
  regDisableState := [24#8, 25#8]
  regPllParamsA := 26#8
  regPllParamsB := 34#8
  regMsParams0 := 42#8
  regMsParams1 := 50#8
  regMsParams2 := 58#8
  regVcxo := [162#8, 163#8, 164#8]
  regPllReset := 177#8
  regXtalLoad := 183#8
  ccPdn := 7
  ccInt := 6
  ccPllSel := 5
  ccDrv := 0
  rstA := 5
  rstB := 7
  xtalLoadValue := 0xD2#8
  disableStateValue := 0x00#8
  oeMaskInit := 0xFF#8
  clkCtrlPdnValue := 0x80#8
  statusCodes := .reference
  intModePolicy := .divBy4Only
  corrRounding := .towardZero
  rwReadValue := true
  oeActiveLow := true

/-- The optional parameters of `93_implementation_defined.md` U22 at the defaults that the numbered rules take: R201, R102,
R78, R87. -/
abbrev Config.SpecDefaults (c : Config) : Prop :=
  c.intModePolicy = .divBy4Only ∧ c.corrRounding = .towardZero ∧ c.rwReadValue = true ∧ c.oeActiveLow = true

/-- FREE VALUE (U1, U2, R157, R182): the byte a faulted `receive_byte` or `read_reg` returns. It has no body, so nothing can
be proved of it; the n-th byte drawn is `Config.anyByte n` (log 11). -/
opaque Config.anyByte : Nat → Byte

end Sys2Proof
end

