-- ==== Sys2Proof/Machine/State.lean ====
section
/-! DEFINITION. Everything the spec gives the machine to remember (`spec/10_state.md`, `spec/20_memory.md`), the state right
after reset (R38, R260), and the reasons a step can stop. -/

namespace Sys2Proof.Machine

/-- The protocol state `ps` (R21). -/
inductive ProtState where
  | idle
  | started
  | addressed
  | data
  | stopped
deriving DecidableEq, Repr

/-- The direction `dir` of the open transaction (R22). -/
inductive Direction where
  | none
  | write
  | read
deriving DecidableEq, Repr

/-- The pending wait `wait` (R24): the bus action issued and not yet answered. -/
inductive Wait where
  | none
  | start
  | address
  | tx
  | rx
  | stop
deriving DecidableEq, Repr

/-- The hardware status classes of R151, `HS_RX_DONE` with the byte received. -/
inductive HsClass where
  | start
  | repStart
  | slaWAck
  | slaWNack
  | slaRAck
  | slaRNack
  | txAck
  | txNack
  | rxDone (v : Byte)
  | rxNack
  | arbLost
  | other
deriving DecidableEq, Repr

/-- A completed bus action's hardware status: its class and the raw code it came as (R89). -/
structure HwStatus where
  cls : HsClass
  code : RawCode
deriving DecidableEq, Repr

/-- The bus actions that are answered with a status class: the questions `env.start`, `env.address`, `env.tx`, `env.rx` of
R13. -/
inductive BusAction where
  | start
  | address (ab : Byte)
  | tx (b : Byte)
  | rx
deriving DecidableEq, Repr

/-- What the block puts on the lines: a bus action, a stop condition, or the notice `env.release` of lock recovery (R13,
R79). -/
inductive LineEvent where
  | action (a : BusAction)
  | stop
  | release
deriving DecidableEq, Repr

/-- How the line environment answers one question of R13: as the plain chip of D29 (`E_ideal`) would, with a given raw
status code, whose class the table of D3 says, and the byte that stands beside it for a received one, or never. A stop has no status (R158): any answer but `never` confirms it. -/
inductive LineAnswer where
  | asChip
  | status (code : RawCode) (data : Byte)
  | never
deriving DecidableEq, Repr

/-- What the remote chip takes the next byte for (D29). -/
inductive ChipMode where
  | none
  | wFirst
  | wData
  | read
deriving DecidableEq, Repr

/-- Bytes by address, addresses strictly rising, no entry equal to what an unlisted address reads as. -/
abbrev Memory := List Host.Cell

/-- DESIGN CHOICE (log 10): what a byte of the remote map that nothing has written reads as. R50 and U16 give no value. -/
def unlistedByte : Byte := 0x00#8

/-- The line environment with the remote chip (R13, R20, R35, R50, R53). -/
structure LineEnv where
  /-- The model's own: how the next questions are answered, oldest first; when none is left, as the plain chip (log 7). -/
  answers : List LineAnswer
  /-- The model's own: what the block has put on the lines, oldest first (log 15). -/
  events : List LineEvent
  /-- The remote register map `RM` (R50). -/
  rm : Memory
  /-- The remote register pointer `rp` (R53). -/
  rp : Byte
  /-- A transaction is open on the lines (D29). -/
  busOpen : Bool
  /-- What the chip takes the next byte for (D29). -/
  mode : ChipMode
deriving DecidableEq, Repr

/-- PLLState (R26). -/
structure PllState where
  frequency : U64
  referenceIndex : Reference
  correctionPpb : BitVec 32
deriving DecidableEq, Repr

/-- ClockChannel (R28). -/
structure ClockChannel where
  assignedPll : Pll
  rDividerExponent : BitVec 3
  integerMode : Bool
  driveStrength : BitVec 2
  enabled : Bool
deriving DecidableEq, Repr

/-- The machine: the block's state (R20), the line environment, the configuration record and the two ports. -/
structure State where
  /-- The configuration record (R7); no step writes it (log 3). -/
  cfg : Config
  /-- R21. -/
  ps : ProtState
  /-- R22. -/
  dir : Direction
  /-- R24. -/
  wait : Wait
  /-- R25, with the raw code from which the operation's `Status` is made (R89). -/
  tstat : HwStatus
  /-- R23; none while no Register Access Layer operation runs. -/
  seq : Option Nat
  /-- R34. -/
  raFault : Bool
  /-- R37. -/
  inited : Bool
  /-- R26. -/
  pllA : PllState
  /-- R26. -/
  pllB : PllState
  /-- R28. -/
  ch0 : ClockChannel
  /-- R28. -/
  ch1 : ClockChannel
  /-- R28. -/
  ch2 : ClockChannel
  /-- The line environment and the remote chip. -/
  line : LineEnv
  /-- The model's own: how many free bytes have been drawn (log 11). -/
  freeIndex : Nat
  /-- The command bytes offered by the host and not yet taken (R71, log 2). -/
  command : List Byte
  /-- The response packet of the last operation (R71, R72, log 14). -/
  response : List Byte
deriving DecidableEq, Repr

/-- R38: `reference_index` is Crystal, `correction_ppb` 0. DESIGN CHOICE 0 for `frequency`, which has no value (log 12). -/
def PllState.reset : PllState where
  frequency := 0#64
  referenceIndex := .crystal
  correctionPpb := 0#32

/-- DESIGN CHOICE (log 12): R38 gives the channel records no value at reset. -/
def ClockChannel.reset : ClockChannel where
  assignedPll := .a
  rDividerExponent := 0#3
  integerMode := false
  driveStrength := 0#2
  enabled := false

/-- The lines and the chip at the block's reset: no transaction open (D29); map and pointer are unspecified (R38, R261) and
get the values of log 10; no answer is prescribed (log 7). -/
def LineEnv.reset : LineEnv where
  answers := []
  events := []
  rm := []
  rp := 0#8
  busOpen := false
  mode := .none

/-- The state before the first operation (R38, R260). -/
def State.reset : State where
  cfg := .pRef
  ps := .idle
  dir := .none
  wait := .none
  tstat := { cls := .start, code := .ofNat 0x08 }
  seq := none
  raFault := false
  inited := false
  pllA := .reset
  pllB := .reset
  ch0 := .reset
  ch1 := .reset
  ch2 := .reset
  line := .reset
  freeIndex := 0
  command := []
  response := []

/-- Why the machine stops with no next state. -/
inductive Fault where
  /-- Raised by every operation that touches the bus when the line environment never answers an action, and by `step` on a
  state that already waits (R238, log 8). It carries the state the block is stuck in: `wait` names the action, and everything
  before it has happened. SAFE: the spec says there is no next state. -/
  | hang (stuck : State)
deriving DecidableEq, Repr

/-- Why an operation is refused: the list of R239. A refused operation changes no state. -/
inductive Refusal where
  /-- Raised only by an arm of `exec` whose instruction has no meaning yet. SAFE. -/
  | notModelled (mnemonic : String)
  /-- Raised by `step` on a packet that R74 refuses. SAFE. -/
  | badCommand (why : BadCommand)
  /-- Raised by every operation when the configuration breaks a constraint of R8 or overlaps two map entries (R59, R262).
  SAFE. -/
  | badConfig
  /-- Raised by every controller operation but INITIALIZE while `inited` is false (R195). SAFE. -/
  | notInitialized
  /-- Raised by WRITE_BULK with no values (R184). SAFE. -/
  | emptyValues
  /-- Raised by PLAN_PLL, and by a controller operation that plans a PLL, when the corrected reference is below 1 (R102,
  R205). SAFE. -/
  | correctedReference
  /-- Raised by PLAN_PLL when the reference is not below 2^44 (K9 of R8, R122). SAFE. -/
  | referenceTooLarge
  /-- Raised by PLAN_MULTISYNTH and SET_FREQUENCY when `pll_freq` is too small for the ratio clamp (R114). SAFE. -/
  | pllFreqTooSmall
  /-- Raised by ENCODE_FIELDS outside its domain (R119). SAFE. -/
  | encodeDomain
  /-- Raised by PLAN_MULTISYNTH when a result does not fit 64 bits (R122, U14). SAFE. -/
  | resultTooWide
deriving DecidableEq, Repr

/-- What one operation or one step answers. -/
abbrev Result := Host.Outcome State Fault Refusal

end Sys2Proof.Machine
end

