-- ==== Sys2Proof/Machine/Params.lean ====
section
/-! DEFINITION. Reading the configuration record: the constraints of `spec/00_scope.md` R8, the overlap test of
`spec/20_memory.md` R59, the raw status codes of `spec/30_encoding.md` R89 and their classes, and the parameters by channel and PLL. -/

namespace Sys2Proof.Machine

/-- `REG_CLK_CTRL[i]` (R59). -/
def clkCtrlAddr (c : Config) : Channel → Byte
  | .ch0 => c.regClkCtrl0
  | .ch1 => c.regClkCtrl1
  | .ch2 => c.regClkCtrl2

/-- `REG_MS_PARAMS[i]` (R59). -/
def msParamsAddr (c : Config) : Channel → Byte
  | .ch0 => c.regMsParams0
  | .ch1 => c.regMsParams1
  | .ch2 => c.regMsParams2

/-- `REG_PLL_PARAMS[x]` (R59). -/
def pllParamsAddr (c : Config) : Pll → Byte
  | .a => c.regPllParamsA
  | .b => c.regPllParamsB

/-- The channel's number, 0, 1 or 2: its bit in the output-enable register (R87). -/
def channelNumber : Channel → Nat
  | .ch0 => 0
  | .ch1 => 1
  | .ch2 => 2

/-- The eight addresses of a parameter block (R82); addresses count modulo 256 (R53). -/
def blockAddrs (base : Byte) : List Nat :=
  (List.range 8).map fun i => (base.toNat + i) % 256

/-- Every address the map entries of R59 take. -/
def mapAddrs (c : Config) : List Nat :=
  [c.regOutputEnable.toNat, c.regClkCtrl0.toNat, c.regClkCtrl1.toNat, c.regClkCtrl2.toNat, c.regPllReset.toNat,
    c.regXtalLoad.toNat]
    ++ c.regDisableState.map BitVec.toNat ++ c.regVcxo.map BitVec.toNat
    ++ blockAddrs c.regPllParamsA ++ blockAddrs c.regPllParamsB
    ++ blockAddrs c.regMsParams0 ++ blockAddrs c.regMsParams1 ++ blockAddrs c.regMsParams2

/-- No number stands twice in the list. -/
def noRepeat : List Nat → Bool
  | [] => true
  | a :: as => !as.contains a && noRepeat as

/-- K7 of R8 for one reference: neither ratio clamp of R105 can move a target out of the VCO range. -/
def ratioReaches (c : Config) (ref1 : Nat) : Bool :=
  c.vcoMin * freqMult ≤ 90 * ref1 && 15 * ref1 ≤ c.vcoMax * freqMult

/-- The least `pll_freq` of K8. -/
def pllFreqMin : Nat := 1800 * 1800

/-- K1 to K9 of R8 as they bind a configuration: K7 and K9 for the crystal, the one reference
that a configuration names (a correction is state, and R205 alone says which one is refused; log 4), and K8 for every frequency that R27 lets a PLL record
hold (log 5). -/
def constraintsHold (c : Config) : Bool :=
  -- K1
  1 ≤ c.vcoMin && c.vcoMin ≤ c.vcoMax && c.vcoMax * freqMult < 2 ^ 64
  -- K2
  && 1 ≤ c.multisynthMin && c.multisynthMin ≤ c.multisynthMax && c.multisynthMax * freqMult < 2 ^ 64
  -- K3, K4, K5
  && c.divBy4Threshold ≤ c.multisynthMax
  && 4 * c.divBy4Threshold ≤ c.vcoMax
  && c.vcoMax / c.multisynthMin ≤ 2051
  -- K6
  && 1 ≤ c.clkoutMin && c.clkoutMin * freqMult * 128 < 2 ^ 57
  -- K7, K8, K9
  && ratioReaches c c.xtalFreqX100
  && pllFreqMin ≤ c.vcoMin * freqMult
  && c.xtalFreqX100 < 2 ^ 44

/-- R8, R59, R262: the parameter sets that are not refused. -/
def configValid (c : Config) : Bool := constraintsHold c && noRepeat (mapAddrs c)

/-! ### Raw status codes -/

/-- The class of a raw code (R89, D3 `STATUS_CODES`): every code belongs to exactly one. -/
def classOf (t : StatusCodes) (x : RawCode) : StatusClass :=
  match t with
  | [] => .other
  | (y, k) :: t => if x = y then k else classOf t x

/-- DESIGN CHOICE (log 20): the raw code that the plain chip of D29, of which the spec gives only classes, shows for a class:
the first that the table lists for it, else the least that belongs to it. -/
def chipCode (t : StatusCodes) (k : StatusClass) : RawCode :=
  ((t.map Prod.fst ++ RawCode.all).find? fun x => classOf t x == k).getD (.ofNat 1)

/-- The name of a class. -/
def HsClass.name : HsClass → StatusClass
  | .start => .start
  | .repStart => .repStart
  | .slaWAck => .slaWAck
  | .slaWNack => .slaWNack
  | .slaRAck => .slaRAck
  | .slaRNack => .slaRNack
  | .txAck => .txAck
  | .txNack => .txNack
  | .rxDone _ => .rxDone
  | .rxNack => .rxNack
  | .arbLost => .arbLost
  | .other => .other

/-- The byte a class carries; only a received byte is one (R13). -/
def HsClass.data : HsClass → Byte
  | .rxDone v => v
  | _ => 0#8

/-- The class of a name, with the byte that stands beside the status. -/
def hsClassOf (k : StatusClass) (data : Byte) : HsClass :=
  match k with
  | .start => .start
  | .repStart => .repStart
  | .slaWAck => .slaWAck
  | .slaWNack => .slaWNack
  | .slaRAck => .slaRAck
  | .slaRNack => .slaRNack
  | .txAck => .txAck
  | .txNack => .txNack
  | .rxDone => .rxDone data
  | .rxNack => .rxNack
  | .arbLost => .arbLost
  | .other => .other

/-- The hardware status that a raw code is, with the byte beside it: the pair of R89. -/
def hwStatus (c : Config) (code : RawCode) (data : Byte) : HwStatus where
  cls := hsClassOf (classOf c.statusCodes code) data
  code := code

end Sys2Proof.Machine
end

