-- ==== Sys2Proof/Machine/Flags.lean ====
section
/-! DEFINITION. The only condition values of the block (`spec/10_state.md` R34): the status of a transport operation, how a
hardware status class becomes one (`spec/42_bus_transport.md` R154 to R157, in the order of `spec/60_exceptions.md` R241), and
its byte (`spec/30_encoding.md` R89). -/

namespace Sys2Proof.Machine

/-- The fault causes of R231. -/
inductive Cause where
  | nack
  | arbitrationLoss
  | busFault
  | protocolViolation
deriving DecidableEq, Repr

/-- The status of a transport operation: success, or the fault with its cause and the pair of class and raw code
(R89, R231). -/
inductive Status where
  | ok
  | fault (cause : Cause) (hs : HwStatus)
deriving DecidableEq, Repr

/-- R89: 0 for success, the raw code of the bus action that failed for a fault. -/
def statusByte : Status → Byte
  | .ok => 0#8
  | .fault _ hs => hs.code.byte

/-- R154: what a class means to `start`; none is success. -/
def startFault : HsClass → Option Cause
  | .start => none
  | .repStart => none
  | .arbLost => some .arbitrationLoss
  | _ => some .protocolViolation

/-- R155: what a class means to `send_address`. -/
def addressFault (read : Bool) (hs : HsClass) : Option Cause :=
  if hs = (if read then .slaRAck else .slaWAck) then none
  else if hs = (if read then .slaRNack else .slaWNack) then some .nack
  else some .busFault

/-- R156: what a class means to `send_byte`. -/
def txFault : HsClass → Option Cause
  | .txAck => none
  | .txNack => some .nack
  | _ => some .busFault

/-- R157: what a class means to `receive_byte`: the byte received, or the cause. -/
def rxOutcome : HsClass → Except Cause Byte
  | .rxDone v => .ok v
  | .rxNack => .error .nack
  | _ => .error .busFault

end Sys2Proof.Machine
end

