-- ==== Sys2Proof/WellFormed.lean ====
section
/-! DEFINITION. Which operations can be issued at all (`spec/30_encoding.md` R73, R74). The selector operands are typed so
that an out-of-range one cannot be written; what is left to check is the length of WRITE_BULK's `values`. -/

namespace Sys2Proof

/-- R73: `n`, the number of `values` bytes, is 1 to 255. -/
def bulkLengthOk (values : List Byte) : Bool := 1 ≤ values.length && values.length ≤ 255

/-- An operation that the command format of R71 to R75 can carry. -/
def Instr.wellFormed : Instr → Bool
  | .start => true
  | .sendAddress _ _ => true
  | .sendByte _ => true
  | .receiveByte => true
  | .stop => true
  | .readReg _ => true
  | .writeReg _ _ => true
  | .writeBulk _ values => bulkLengthOk values
  | .updateReg _ _ _ => true
  | .planPll _ _ _ => true
  | .planMultisynth _ _ _ => true
  | .encodeFields _ _ _ => true
  | .selectRDivider _ => true
  | .initializeAll => true
  | .setFrequency _ _ => true
  | .setPll _ _ => true
  | .setCorrection _ _ => true
  | .outputEnable _ _ => true
  | .driveStrength _ _ => true
  | .setClockPower _ _ => true
  | .powerDown => true
  | .setPllAssignment _ _ => true

end Sys2Proof
end

