-- ==== Sys2Proof/Decode.lean ====
section
/-! DEFINITION. The command format (`spec/30_encoding.md` R71 to R75): decoder, total on any bytes, and encoder. -/

namespace Sys2Proof

/-- What the bytes at the command port hold: a whole command and the bytes after it, the beginning of one, or a packet
that R74 refuses. -/
inductive Decoded where
  | command (i : Instr) (rest : List Byte)
  | incomplete
  | bad (why : BadCommand)
deriving DecidableEq, Repr

/-- The opcode bytes of R72. -/
def Op.code : Op → Byte
  | .start => 0x00#8
  | .sendAddress => 0x01#8
  | .sendByte => 0x02#8
  | .receiveByte => 0x03#8
  | .stop => 0x04#8
  | .readReg => 0x10#8
  | .writeReg => 0x11#8
  | .writeBulk => 0x12#8
  | .updateReg => 0x13#8
  | .planPll => 0x20#8
  | .planMultisynth => 0x21#8
  | .encodeFields => 0x22#8
  | .selectRDivider => 0x23#8
  | .initializeAll => 0x30#8
  | .setFrequency => 0x31#8
  | .setPll => 0x32#8
  | .setCorrection => 0x33#8
  | .outputEnable => 0x34#8
  | .driveStrength => 0x35#8
  | .setClockPower => 0x36#8
  | .powerDown => 0x37#8
  | .setPllAssignment => 0x38#8

/-- The rows of R72. -/
def Op.all : List Op :=
  [.start, .sendAddress, .sendByte, .receiveByte, .stop,
   .readReg, .writeReg, .writeBulk, .updateReg,
   .planPll, .planMultisynth, .encodeFields, .selectRDivider,
   .initializeAll, .setFrequency, .setPll, .setCorrection, .outputEnable, .driveStrength, .setClockPower,
   .powerDown, .setPllAssignment]

/-- The operation an opcode byte names, if R72 assigns it. -/
def Op.ofByte (b : Byte) : Option Op := Op.all.find? (fun o => o.code == b)

/-- The first `n` bytes and the rest, if there are that many. -/
def takeBytes : Nat → List Byte → Option (List Byte × List Byte)
  | 0, bs => some ([], bs)
  | _ + 1, [] => none
  | n + 1, b :: bs =>
    match takeBytes n bs with
    | some (xs, rest) => some (b :: xs, rest)
    | none => none

/-- R71: "An operand of more than one byte is sent most significant byte first." -/
def beValue (bs : List Byte) : Nat := bs.foldl (fun acc b => acc * 256 + b.toNat) 0

/-- The `n` bytes of `v`, most significant first (R71). -/
def beBytes : Nat → Nat → List Byte
  | 0, _ => []
  | n + 1, v => beBytes n (v / 256) ++ [BitVec.ofNat 8 v]

/-- Reads an unsigned operand of `n` bytes and goes on with it. -/
def operand (n : Nat) (bs : List Byte) (k : Nat → List Byte → Decoded) : Decoded :=
  match takeBytes n bs with
  | some (xs, rest) => k (beValue xs) rest
  | none => .incomplete

/-- One operand byte. -/
def byteOperand (bs : List Byte) (k : Byte → List Byte → Decoded) : Decoded :=
  operand 1 bs fun v rest => k (BitVec.ofNat 8 v) rest

/-- R73: `read`, `fixed_pll`, `enable`, `on` are one byte, 0 or 1. -/
def boolOperand (bs : List Byte) (k : Bool → List Byte → Decoded) : Decoded :=
  byteOperand bs fun b rest =>
    if b = 0#8 then k false rest else if b = 1#8 then k true rest else .bad (.boolean b)

/-- R73: `addr7` is one byte, bit 7 zero. -/
def addrOperand (bs : List Byte) (k : BitVec 7 → List Byte → Decoded) : Decoded :=
  byteOperand bs fun b rest =>
    if b.toNat < 128 then k (BitVec.ofNat 7 b.toNat) rest else .bad (.deviceAddress b)

/-- R73: `channel` is 0, 1 or 2. -/
def channelOperand (bs : List Byte) (k : Channel → List Byte → Decoded) : Decoded :=
  byteOperand bs fun b rest =>
    if b = 0#8 then k .ch0 rest
    else if b = 1#8 then k .ch1 rest
    else if b = 2#8 then k .ch2 rest
    else .bad (.channel b)

/-- R73: `which` is 0 for PLL A, 1 for PLL B. -/
def pllOperand (bs : List Byte) (k : Pll → List Byte → Decoded) : Decoded :=
  byteOperand bs fun b rest =>
    if b = 0#8 then k .a rest else if b = 1#8 then k .b rest else .bad (.pll b)

/-- R73: `reference` is 0 for Crystal. -/
def referenceOperand (bs : List Byte) (k : Reference → List Byte → Decoded) : Decoded :=
  byteOperand bs fun b rest => if b = 0#8 then k .crystal rest else .bad (.reference b)

/-- R73: `level` is 0 to 3. -/
def levelOperand (bs : List Byte) (k : BitVec 2 → List Byte → Decoded) : Decoded :=
  byteOperand bs fun b rest =>
    if b.toNat < 4 then k (BitVec.ofNat 2 b.toNat) rest else .bad (.level b)

/-- A `u32` or `i32` operand: 4 bytes (R73). -/
def wordOperand (bs : List Byte) (k : BitVec 32 → List Byte → Decoded) : Decoded :=
  operand 4 bs fun v rest => k (BitVec.ofNat 32 v) rest

/-- A `freq` operand: 8 bytes (R73). -/
def freqOperand (bs : List Byte) (k : U64 → List Byte → Decoded) : Decoded :=
  operand 8 bs fun v rest => k (BitVec.ofNat 64 v) rest

/-- R75: WRITE_BULK's `n` byte, then `n` bytes; `n = 0` is refused (R74). -/
def valuesOperand (bs : List Byte) (k : List Byte → List Byte → Decoded) : Decoded :=
  byteOperand bs fun n rest =>
    if n = 0#8 then .bad .emptyValues
    else
      match takeBytes n.toNat rest with
      | some (xs, rest) => k xs rest
      | none => .incomplete

/-- The operands of an operation, in the order of its signature, with no padding (R71, R72). DESIGN CHOICE (log 31): the first
byte that R74 refuses refuses the packet at once, whether or not the packet's later bytes are there; R74 and R239 do not say
when. -/
def decodeOperands (o : Op) (bs : List Byte) : Decoded :=
  match o with
  | .start => .command .start bs
  | .sendAddress => addrOperand bs fun addr7 bs => boolOperand bs fun read bs => .command (.sendAddress addr7 read) bs
  | .sendByte => byteOperand bs fun b bs => .command (.sendByte b) bs
  | .receiveByte => .command .receiveByte bs
  | .stop => .command .stop bs
  | .readReg => byteOperand bs fun addr bs => .command (.readReg addr) bs
  | .writeReg => byteOperand bs fun addr bs => byteOperand bs fun value bs => .command (.writeReg addr value) bs
  | .writeBulk => byteOperand bs fun addr bs => valuesOperand bs fun values bs => .command (.writeBulk addr values) bs
  | .updateReg =>
    byteOperand bs fun addr bs => byteOperand bs fun mask bs => byteOperand bs fun value bs =>
      .command (.updateReg addr mask value) bs
  | .planPll =>
    freqOperand bs fun target bs => freqOperand bs fun reference bs => wordOperand bs fun ppb bs =>
      .command (.planPll target reference ppb) bs
  | .planMultisynth =>
    freqOperand bs fun target bs => freqOperand bs fun pll bs => boolOperand bs fun fixed bs =>
      .command (.planMultisynth target pll fixed) bs
  | .encodeFields =>
    wordOperand bs fun a bs => wordOperand bs fun b bs => wordOperand bs fun c bs => .command (.encodeFields a b c) bs
  | .selectRDivider => freqOperand bs fun freq bs => .command (.selectRDivider freq) bs
  | .initializeAll => .command .initializeAll bs
  | .setFrequency => channelOperand bs fun ch bs => freqOperand bs fun freq bs => .command (.setFrequency ch freq) bs
  | .setPll => freqOperand bs fun freq bs => pllOperand bs fun which bs => .command (.setPll freq which) bs
  | .setCorrection =>
    wordOperand bs fun ppb bs => referenceOperand bs fun reference bs => .command (.setCorrection ppb reference) bs
  | .outputEnable => channelOperand bs fun ch bs => boolOperand bs fun enable bs => .command (.outputEnable ch enable) bs
  | .driveStrength => channelOperand bs fun ch bs => levelOperand bs fun level bs => .command (.driveStrength ch level) bs
  | .setClockPower => channelOperand bs fun ch bs => boolOperand bs fun on bs => .command (.setClockPower ch on) bs
  | .powerDown => .command .powerDown bs
  | .setPllAssignment => channelOperand bs fun ch bs => pllOperand bs fun which bs => .command (.setPllAssignment ch which) bs

/-- The command at the front of the port's bytes (R71 to R75). -/
def decode : List Byte → Decoded
  | [] => .incomplete
  | b :: bs =>
    match Op.ofByte b with
    | some o => decodeOperands o bs
    | none => .bad (.unassignedOpcode b)

/-- R73: a Boolean as its byte. -/
def boolByte (b : Bool) : Byte := if b then 1#8 else 0#8

/-- R73: a channel as its byte. -/
def Channel.byte : Channel → Byte
  | .ch0 => 0#8
  | .ch1 => 1#8
  | .ch2 => 2#8

/-- R73: a PLL as its byte. -/
def Pll.byte : Pll → Byte
  | .a => 0#8
  | .b => 1#8

/-- R73: the reference as its byte. -/
def Reference.byte : Reference → Byte
  | .crystal => 0#8

/-- The operand bytes of an operation (R71 to R73). -/
def encodeOperands : Instr → List Byte
  | .start => []
  | .sendAddress addr7 read => [BitVec.ofNat 8 addr7.toNat, boolByte read]
  | .sendByte b => [b]
  | .receiveByte => []
  | .stop => []
  | .readReg addr => [addr]
  | .writeReg addr value => [addr, value]
  | .writeBulk addr values => addr :: BitVec.ofNat 8 values.length :: values
  | .updateReg addr mask value => [addr, mask, value]
  | .planPll target reference ppb => beBytes 8 target.toNat ++ beBytes 8 reference.toNat ++ beBytes 4 ppb.toNat
  | .planMultisynth target pll fixed => beBytes 8 target.toNat ++ beBytes 8 pll.toNat ++ [boolByte fixed]
  | .encodeFields a b c => beBytes 4 a.toNat ++ beBytes 4 b.toNat ++ beBytes 4 c.toNat
  | .selectRDivider freq => beBytes 8 freq.toNat
  | .initializeAll => []
  | .setFrequency ch freq => ch.byte :: beBytes 8 freq.toNat
  | .setPll freq which => beBytes 8 freq.toNat ++ [which.byte]
  | .setCorrection ppb reference => beBytes 4 ppb.toNat ++ [reference.byte]
  | .outputEnable ch enable => [ch.byte, boolByte enable]
  | .driveStrength ch level => [ch.byte, BitVec.ofNat 8 level.toNat]
  | .setClockPower ch on => [ch.byte, boolByte on]
  | .powerDown => []
  | .setPllAssignment ch which => [ch.byte, which.byte]

/-- The command packet of an operation (R71). -/
def encode (i : Instr) : List Byte := i.op.code :: encodeOperands i

/-- The packet length of an operation in bytes (R72, R75): fixed by the opcode, but `3 + n` for WRITE_BULK. -/
def Instr.packetLength : Instr → Nat
  | .start => 1
  | .sendAddress _ _ => 3
  | .sendByte _ => 2
  | .receiveByte => 1
  | .stop => 1
  | .readReg _ => 2
  | .writeReg _ _ => 3
  | .writeBulk _ values => 3 + values.length
  | .updateReg _ _ _ => 4
  | .planPll _ _ _ => 21
  | .planMultisynth _ _ _ => 18
  | .encodeFields _ _ _ => 13
  | .selectRDivider _ => 9
  | .initializeAll => 1
  | .setFrequency _ _ => 10
  | .setPll _ _ => 10
  | .setCorrection _ _ => 6
  | .outputEnable _ _ => 3
  | .driveStrength _ _ => 3
  | .setClockPower _ _ => 3
  | .powerDown => 1
  | .setPllAssignment _ _ => 3

/-- The longest packet: WRITE_BULK with 255 values. -/
def maxPacketBytes : Nat := 258

/-- `n` bytes of `w`, the least significant first: byte 0 of the packet is bits 7..0 of the table's numbering. -/
def wordBytes : Nat → Nat → List Byte
  | 0, _ => []
  | n + 1, w => BitVec.ofNat 8 w :: wordBytes n (w / 256)

/-- The packet of a table row's bits: `w` below bit `nbits`, zero above, up to the longest packet. -/
def tableBytes (nbits w : Nat) : List Byte := wordBytes maxPacketBytes (w % 2 ^ nbits)

/-- The operation the decoder reads from a table row's bits; none where it refuses. -/
def decodeTableWord (nbits w : Nat) : Option Instr :=
  match decode (tableBytes nbits w) with
  | .command i _ => some i
  | .incomplete => none
  | .bad _ => none

end Sys2Proof
end

