-- ==== Sys2Proof/Machine/Operands.lean ====
section
/-! DEFINITION. The encodings the block puts on the bus and into the remote registers: the address byte
(`spec/30_encoding.md` R78), the divider fields and their 8-byte block (R80, R82, R83), register masks (R83 to R87), and the
response packets of the planner (R71 to R73). -/

namespace Sys2Proof.Machine

/-- The read/write bit (R78, D8). -/
def rwBit (c : Config) (read : Bool) : BitVec 1 := if read = c.rwReadValue then 1#1 else 0#1

/-- R78: `ab = (addr7 << 1) | rw`. -/
def addressByte (c : Config) (addr7 : BitVec 7) (read : Bool) : Byte := addr7 ++ rwBit c read

/-- The device an address byte names (R78). -/
def deviceOf (ab : Byte) : BitVec 7 := ab.extractLsb' 1 7

/-- Whether an address byte asks for a read (R78). -/
def asksRead (c : Config) (ab : Byte) : Bool := ab.getLsbD 0 == c.rwReadValue

/-- RegisterFields (R30), at the widths of R80. -/
structure RegisterFields where
  p1 : BitVec 18
  p2 : BitVec 20
  p3 : BitVec 20
deriving DecidableEq, Repr

/-- `ser8(p1, p2, p3, r, d)`: the 8 bytes of a parameter block (R82). -/
def ser8 (f : RegisterFields) (r : BitVec 3) (d : BitVec 2) : List Byte :=
  [f.p3.extractLsb' 8 8,
   f.p3.extractLsb' 0 8,
   0#1 ++ r ++ d ++ f.p1.extractLsb' 16 2,
   f.p1.extractLsb' 8 8,
   f.p1.extractLsb' 0 8,
   f.p3.extractLsb' 16 4 ++ f.p2.extractLsb' 16 4,
   f.p2.extractLsb' 8 8,
   f.p2.extractLsb' 0 8]

/-- A byte with one bit set. -/
def bitMask (n : Nat) : Byte := 1#8 <<< n

/-- A byte whose bit `n` is `v` and whose other bits are 0. -/
def bitValue (v : Bool) (n : Nat) : Byte := if v then bitMask n else 0#8

/-- `DM_MASK` (R83): the fields R_DIV and DIVBY4 of the divider/mode byte. -/
def dmMask : Byte := 0x7C#8

/-- R83, R200: the value bits of the divider/mode byte. -/
def dmValue (exponent : BitVec 3) (divby4 : Bool) : Byte :=
  0#1 ++ exponent ++ (if divby4 then 0b11#2 else 0b00#2) ++ 0#2

/-- R186: the masked bits from `value`, every other bit as read. -/
def mergeMasked (old mask value : Byte) : Byte := (old &&& ~~~mask) ||| (value &&& mask)

/-- R87, D34: the value of an output-enable bit that means `enable`. -/
def oeBit (c : Config) (enable : Bool) : Bool := enable != c.oeActiveLow

/-- R87: whether a byte of the output-enable register enables a channel. -/
def oeEnables (c : Config) (b : Byte) (ch : Channel) : Bool := b.getLsbD (channelNumber ch) != c.oeActiveLow

/-- R73: `p1`, `p2`, `p3` as 3 bytes each. -/
def fieldsBytes (f : RegisterFields) : List Byte :=
  beBytes 3 f.p1.toNat ++ beBytes 3 f.p2.toNat ++ beBytes 3 f.p3.toNat

end Sys2Proof.Machine
end

