-- ==== Sys2Proof/Machine/Line.lean ====
section
/-! DEFINITION. The line environment and the remote chip (`spec/00_scope.md` R13): reading and writing the remote map
(`spec/20_memory.md` R50), how a question is answered (`spec/92_eei_decisions.md` D29 for the plain chip), and how the chip's
map and pointer follow the acknowledged bytes (R53, R54). -/

namespace Sys2Proof.Machine

/-- The byte the map holds at an address (R50). -/
def readMem : Memory → Nat → Byte
  | [], _ => unlistedByte
  | (b, w) :: m, a => if b = a then w else readMem m a

/-- An entry in front of a memory, left out when it says what an unlisted address reads as anyway. -/
def consCell (a : Nat) (v : Byte) (m : Memory) : Memory := if v = unlistedByte then m else (a, v) :: m

/-- The map with one byte written; the form stays canonical (`Laws/Memory.lean`). -/
def writeMem : Memory → Nat → Byte → Memory
  | [], a, v => consCell a v []
  | (b, w) :: m, a, v =>
    if a < b then consCell a v ((b, w) :: m)
    else if a = b then consCell a v m
    else (b, w) :: writeMem m a v

/-- The canonical form from a least address on: addresses strictly rising and below 256 (R50), no entry equal to what an
unlisted address reads as. -/
def memWfFrom : Nat → Memory → Bool
  | _, [] => true
  | lo, (a, v) :: m => lo ≤ a && a < 256 && v != unlistedByte && memWfFrom (a + 1) m

/-- The canonical form of the remote map. -/
def memWf (m : Memory) : Bool := memWfFrom 0 m

/-- The block puts something on the lines. -/
def emit (e : LineEvent) (l : LineEnv) : LineEnv := { l with events := l.events ++ [e] }

/-- The prescribed answer to the next question; the plain chip's when none is prescribed (log 7). -/
def nextAnswer (l : LineEnv) : LineAnswer := l.answers.headD .asChip

/-- The next question has been answered. -/
def popAnswer (l : LineEnv) : LineEnv := { l with answers := l.answers.tail }

/-- How the plain chip `E_ideal` answers (D29). -/
def chipAnswer (c : Config) (l : LineEnv) : BusAction → HsClass
  | .start => if l.busOpen then .repStart else .start
  | .address ab =>
    if !l.busOpen then .other
    else if deviceOf ab ≠ c.chipAddr then (if asksRead c ab then .slaRNack else .slaWNack)
    else (if asksRead c ab then .slaRAck else .slaWAck)
  | .tx _ =>
    match l.mode with
    | .wFirst => .txAck
    | .wData => .txAck
    | .none => .other
    | .read => .other
  | .rx =>
    match l.mode with
    | .read => .rxDone (readMem l.rm l.rp.toNat)
    | .none => .other
    | .wFirst => .other
    | .wData => .other

/-- The status of the plain chip's answer: its class, as a raw code of that class (log 20). -/
def chipStatus (c : Config) (hs : HsClass) : HwStatus := hwStatus c (chipCode c.statusCodes hs.name) hs.data

/-- The status a bus action is answered with; none when the environment never answers (R13, R89, R238). -/
def reply (c : Config) (l : LineEnv) (a : BusAction) : Option HwStatus :=
  match nextAnswer l with
  | .asChip => some (chipStatus c (chipAnswer c l a))
  | .status code data => some (hwStatus c code data)
  | .never => none

/-- The chip is addressed by an acknowledged address byte inside an open transaction that names it and asks for the
acknowledged direction; an acknowledge of another device ends its part, and outside a transaction no byte reaches it (R53,
R54, D29, log 9). DESIGN CHOICE (log 34): that an address byte without a start condition before it counts as well. -/
def modeAfterAck (c : Config) (l : LineEnv) (ab : Byte) (read : Bool) : ChipMode :=
  if l.busOpen ∧ deviceOf ab = c.chipAddr ∧ asksRead c ab = read then (if read then .read else .wFirst) else .none

/-- What an answered action does to the lines and the chip (R53, R54, D29, log 9): a start that succeeds opens a transaction
and one that does not leaves none open (R54, log 28); an acknowledged byte reaches the chip, a byte the chip sends is the byte
its map holds, and any other answer leaves map and pointer alone. DESIGN CHOICE (log 33): that the pointer stays also when a
receive in a read of the chip ends in a fault. DESIGN CHOICE (log 34): that the chip sends one byte in a read, so that map and
pointer stay when a second receive in it is answered with HS_RX_DONE. -/
def chipReact (c : Config) (l : LineEnv) : BusAction → HsClass → LineEnv
  | .start, .start => { l with busOpen := true, mode := .none }
  | .start, .repStart => { l with busOpen := true, mode := .none }
  | .start, _ => { l with busOpen := false, mode := .none }
  | .address ab, .slaWAck => { l with mode := modeAfterAck c l ab false }
  | .address ab, .slaRAck => { l with mode := modeAfterAck c l ab true }
  | .tx b, .txAck =>
    match l.mode with
    | .wFirst => { l with rp := b, mode := .wData }
    | .wData => { l with rm := writeMem l.rm l.rp.toNat b, rp := l.rp + 1#8 }
    | .none => l
    | .read => l
  | .rx, .rxDone v =>
    match l.mode with
    | .read => { l with rm := writeMem l.rm l.rp.toNat v, rp := l.rp + 1#8, mode := .none }
    | .none => l
    | .wFirst => l
    | .wData => l
  | _, _ => l

/-- The lines after a confirmed stop or after the block released them (R158, R160, D29). -/
def closeBus (l : LineEnv) : LineEnv := { l with busOpen := false, mode := .none }

end Sys2Proof.Machine
end

