-- ==== Sys2Proof/Machine/Ops.lean ====
section
/-! DEFINITION. The shared operations: one question to the line environment (`spec/42_bus_transport.md` R153), the fault
reaction (R160, `spec/60_exceptions.md` R242), the five transport calls (R154 to R158), the call lists of the Register Access
Layer (`spec/43_register_access.md` R180 to R186), the mirrors (`spec/10_state.md` R26, R28), and the ports. -/

namespace Sys2Proof.Machine

/-- A procedure of the block: it ends with a value, or it hangs in a state for ever (R238). -/
inductive Run (α : Type) where
  | done (a : α) (s : State)
  | hang (stuck : State)

/-- First one procedure, then the next. -/
def Run.bind {α β : Type} (r : Run α) (k : α → State → Run β) : Run β :=
  match r with
  | .done a s => k a s
  | .hang s => .hang s

/-- The outcome of an operation: its last writes and its response; a hang has no next state (R238). -/
def Run.finish {α : Type} (r : Run α) (k : α → State → State) : Result :=
  match r with
  | .done a s => .next (k a s)
  | .hang s => .fault (.hang s)

/-! ### Ports -/

/-- R71: the response packet of the operation that ends here. -/
def respond (bytes : List Byte) (s : State) : State := { s with response := bytes }

/-- R262 (1): with a configuration that breaks R8 or R59, everything is refused. -/
def whenConfigured (s : State) (r : Result) : Result := if configValid s.cfg then r else .refused .badConfig

/-- R195: every controller operation but INITIALIZE is refused while `inited` is false. -/
def whenInited (s : State) (r : Result) : Result :=
  whenConfigured s (if s.inited then r else .refused .notInitialized)

/-- R71: the block takes a command only when no operation is running. -/
def accepting (s : State) : Bool := s.wait == .none && s.seq == none

/-- The command at the port (R71). -/
def fetch (s : State) : Decoded := decode s.command

/-- The state of the block put back to reset, as an event from outside: it does not reach the lines or the remote chip, and
the configuration is the same (R261). No operation does this. DESIGN CHOICE (log 26): a reset out of a hang (R238) withdraws
the pending question, so that its unanswered place is used up and the environment is free to answer, or not, the next one; and
the free bytes drawn after the reset are new ones; and the command bytes still waiting at the port and the last response are
dropped. The recorded status, which the spec gives no reset value (log 12), is a pair of the configuration's table. -/
def resetBlock (s : State) : State :=
  { State.reset with
    cfg := s.cfg
    tstat := hwStatus s.cfg (.ofNat 0x08) 0x00#8
    line := if s.wait = .none then s.line else popAnswer s.line
    freeIndex := s.freeIndex }

/-! ### Mirrors -/

/-- `PLL[x]` (R26). -/
def pllOf (s : State) : Pll → PllState
  | .a => s.pllA
  | .b => s.pllB

/-- `PLL[x] <- v` (R26). -/
def setPllOf (s : State) (x : Pll) (v : PllState) : State :=
  match x with
  | .a => { s with pllA := v }
  | .b => { s with pllB := v }

/-- `CH[i]` (R28). -/
def chOf (s : State) : Channel → ClockChannel
  | .ch0 => s.ch0
  | .ch1 => s.ch1
  | .ch2 => s.ch2

/-- `CH[i] <- v` (R28). -/
def setChOf (s : State) (i : Channel) (v : ClockChannel) : State :=
  match i with
  | .ch0 => { s with ch0 := v }
  | .ch1 => { s with ch1 := v }
  | .ch2 => { s with ch2 := v }

/-! ### One question to the line environment -/

/-- The value of `wait` while an action is pending (R24). -/
def waitFor : BusAction → Wait
  | .start => .start
  | .address _ => .address
  | .tx _ => .tx
  | .rx => .rx

/-- R153 (a): the action goes on the lines and `wait` names it. -/
def issued (a : BusAction) (s : State) : State :=
  { s with wait := waitFor a, line := emit (.action a) s.line }

/-- R153 (c): the environment has answered `hs`. -/
def answered (a : BusAction) (hs : HwStatus) (s : State) : State :=
  { s with wait := .none, tstat := hs, line := chipReact s.cfg (popAnswer (emit (.action a) s.line)) a hs.cls }

/-- R153 (a) to (c): issue the action and wait for its status, for ever if none comes. -/
def ask (a : BusAction) (s : State) : Run HwStatus :=
  match reply s.cfg s.line a with
  | some hs => .done hs (answered a hs s)
  | none => .hang (issued a s)

/-! ### The fault reaction -/

/-- The stop condition is on the lines and not confirmed (R158). -/
def stopping (s : State) : State :=
  { s with ps := .stopped, dir := .none, wait := .stop, line := emit .stop s.line }

/-- The bus is confirmed idle (R158). -/
def stopDone (s : State) : State :=
  { s with ps := .idle, dir := .none, wait := .none, line := closeBus (popAnswer (emit .stop s.line)) }

/-- `stop()` (R158): no status; it hangs if the bus never becomes idle. -/
def callStop (s : State) : Run Unit :=
  if nextAnswer s.line = .never then .hang (stopping s) else .done () (stopDone s)

/-- Lock recovery (R160): the lines are released, no stop condition is sent; it cannot hang. -/
def lockRecovery (s : State) : State :=
  { s with ps := .idle, dir := .none, wait := .none, line := closeBus (emit .release s.line) }

/-- Taking a fault (R242, the table of R231): the reaction of its cause, then the status that carries class and raw code. They
stand in `tstat` already. There is no return: recovery is the caller's (R243). -/
def takeFault (cause : Cause) (hs : HwStatus) (s : State) : Run Status :=
  match cause with
  | .nack => (callStop s).bind fun _ s => .done (.fault .nack hs) s
  | .arbitrationLoss => .done (.fault .arbitrationLoss hs) (lockRecovery s)
  | .busFault => .done (.fault .busFault hs) (lockRecovery s)
  | .protocolViolation => .done (.fault .protocolViolation hs) s

/-! ### The transport calls -/

/-- `start()` (R154). -/
def callStart (s : State) : Run Status :=
  (ask .start s).bind fun hs s =>
    match startFault hs.cls with
    | none => .done .ok { s with ps := .started, dir := .none }
    | some cause => takeFault cause hs s

/-- `send_address(addr7, read)` (R155). -/
def callAddress (addr7 : BitVec 7) (read : Bool) (s : State) : Run Status :=
  (ask (.address (addressByte s.cfg addr7 read)) s).bind fun hs s =>
    match addressFault read hs.cls with
    | none => .done .ok { s with ps := .addressed, dir := if read then .read else .write }
    | some cause => takeFault cause hs s

/-- `send_byte(b)` (R156). -/
def callSend (b : Byte) (s : State) : Run Status :=
  (ask (.tx b) s).bind fun hs s =>
    match txFault hs.cls with
    | none => .done .ok { s with ps := .data }
    | some cause => takeFault cause hs s

/-- The next free byte (log 11). -/
def drawByte (s : State) : Byte × State := (Config.anyByte s.freeIndex, { s with freeIndex := s.freeIndex + 1 })

/-- `receive_byte()` (R157): on a fault the byte is any value. -/
def callReceive (s : State) : Run (Byte × Status) :=
  (ask .rx s).bind fun hs s =>
    match rxOutcome hs.cls with
    | .ok v => .done (v, .ok) { s with ps := .data }
    | .error cause =>
      let drawn := drawByte s
      (takeFault cause hs drawn.2).bind fun st s => .done (drawn.1, st) s

/-! ### The Register Access Layer -/

/-- The calls without a result byte that the layer's lists are made of, all to `CHIP_ADDR` (R77, R180). -/
inductive TransportCall where
  | start
  | address (read : Bool)
  | byte (b : Byte)
  | stop
deriving DecidableEq, Repr

/-- One call of a list; `stop` has no status and counts as success (R158). -/
def runCall (t : TransportCall) (s : State) : Run Status :=
  match t with
  | .start => callStart s
  | .address read => callAddress s.cfg.chipAddr read s
  | .byte b => callSend b s
  | .stop => (callStop s).bind fun _ s => .done .ok s

/-- R180 (c): after a call returns, `ra_fault` latches a fault and `seq` advances by one, whatever the status. -/
def latch (st : Status) (s : State) : State :=
  { s with raFault := s.raFault || st != .ok, seq := s.seq.map (· + 1) }

/-- R180 (b), (c): the calls in order, none skipped, none repeated, never ended early. -/
def runCalls : List TransportCall → State → Run Unit
  | [], s => .done () s
  | t :: ts, s => (runCall t s).bind fun st s => runCalls ts (latch st s)

/-- R180 (a): an operation of the layer begins. -/
def raBegin (s : State) : State := { s with raFault := false, seq := some 0 }

/-- R180 (d): the list is exhausted. -/
def raEnd (s : State) : State := { s with seq := none }

/-- R181, R77: the calls of `read_reg` before the received byte. -/
def readCalls (addr : Byte) : List TransportCall := [.start, .address false, .byte addr, .start, .address true]

/-- R183, R184, R77: the calls that write bytes from an address on. -/
def writeCalls (addr : Byte) (values : List Byte) : List TransportCall :=
  [.start, .address false, .byte addr] ++ values.map .byte ++ [.stop]

/-- What `read_reg` returns (R182): the byte its `receive_byte` call returned; when a call before that one faulted, the byte
means nothing and is any value (log 29). -/
def readValue (received : Byte × Status) (s : State) : Byte × State :=
  if s.raFault && received.2 == .ok then drawByte s else (received.1, s)

/-- `read_reg(addr)` (R181, R182): a byte comes back whatever faults there were. -/
def readReg (addr : Byte) (s : State) : Run Byte :=
  (runCalls (readCalls addr) (raBegin s)).bind fun _ s =>
    (callReceive s).bind fun received s =>
      (runCalls [.stop] (latch received.2 s)).bind fun _ s =>
        let value := readValue received s
        .done value.1 (raEnd value.2)

/-- One write transaction: `write_reg` with one value (R183), `write_bulk` otherwise (R184). -/
def writeRegs (addr : Byte) (values : List Byte) (s : State) : Run Unit :=
  (runCalls (writeCalls addr values) (raBegin s)).bind fun _ s => .done () (raEnd s)

/-- `update_reg(addr, mask, value)` (R186); `ra_fault` ends as the OR of the two inner results. -/
def updateReg (addr mask value : Byte) (s : State) : Run Unit :=
  (readReg addr s).bind fun old s =>
    let readFault := s.raFault
    (writeRegs addr [mergeMasked old mask value] s).bind fun _ s => .done () { s with raFault := readFault || s.raFault }

/-! ### What the controller asks of the layer -/

/-- The Register Access Layer operations that the controller's lists are made of (R211). -/
inductive RaOp where
  | write (addr : Byte) (values : List Byte)
  | update (addr mask value : Byte)
deriving DecidableEq, Repr

/-- One operation of a controller list. -/
def runRaOp (o : RaOp) (s : State) : Run Unit :=
  match o with
  | .write addr values => writeRegs addr values s
  | .update addr mask value => updateReg addr mask value s

/-- A controller list in order. The value is the ghost `ctl_fault` of R196, the OR of every `ra_fault`; no operation reads
it. -/
def runRaOps : List RaOp → State → Run Bool
  | [], s => .done false s
  | o :: os, s =>
    (runRaOp o s).bind fun _ s =>
      let fault := s.raFault
      (runRaOps os s).bind fun later s => .done (fault || later) s

end Sys2Proof.Machine
end

