-- ==== Sys2Proof/Machine/Planner.lean ====
section
/-! DEFINITION. The Frequency Planner and register field encoder (`spec/40_planner.md`): PLAN_PLL, PLAN_MULTISYNTH,
ENCODE_FIELDS. Exact integer arithmetic (R122); nothing here reads or writes the block's state (R100). -/

namespace Sys2Proof.Machine

/-- `clamp(x, lo, hi)` (R11). -/
def clampNat (x lo hi : Nat) : Nat := if x < lo then lo else if x > hi then hi else x

/-- `floor(128 b / c)` (R119). -/
def fracQuotient (b c : Nat) : Nat := 128 * b / c

/-- The packing of R119, on its domain. -/
def packFields (a b c : Nat) : RegisterFields where
  p1 := BitVec.ofNat 18 (128 * a + fracQuotient b c - 512)
  p2 := BitVec.ofNat 20 (128 * b - c * fracQuotient b c)
  p3 := BitVec.ofNat 20 c

/-- The domain of R119. -/
def encodeDomain (a b c : Nat) : Bool := 4 ≤ a && a ≤ 2051 && 1 ≤ c && c ≤ 1048575 && b < c

/-- `encode_fields(a, b, c)` (R119). -/
def encodeFields (a b c : Nat) : Except Refusal RegisterFields :=
  if encodeDomain a b c then .ok (packFields a b c) else .error .encodeDomain

/-- The correction quotient `reference × ppb / 10^9` (R102; R11 `tdiv`, or the alternative of D11). -/
def correctionQuotient (c : Config) (reference : Nat) (ppb : Int) : Int :=
  match c.corrRounding with
  | .towardZero => ((reference : Int) * ppb).tdiv 1000000000
  | .floor => ((reference : Int) * ppb).fdiv 1000000000

/-- `ref1` (R102). -/
def correctedReference (c : Config) (reference : Nat) (ppb : Int) : Int :=
  reference + correctionQuotient c reference ppb

/-- What `plan_pll` works out: the divider, its fields, the target after both clamps and the frequency achieved (R101). -/
structure PllPlan where
  a : Nat
  b : Nat
  c : Nat
  fields : RegisterFields
  target : Nat
  achieved : Nat
deriving DecidableEq, Repr

/-- R103: the target clamped to the VCO range. -/
def vcoClamp (c : Config) (target : Nat) : Nat := clampNat target (c.vcoMin * freqMult) (c.vcoMax * freqMult)

/-- R104, R105: the integer part after the ratio clamp, and the target it stands for. -/
def pllRatio (t1 ref1 : Nat) : Nat × Nat :=
  let a0 := t1 / ref1
  let a := clampNat a0 15 90
  (a, if a = a0 then t1 else ref1 * a)

/-- R106: the fraction `b/c` of a remainder. -/
def pllFraction (rem ref1 : Nat) : Nat × Nat := if rem = 0 then (0, 1) else (rem * cDenom / ref1, cDenom)

/-- `plan_pll` for a corrected reference (R103 to R107). -/
def planPllAt (c : Config) (target ref1 : Nat) : Except Refusal PllPlan :=
  let ratio := pllRatio (vcoClamp c target) ref1
  let fraction := pllFraction (ratio.2 % ref1) ref1
  match encodeFields ratio.1 fraction.1 fraction.2 with
  | .error r => .error r
  | .ok fields =>
    .ok { a := ratio.1, b := fraction.1, c := fraction.2, fields := fields, target := ratio.2,
          achieved := ref1 * ratio.1 + ref1 * fraction.1 / fraction.2 }

/-- `plan_pll(target_freq, reference_freq, correction_ppb)` (R101, R102; K9 of R8 with R122). DESIGN CHOICE (log 32): a
reference below 2^44 whose corrected value makes an intermediate of R122 exceed 64 bits is planned exactly, not refused. -/
def planPll (c : Config) (target reference : Nat) (ppb : Int) : Except Refusal PllPlan :=
  if 2 ^ 44 ≤ reference then .error .referenceTooLarge
  else if correctedReference c reference ppb < 1 then .error .correctedReference
  else planPllAt c target (correctedReference c reference ppb).toNat

/-- What `plan_multisynth` works out (R109). -/
structure MsPlan where
  fields : RegisterFields
  resulting : Nat
  divby4 : Bool
deriving DecidableEq, Repr

/-- R110: the target clamped to the multisynth range. -/
def msClamp (c : Config) (target : Nat) : Nat :=
  clampNat target (c.multisynthMin * freqMult) (c.multisynthMax * freqMult)

/-- R113: the substitutions of auto-size mode, in that order. -/
def substituteRatio (a : Nat) : Nat :=
  let a := if a = 5 then 4 else a
  if a = 7 then 6 else a

/-- R111: divide-by-4 mode. -/
def planDivBy4 (t1 : Nat) (fixedPll : Bool) : MsPlan where
  fields := { p1 := 0#18, p2 := 0#20, p3 := 1#20 }
  resulting := if fixedPll then t1 else 4 * t1
  divby4 := true

/-- R112, R113: auto-size mode. -/
def planAutoSize (c : Config) (t1 : Nat) : Except Refusal MsPlan :=
  let a := substituteRatio (c.vcoMax * freqMult / t1)
  match encodeFields a 0 1 with
  | .error r => .error r
  | .ok fields => .ok { fields := fields, resulting := a * t1, divby4 := false }

/-- R114: the integer part in fixed-PLL mode and the target adjusted to it. -/
def msRatio (t1 pll : Nat) : Nat × Nat :=
  let a0 := pll / t1
  let a := clampNat a0 6 1800
  (a, if a = a0 then t1 else pll / a)

/-- R114 to R116: fixed-PLL mode. DESIGN CHOICE (log 32): where `rem × 10^6` exceeds 64 bits the plan is still exact, not
refused. -/
def planFixed (t1 pll : Nat) : Except Refusal MsPlan :=
  let ratio := msRatio t1 pll
  if ratio.2 = 0 ∨ pll / ratio.2 ≠ ratio.1 then .error .pllFreqTooSmall
  else
    match encodeFields ratio.1 (pll % ratio.2 * cDenom / ratio.2) cDenom with
    | .error r => .error r
    | .ok fields => .ok { fields := fields, resulting := ratio.2, divby4 := false }

/-- The plan before its result is fitted to the u64 port (R109). -/
def planMultisynthExact (c : Config) (target pll : Nat) (fixedPll : Bool) : Except Refusal MsPlan :=
  let t1 := msClamp c target
  if c.divBy4Threshold * freqMult ≤ t1 then .ok (planDivBy4 t1 fixedPll)
  else if fixedPll then planFixed t1 pll
  else planAutoSize c t1

/-- `plan_multisynth(target_freq, pll_freq, fixed_pll)` (R109); a result that 64 bits do not hold is refused (R122, log 19). -/
def planMultisynth (c : Config) (target pll : Nat) (fixedPll : Bool) : Except Refusal MsPlan :=
  match planMultisynthExact c target pll fixedPll with
  | .error r => .error r
  | .ok p => if 2 ^ 64 ≤ p.resulting then .error .resultTooWide else .ok p

/-- R118: the fields stand for an integer divider. -/
def fieldsInteger (f : RegisterFields) : Bool := f.p2 == 0#20 && (f.p1.toNat + 512) % 128 == 0

/-- PLAN_PLL (R101): fields and achieved frequency in the response. -/
def execPlanPll (target reference : U64) (ppb : BitVec 32) (s : State) : Result :=
  whenConfigured s
    (match planPll s.cfg target.toNat reference.toNat ppb.toInt with
     | .error r => .refused r
     | .ok p => .next (respond (fieldsBytes p.fields ++ beBytes 8 p.achieved) s))

/-- PLAN_MULTISYNTH (R109): fields, resulting frequency and the mode in the response. -/
def execPlanMultisynth (target pll : U64) (fixedPll : Bool) (s : State) : Result :=
  whenConfigured s
    (match planMultisynth s.cfg target.toNat pll.toNat fixedPll with
     | .error r => .refused r
     | .ok p => .next (respond (fieldsBytes p.fields ++ beBytes 8 p.resulting ++ [boolByte p.divby4]) s))

/-- ENCODE_FIELDS (R119): fields in the response. -/
def execEncodeFields (a b c : U32) (s : State) : Result :=
  whenConfigured s
    (match encodeFields a.toNat b.toNat c.toNat with
     | .error r => .refused r
     | .ok f => .next (respond (fieldsBytes f) s))

end Sys2Proof.Machine
end

