-- ==== Sys2Proof/Machine/RDivider.lean ====
section
/-! DEFINITION. The R-Divider Selector (`spec/41_rdiv.md`): SELECT_R_DIVIDER. -/

namespace Sys2Proof.Machine

/-- `D = 128 × CLKOUT_MIN × 100`, the lowest frequency that needs no R-divider (R141). -/
def directMin (c : Config) : Nat := 128 * (c.clkoutMin * freqMult)

/-- The least exponent in 1..7 that lifts `freq` to `d`; 7 when none does (R142, R143). -/
def leastExponent (freq d : Nat) : Nat :=
  ([1, 2, 3, 4, 5, 6, 7].find? fun k => d ≤ freq * 2 ^ k).getD 7

/-- `select_r_divider(freq)` (R142): exponent and scaled frequency. -/
def selectRDivider (c : Config) (freq : Nat) : Nat × Nat :=
  if directMin c ≤ freq then (0, freq)
  else
    let k := leastExponent freq (directMin c)
    (k, freq * 2 ^ k)

/-- SELECT_R_DIVIDER (R142): exponent and scaled frequency in the response. -/
def execSelectRDivider (freq : U64) (s : State) : Result :=
  whenConfigured s
    (let r := selectRDivider s.cfg freq.toNat
     .next (respond (beBytes 1 r.1 ++ beBytes 8 r.2) s))

end Sys2Proof.Machine
end

