-- ==== Sys2Proof/Machine/Controller.lean ====
section
/-! DEFINITION. The Synthesizer Controller (`spec/44_controller.md`): INITIALIZE, SET_FREQUENCY, SET_PLL, SET_CORRECTION,
OUTPUT_ENABLE, DRIVE_STRENGTH, SET_CLOCK_POWER, POWER_DOWN, SET_PLL_ASSIGNMENT. Every plan is made before the first bus
action, so a refused operation has done nothing (R241); every response is empty (R196). -/

namespace Sys2Proof.Machine

/-- The plan of `do_set_pll(x, freq)` under a correction (R197): the reference is always the crystal. It is refused
only when the corrected crystal is below 1 (R102); one that breaks K7 is planned, and its target leaves the VCO range as C9 says
(log 4). -/
def planStage (c : Config) (freq : Nat) (ppb : BitVec 32) : Except Refusal PllPlan :=
  planPll c freq c.xtalFreqX100 ppb.toInt

/-- `PLL[x].frequency <- t2` (R197). -/
def setFrequencyOf (s : State) (x : Pll) (freq : Nat) : State :=
  setPllOf s x { pllOf s x with frequency := BitVec.ofNat 64 freq }

/-- `PLL[x].correction_ppb <- ppb` (R205). -/
def setCorrectionOf (s : State) (x : Pll) (ppb : BitVec 32) : State :=
  setPllOf s x { pllOf s x with correctionPpb := ppb }

/-- The bus work and the mirror write of `do_set_pll` (R197): the block `ser8(p1, p2, p3, 0, 0)` in one transaction. -/
def doSetPll (x : Pll) (p : PllPlan) (s : State) : Run Bool :=
  (runRaOps [.write (pllParamsAddr s.cfg x) (ser8 p.fields 0#3 0b00#2)] s).bind fun fault s =>
    .done fault (setFrequencyOf s x p.target)

/-- The fixed chip configuration, first part of `initialize` (R198): load capacitance, disable-state, output-enable mask. -/
def initHeadOps (c : Config) : List RaOp :=
  [.write c.regXtalLoad [c.xtalLoadValue]]
    ++ c.regDisableState.map (fun a => .write a [c.disableStateValue])
    ++ [.write c.regOutputEnable [c.oeMaskInit]]

/-- R198: PLL A and integer mode off in one control byte. -/
def initChannelOp (c : Config) (i : Channel) : RaOp :=
  .update (clkCtrlAddr c i) (bitMask c.ccInt.val ||| bitMask c.ccPllSel.val) 0#8

/-- The last part of `initialize` (R198): channels to PLL A, VCXO parameters, PLL reset. -/
def initTailOps (c : Config) : List RaOp :=
  [initChannelOp c .ch0, initChannelOp c .ch1, initChannelOp c .ch2]
    ++ c.regVcxo.map (fun a => .write a [0x00#8])
    ++ [.write c.regPllReset [bitMask c.rstA.val ||| bitMask c.rstB.val]]

/-- R198: a channel record as `initialize` creates it; `drive_strength` is not written. -/
def initChannel (c : Config) (i : Channel) (old : ClockChannel) : ClockChannel :=
  { old with assignedPll := .a, integerMode := false, rDividerExponent := 0#3, enabled := oeEnables c c.oeMaskInit i }

/-- R198: the channel mirrors and `inited`. -/
def initMirrors (s : State) : State :=
  { s with
    ch0 := initChannel s.cfg .ch0 s.ch0
    ch1 := initChannel s.cfg .ch1 s.ch1
    ch2 := initChannel s.cfg .ch2 s.ch2
    inited := true }

/-- The bus work of `initialize` in the order of R198, with both plans made. -/
def runInit (pa pb : PllPlan) (s : State) : Run Unit :=
  (runRaOps (initHeadOps s.cfg) s).bind fun _ s =>
    (doSetPll .a pa s).bind fun _ s =>
      (doSetPll .b pb s).bind fun _ s =>
        (runRaOps (initTailOps s.cfg) s).bind fun _ s => .done () (initMirrors s)

/-- INITIALIZE (R198): it may be called at any time. -/
def execInitialize (s : State) : Result :=
  whenConfigured s
    (match planStage s.cfg s.cfg.pllBringupX100 s.pllA.correctionPpb,
        planStage s.cfg s.cfg.pllBringupX100 s.pllB.correctionPpb with
     | .ok pa, .ok pb => (runInit pa pb s).finish fun _ t => respond [] t
     | .error r, _ => .refused r
     | .ok _, .error r => .refused r)

/-- R201, D21: the integer-mode bit of a multisynth plan. -/
def integerModeOf (c : Config) (p : MsPlan) : Bool :=
  match c.intModePolicy with
  | .divBy4Only => p.divby4
  | .whenBZero => fieldsInteger p.fields

/-- The three operations of `set_frequency` (R200): the block with mode bits 0, the divider/mode byte, the integer-mode
bit. -/
def frequencyOps (c : Config) (i : Channel) (k : BitVec 3) (p : MsPlan) : List RaOp :=
  [.write (msParamsAddr c i) (ser8 p.fields 0#3 0b00#2),
   .update (msParamsAddr c i + 2#8) dmMask (dmValue k p.divby4),
   .update (clkCtrlAddr c i) (bitMask c.ccInt.val) (bitValue (integerModeOf c p) c.ccInt.val)]

/-- SET_FREQUENCY (R200). -/
def execSetFrequency (i : Channel) (freq : U64) (s : State) : Result :=
  whenInited s
    (let r := selectRDivider s.cfg freq.toNat
     let k := BitVec.ofNat 3 r.1
     match planMultisynth s.cfg r.2 (pllOf s (chOf s i).assignedPll).frequency.toNat true with
     | .error e => .refused e
     | .ok p =>
       (runRaOps (frequencyOps s.cfg i k p) s).finish fun _ t =>
         respond [] (setChOf t i
           { chOf t i with rDividerExponent := k, integerMode := integerModeOf t.cfg p }))

/-- SET_PLL (R203). -/
def execSetPll (freq : U64) (which : Pll) (s : State) : Result :=
  whenInited s
    (match planStage s.cfg freq.toNat (pllOf s which).correctionPpb with
     | .error e => .refused e
     | .ok p => (doSetPll which p s).finish fun _ t => respond [] t)

/-- The bus work of `set_correction` (R205): both corrections stored, then PLL A, then PLL B. -/
def runCorrection (ppb : BitVec 32) (pa pb : PllPlan) (s : State) : Run Unit :=
  (doSetPll .a pa (setCorrectionOf (setCorrectionOf s .a ppb) .b ppb)).bind fun _ s =>
    (doSetPll .b pb s).bind fun _ s => .done () s

/-- SET_CORRECTION (R205): refused before anything is written when the corrected crystal would be below 1. -/
def execSetCorrection (ppb : BitVec 32) (_reference : Reference) (s : State) : Result :=
  whenInited s
    (match planStage s.cfg s.pllA.frequency.toNat ppb, planStage s.cfg s.pllB.frequency.toNat ppb with
     | .ok pa, .ok pb => (runCorrection ppb pa pb s).finish fun _ t => respond [] t
     | .error r, _ => .refused r
     | .ok _, .error r => .refused r)

/-- OUTPUT_ENABLE (R207). -/
def execOutputEnable (i : Channel) (enable : Bool) (s : State) : Result :=
  whenInited s
    ((runRaOps [.update s.cfg.regOutputEnable (bitMask (channelNumber i))
        (bitValue (oeBit s.cfg enable) (channelNumber i))] s).finish fun _ t =>
      respond [] (setChOf t i { chOf t i with enabled := enable }))

/-- DRIVE_STRENGTH (R208). -/
def execDriveStrength (i : Channel) (level : BitVec 2) (s : State) : Result :=
  whenInited s
    ((runRaOps [.update (clkCtrlAddr s.cfg i) (3#8 <<< s.cfg.ccDrv.val) (level.zeroExtend 8 <<< s.cfg.ccDrv.val)] s).finish
      fun _ t => respond [] (setChOf t i { chOf t i with driveStrength := level }))

/-- SET_CLOCK_POWER (R209): no mirror is written. -/
def execSetClockPower (i : Channel) (on : Bool) (s : State) : Result :=
  whenInited s
    ((runRaOps [.update (clkCtrlAddr s.cfg i) (bitMask s.cfg.ccPdn.val) (bitValue (!on) s.cfg.ccPdn.val)] s).finish
      fun _ t => respond [] t)

/-- The operations of `power_down` (R210): all three outputs disabled, then every control byte at its powered-down value. -/
def powerDownOps (c : Config) : List RaOp :=
  [.update c.regOutputEnable 0b111#8 (if oeBit c false then 0b111#8 else 0b000#8),
   .write (clkCtrlAddr c .ch0) [c.clkCtrlPdnValue],
   .write (clkCtrlAddr c .ch1) [c.clkCtrlPdnValue],
   .write (clkCtrlAddr c .ch2) [c.clkCtrlPdnValue]]

/-- POWER_DOWN (R210): no mirror is written and `inited` stays. -/
def execPowerDown (s : State) : Result :=
  whenInited s ((runRaOps (powerDownOps s.cfg) s).finish fun _ t => respond [] t)

/-- SET_PLL_ASSIGNMENT (R206). -/
def execSetPllAssignment (i : Channel) (which : Pll) (s : State) : Result :=
  whenInited s
    ((runRaOps [.update (clkCtrlAddr s.cfg i) (bitMask s.cfg.ccPllSel.val)
        (bitValue (which == .b) s.cfg.ccPllSel.val)] s).finish fun _ t =>
      respond [] (setChOf t i { chOf t i with assignedPll := which }))

end Sys2Proof.Machine
end

