-- ==== Sys2Proof/Machine/RegisterAccess.lean ====
section
/-! DEFINITION. The Register Access Layer operations (`spec/43_register_access.md`): READ_REG, WRITE_REG, WRITE_BULK,
UPDATE_REG. Each response ends with `ra_fault` (R180, R72). -/

namespace Sys2Proof.Machine

/-- READ_REG (R181): the byte, then `ra_fault`. -/
def execReadReg (addr : Byte) (s : State) : Result :=
  whenConfigured s ((readReg addr s).finish fun v t => respond [v, boolByte t.raFault] t)

/-- WRITE_REG (R183). -/
def execWriteReg (addr value : Byte) (s : State) : Result :=
  whenConfigured s ((writeRegs addr [value] s).finish fun _ t => respond [boolByte t.raFault] t)

/-- WRITE_BULK (R184): an empty `values[]` is refused. -/
def execWriteBulk (addr : Byte) (values : List Byte) (s : State) : Result :=
  whenConfigured s
    (if values = [] then .refused .emptyValues
     else (writeRegs addr values s).finish fun _ t => respond [boolByte t.raFault] t)

/-- UPDATE_REG (R186). -/
def execUpdateReg (addr mask value : Byte) (s : State) : Result :=
  whenConfigured s ((updateReg addr mask value s).finish fun _ t => respond [boolByte t.raFault] t)

end Sys2Proof.Machine
end

