-- ==== Sys2Proof/Machine/Transport.lean ====
section
/-! DEFINITION. The Bus Transport operations (`spec/42_bus_transport.md`): START, SEND_ADDRESS, SEND_BYTE, RECEIVE_BYTE, STOP.
No operation checks `ps` before acting (R152, R161). -/

namespace Sys2Proof.Machine

/-- START (R154). -/
def execStart (s : State) : Result :=
  whenConfigured s ((callStart s).finish fun st t => respond [statusByte st] t)

/-- SEND_ADDRESS (R155). -/
def execSendAddress (addr7 : BitVec 7) (read : Bool) (s : State) : Result :=
  whenConfigured s ((callAddress addr7 read s).finish fun st t => respond [statusByte st] t)

/-- SEND_BYTE (R156). -/
def execSendByte (b : Byte) (s : State) : Result :=
  whenConfigured s ((callSend b s).finish fun st t => respond [statusByte st] t)

/-- RECEIVE_BYTE (R157): the byte, then the status. -/
def execReceiveByte (s : State) : Result :=
  whenConfigured s ((callReceive s).finish fun received t => respond [received.1, statusByte received.2] t)

/-- STOP (R158): an empty response. -/
def execStop (s : State) : Result :=
  whenConfigured s ((callStop s).finish fun _ t => respond [] t)

end Sys2Proof.Machine
end

