-- ==== Sys2Proof/Machine/Dispatch.lean ====
section
/-! DEFINITION. One arm per operation of `spec/30_encoding.md` R72, each a direct call of its meaning. -/

namespace Sys2Proof.Machine

def exec (i : Instr) (s : State) : Host.Outcome State Fault Refusal :=
  match i with
  -- Bus Transport
  | .start => Sys2Proof.Machine.execStart s
  | .sendAddress addr7 read => Sys2Proof.Machine.execSendAddress addr7 read s
  | .sendByte b => Sys2Proof.Machine.execSendByte b s
  | .receiveByte => Sys2Proof.Machine.execReceiveByte s
  | .stop => Sys2Proof.Machine.execStop s
  -- Register Access Layer
  | .readReg addr => Sys2Proof.Machine.execReadReg addr s
  | .writeReg addr value => Sys2Proof.Machine.execWriteReg addr value s
  | .writeBulk addr values => Sys2Proof.Machine.execWriteBulk addr values s
  | .updateReg addr mask value => Sys2Proof.Machine.execUpdateReg addr mask value s
  -- Frequency Planner
  | .planPll target reference ppb => Sys2Proof.Machine.execPlanPll target reference ppb s
  | .planMultisynth target pll fixed => Sys2Proof.Machine.execPlanMultisynth target pll fixed s
  | .encodeFields a b c => Sys2Proof.Machine.execEncodeFields a b c s
  -- R-Divider Selector
  | .selectRDivider freq => Sys2Proof.Machine.execSelectRDivider freq s
  -- Synthesizer Controller
  | .initializeAll => Sys2Proof.Machine.execInitialize s
  | .setFrequency channel freq => Sys2Proof.Machine.execSetFrequency channel freq s
  | .setPll freq which => Sys2Proof.Machine.execSetPll freq which s
  | .setCorrection ppb reference => Sys2Proof.Machine.execSetCorrection ppb reference s
  | .outputEnable channel enable => Sys2Proof.Machine.execOutputEnable channel enable s
  | .driveStrength channel level => Sys2Proof.Machine.execDriveStrength channel level s
  | .setClockPower channel on => Sys2Proof.Machine.execSetClockPower channel on s
  | .powerDown => Sys2Proof.Machine.execPowerDown s
  | .setPllAssignment channel which => Sys2Proof.Machine.execSetPllAssignment channel which s

end Sys2Proof.Machine
end

