-- ==== Sys2Proof/Machine/Step.lean ====
section
/-! DEFINITION. One step: the block takes the next command from its port and runs it to its end (`spec/30_encoding.md` R71,
`spec/10_state.md` R20; log 1, log 2). -/

namespace Sys2Proof.Machine

/-- One step. A block that still waits takes no command and has no next state (R238); a block with no whole command at its
port stays as it is (log 2). -/
def step (s : State) : Host.Outcome State Fault Refusal :=
  if accepting s then
    match fetch s with
    | .command i rest => exec i { s with command := rest }
    | .incomplete => .next s
    | .bad why => .refused (.badCommand why)
  else .fault (.hang s)

/-- The state with a table row's packet at the command port, where `step` takes its next command. -/
def State.withFetchWord (s : State) (nbits w : Nat) : State := { s with command := tableBytes nbits w }

end Sys2Proof.Machine
end

