-- ==== Sys2Proof/Safety.lean ====
section
/-! DEFINITION. The terms in which claims about runs are made: the environment answers (`spec/60_exceptions.md` R238), the
plain chip of `spec/92_eei_decisions.md` D29, what an operation leaves alone, and the invariant of the machine. -/

namespace Sys2Proof.Machine

/-- The line environment answers every action it is asked from here on (the hypothesis of R187 (a) and R238). -/
abbrev Responsive (s : State) : Prop := LineAnswer.never ∉ s.line.answers

/-- The classes that the plain chip of D29 answers with. -/
def spokenClasses : List StatusClass :=
  [.start, .repStart, .slaWAck, .slaWNack, .slaRAck, .slaRNack, .txAck, .rxDone, .other]

/-- The table of D3 has a code for every class that the plain chip of D29 answers with (log 20). -/
abbrev ChipSpeaks (c : Config) : Prop := ∀ k ∈ spokenClasses, classOf c.statusCodes (chipCode c.statusCodes k) = k

/-- Every action from here on is answered as the plain chip `E_ideal` of D29 answers it. -/
abbrev PlainChip (s : State) : Prop := s.line.answers = [] ∧ ChipSpeaks s.cfg

/-- The recorded status is a pair of R89: its code is of its class. -/
abbrev StatusPaired (s : State) : Prop := classOf s.cfg.statusCodes s.tstat.code = s.tstat.cls.name

/-- The configuration, `inited` and every mirror are as before. -/
abbrev MirrorsKept (s t : State) : Prop :=
  t.cfg = s.cfg ∧ t.inited = s.inited ∧ t.pllA = s.pllA ∧ t.pllB = s.pllB ∧ t.ch0 = s.ch0 ∧ t.ch1 = s.ch1 ∧ t.ch2 = s.ch2

/-- Every byte of the remote map reads as before. -/
abbrev MapKept (s t : State) : Prop := ∀ a, readMem t.line.rm a = readMem s.line.rm a

/-- Every byte of the remote map but those of the listed addresses reads as before. -/
abbrev MapKeptBut (addrs : List Nat) (s t : State) : Prop :=
  ∀ a, a ∉ addrs → readMem t.line.rm a = readMem s.line.rm a

/-- The block is between two operations, with the transport idle. -/
abbrev TransportIdle (s : State) : Prop := s.ps = .idle ∧ s.dir = .none ∧ s.wait = .none ∧ s.seq = none

/-- No transaction is open on the lines and the chip expects nothing (D29). -/
abbrev LinesClosed (s : State) : Prop := s.line.busOpen = false ∧ s.line.mode = .none

/-- What a Register Access Layer operation may not touch, and where it ends (R180, R187 (a)). -/
abbrev LayerFrame (s t : State) : Prop := MirrorsKept s t ∧ t.command = s.command ∧ TransportIdle t ∧ LinesClosed t

/-- What a transport operation leaves alone whatever its outcome (R152, R153, R231): configuration, mirrors, the layer's own
bits, the command port; and no action is pending. -/
abbrev CallFrame (s t : State) : Prop :=
  MirrorsKept s t ∧ t.seq = s.seq ∧ t.raFault = s.raFault ∧ t.command = s.command ∧ t.wait = .none

/-- The remote map and its pointer are as before. -/
abbrev ChipKept (s t : State) : Prop := MapKept s t ∧ t.line.rp = s.line.rp

/-- K1 of R8. -/
abbrev ConstraintK1 (c : Config) : Prop := 1 ≤ c.vcoMin ∧ c.vcoMin ≤ c.vcoMax ∧ c.vcoMax * freqMult < 2 ^ 64

/-- K2 of R8. -/
abbrev ConstraintK2 (c : Config) : Prop :=
  1 ≤ c.multisynthMin ∧ c.multisynthMin ≤ c.multisynthMax ∧ c.multisynthMax * freqMult < 2 ^ 64

/-- K3, K4 and K5 of R8. -/
abbrev ConstraintsK3to5 (c : Config) : Prop :=
  c.divBy4Threshold ≤ c.multisynthMax ∧ 4 * c.divBy4Threshold ≤ c.vcoMax ∧ c.vcoMax / c.multisynthMin ≤ 2051

/-- K6 of R8. -/
abbrev ConstraintK6 (c : Config) : Prop := 1 ≤ c.clkoutMin ∧ c.clkoutMin * freqMult * 128 < 2 ^ 57

/-- K7 of R8 for the uncorrected crystal, the reference in use before any correction (log 4). -/
abbrev CrystalReaches (c : Config) : Prop :=
  c.vcoMin * freqMult ≤ 90 * c.xtalFreqX100 ∧ 15 * c.xtalFreqX100 ≤ c.vcoMax * freqMult

/-- K8 of R8 for every frequency in the VCO range (R27, log 5). -/
abbrev ConstraintK8 (c : Config) : Prop := 3240000 ≤ c.vcoMin * freqMult

/-- K9 of R8 for the crystal. -/
abbrev CrystalSmall (c : Config) : Prop := c.xtalFreqX100 < 2 ^ 44

/-- `clamp(x, lo, hi)` of R11 for `lo ≤ hi`, as a bound from below and one from above. -/
def bounded (x lo hi : Nat) : Nat := min (max x lo) hi

/-- The target after both clamps, `t2` of R101, as R103 and R105 say it. -/
def clampedTarget (c : Config) (freq ref1 : Nat) : Nat :=
  let t1 := bounded freq (c.vcoMin * freqMult) (c.vcoMax * freqMult)
  if t1 / ref1 < 15 then 15 * ref1 else if 90 < t1 / ref1 then 90 * ref1 else t1

/-- The corrected crystal for a stored correction (R102, R197). -/
def correctedCrystal (c : Config) (ppb : BitVec 32) : Int := correctedReference c c.xtalFreqX100 ppb.toInt

/-- The three fields and the last eight bytes of a planner response (R72, R73), from the divider `a + b/c`. -/
def plannerResponse (a b c freq : Nat) : List Byte :=
  beBytes 3 (128 * a + 128 * b / c - 512) ++ beBytes 3 (128 * b - c * (128 * b / c)) ++ beBytes 3 c ++ beBytes 8 freq

/-- K7 of R8 for one correction: neither ratio clamp can move a target out of the VCO range. -/
abbrev RatioReaches (c : Config) (ppb : BitVec 32) : Prop :=
  ((c.vcoMin * freqMult : Nat) : Int) ≤ 90 * correctedReference c c.xtalFreqX100 ppb.toInt ∧
    15 * correctedReference c c.xtalFreqX100 ppb.toInt ≤ ((c.vcoMax * freqMult : Nat) : Int)

/-- The PLLState invariant of R27, under K7 for the stored correction (C9), whose corrected crystal R102 allows. -/
abbrev PllInRange (c : Config) (p : PllState) : Prop :=
  1 ≤ correctedCrystal c p.correctionPpb ∧
    (RatioReaches c p.correctionPpb → c.vcoMin * freqMult ≤ p.frequency.toNat ∧ p.frequency.toNat ≤ c.vcoMax * freqMult)

/-- The invariant of the machine between operations: the map has its canonical form; no action is pending and no layer
operation runs (R24, R23); `ps` is not STOPPED, which lasts only while a stop is pending (R21); `dir` is NONE in IDLE and
STARTED (R22); and the PLL records meet R27 once `initialize` has run, and hold no correction before (R38); and the recorded status is
a pair of R89. -/
abbrev Inv (s : State) : Prop :=
  memWf s.line.rm = true ∧ s.wait = .none ∧ s.seq = none ∧ s.ps ≠ .stopped ∧
    ((s.ps = .idle ∨ s.ps = .started) → s.dir = .none) ∧
    (s.inited = true → PllInRange s.cfg s.pllA ∧ PllInRange s.cfg s.pllB) ∧
    (s.inited = false → s.pllA.correctionPpb = 0#32 ∧ s.pllB.correctionPpb = 0#32) ∧
    StatusPaired s

/-- The statuses of the calls of a list, in order (R180): what the layer's `ra_fault` is the OR of. -/
def callStatuses : List TransportCall → State → List Status
  | [], _ => []
  | t :: ts, s =>
    match runCall t s with
    | .done st s => st :: callStatuses ts (latch st s)
    | .hang _ => []

/-- The statuses of the seven calls of READ_REG, the receive and the stop included (R181). -/
def readStatuses (addr : Byte) (s : State) : List Status :=
  match runCalls (readCalls addr) (raBegin s) with
  | .done _ u =>
    match callReceive u with
    | .done received w =>
      callStatuses (readCalls addr) (raBegin s) ++ received.2 :: callStatuses [.stop] (latch received.2 w)
    | .hang _ => []
  | .hang _ => []

/-- The statuses of the calls of one write transaction (R183, R184). -/
def writeStatuses (addr : Byte) (values : List Byte) (s : State) : List Status :=
  callStatuses (writeCalls addr values) (raBegin s)

/-- An operation from `s` that never returns (R238): it is stuck in a state with an action pending that is never answered,
from which there is no step; the ports, `inited` and the channel mirrors are as they were. -/
abbrev StuckFrom (s : State) (r : Result) : Prop :=
  ∃ u, r = .fault (.hang u) ∧ u.wait ≠ .none ∧ nextAnswer u.line = .never ∧ step u = .fault (.hang u) ∧
    u.cfg = s.cfg ∧ u.inited = s.inited ∧ u.ch0 = s.ch0 ∧ u.ch1 = s.ch1 ∧ u.ch2 = s.ch2 ∧
    u.command = s.command ∧ u.response = s.response

/-- The bus actions among what was put on the lines, stops and releases left out. -/
def busActions (es : List LineEvent) : List BusAction :=
  es.filterMap fun e =>
    match e with
    | .action a => some a
    | .stop => none
    | .release => none

/-- The frame of a write transaction (R79): `S [CHIP_ADDR, write] [addr] [values]… P`. -/
def writeFrame (c : Config) (addr : Byte) (values : List Byte) : List LineEvent :=
  [.action .start, .action (.address (addressByte c c.chipAddr false)), .action (.tx addr)]
    ++ values.map (fun v => .action (.tx v)) ++ [.stop]

/-- The frame of `read_reg` (R79): `S [CHIP_ADDR, write] [addr] Sr [CHIP_ADDR, read] <value> P`. -/
def readFrame (c : Config) (addr : Byte) : List LineEvent :=
  [.action .start, .action (.address (addressByte c c.chipAddr false)), .action (.tx addr), .action .start,
    .action (.address (addressByte c c.chipAddr true)), .action .rx, .stop]

/-- `n` addresses from `addr` upward, modulo 256 (R53). -/
def addrsFrom (addr : Byte) (n : Nat) : List Nat := (List.range n).map fun i => (addr.toNat + i) % 256

/-- The entries of the register map with their lengths (R59). -/
def mapEntries (c : Config) : List (Byte × Nat) :=
  [(c.regOutputEnable, 1), (c.regClkCtrl0, 1), (c.regClkCtrl1, 1), (c.regClkCtrl2, 1)]
    ++ c.regDisableState.map (fun a => (a, 1))
    ++ [(c.regPllParamsA, 8), (c.regPllParamsB, 8), (c.regMsParams0, 8), (c.regMsParams1, 8), (c.regMsParams2, 8)]
    ++ [(c.regPllReset, 1), (c.regXtalLoad, 1)] ++ c.regVcxo.map (fun a => (a, 1))

/-- No two entries of the register map overlap (R59). -/
abbrev EntriesApart (c : Config) : Prop := ((mapEntries c).flatMap fun e => addrsFrom e.1 e.2).Nodup

/-- The map with consecutive bytes written, addresses modulo 256 (R53). -/
def writeBytes : Memory → Byte → List Byte → Memory
  | m, _, [] => m
  | m, a, v :: vs => writeBytes (writeMem m a.toNat v) (a + 1#8) vs

/-- What one operation of a controller list does to the map of the plain chip. -/
def opMem (o : RaOp) (m : Memory) : Memory :=
  match o with
  | .write addr values => writeBytes m addr values
  | .update addr mask value => writeMem m addr.toNat (mergeMasked (readMem m addr.toNat) mask value)

/-- What a controller list does to the map of the plain chip. -/
def opsMem (os : List RaOp) (m : Memory) : Memory := os.foldl (fun m o => opMem o m) m

/-- The frames that one operation of a controller list puts on the lines of the plain chip: a masked update is a read and
then a write of the merged byte (R186). -/
def opFrames (c : Config) (m : Memory) : RaOp → List LineEvent
  | .write addr values => writeFrame c addr values
  | .update addr mask value => readFrame c addr ++ writeFrame c addr [mergeMasked (readMem m addr.toNat) mask value]

/-- The frames of a controller list on the plain chip, in order. -/
def opsFrames (c : Config) : Memory → List RaOp → List LineEvent
  | _, [] => []
  | m, o :: os => opFrames c m o ++ opsFrames c (opMem o m) os

end Sys2Proof.Machine
end

