-- ==== Sys2Proof/Certificates/Slice0/Obligations.lean ====
section
/-! DEFINITION. The statements for the provers, in the order of `OBLIGATIONS.json`: encodings, the step, the transport, the
Register Access Layer, the planner, the R-divider, the controller, the invariants. Each docstring names what of `spec/` it
states. -/

open Sys2Proof Sys2Proof.Machine

/-! ### Encodings -/

/-- Every operation the command format can carry is read back from its packet, whatever bytes follow (R71 to R75). -/
def Obligations.DecodeOfEncode : Prop :=
  ∀ (i : Instr) (rest : List Byte), i.wellFormed = true → decode (encode i ++ rest) = .command i rest

/-- What the decoder accepts is well formed and is the packet of the operation it names: no operation has two encodings. -/
def Obligations.EncodeOfDecode : Prop :=
  ∀ (bs : List Byte) (i : Instr) (rest : List Byte),
    decode bs = .command i rest → i.wellFormed = true ∧ bs = encode i ++ rest

/-- Packets that `95_test_vectors.md` writes out decode to the operations it names, one of each family. -/
def Obligations.VectorPacketsDecode : Prop :=
  decode [0x01#8, 0x60#8, 0x01#8] = .command (.sendAddress 0x60#7 true) [] ∧
  decode [0x11#8, 0x03#8, 0xFE#8] = .command (.writeReg 0x03#8 0xFE#8) [] ∧
  decode [0x12#8, 0x1A#8, 0x08#8, 0x00#8, 0x01#8, 0x00#8, 0x0E#8, 0x00#8, 0x00#8, 0x00#8, 0x00#8] =
    .command (.writeBulk 0x1A#8 [0x00#8, 0x01#8, 0x00#8, 0x0E#8, 0x00#8, 0x00#8, 0x00#8, 0x00#8]) [] ∧
  decode [0x22#8, 0x00#8, 0x00#8, 0x00#8, 0x1A#8, 0x00#8, 0x00#8, 0x13#8, 0x4A#8, 0x00#8, 0x0F#8, 0x42#8, 0x40#8] =
    .command (.encodeFields 26#32 4938#32 1000000#32) [] ∧
  decode [0x23#8, 0x00#8, 0x00#8, 0x00#8, 0x00#8, 0x00#8, 0x06#8, 0x1A#8, 0x7F#8] =
    .command (.selectRDivider 399999#64) [] ∧
  decode [0x32#8, 0x00#8, 0x00#8, 0x00#8, 0x0F#8, 0x23#8, 0x09#8, 0xAB#8, 0x4E#8, 0x01#8] =
    .command (.setPll 65012345678#64 .b) [] ∧
  decode [0x33#8, 0xFF#8, 0xFF#8, 0xFC#8, 0x18#8, 0x00#8] = .command (.setCorrection (-1000#32) .crystal) []

/-- R74: a block ready for a command refuses every unassigned opcode, and every selector, Boolean, address or length operand
that is out of range, with the reason that names the byte. -/
def Obligations.BadPacketsRefused : Prop :=
  ∀ (s : State), accepting s = true →
    (∀ b rest, s.command = b :: rest →
      (0x05 ≤ b.toNat ∧ b.toNat ≤ 0x0F) ∨ (0x14 ≤ b.toNat ∧ b.toNat ≤ 0x1F) ∨ (0x24 ≤ b.toNat ∧ b.toNat ≤ 0x2F) ∨
        0x39 ≤ b.toNat →
      step s = .refused (.badCommand (.unassignedOpcode b))) ∧
    (∀ b rest, s.command = 0x01#8 :: b :: rest → 128 ≤ b.toNat → step s = .refused (.badCommand (.deviceAddress b))) ∧
    (∀ a b rest, s.command = 0x01#8 :: a :: b :: rest → a.toNat < 128 → 2 ≤ b.toNat →
      step s = .refused (.badCommand (.boolean b))) ∧
    (∀ a rest, s.command = 0x12#8 :: a :: 0x00#8 :: rest → step s = .refused (.badCommand .emptyValues)) ∧
    (∀ fs b rest, s.command = 0x21#8 :: (fs ++ b :: rest) → fs.length = 16 → 2 ≤ b.toNat →
      step s = .refused (.badCommand (.boolean b))) ∧
    (∀ o b rest, s.command = o :: b :: rest → o ∈ [0x31#8, 0x34#8, 0x35#8, 0x36#8, 0x38#8] → 3 ≤ b.toNat →
      step s = .refused (.badCommand (.channel b))) ∧
    (∀ fs b rest, s.command = 0x32#8 :: (fs ++ b :: rest) → fs.length = 8 → 2 ≤ b.toNat →
      step s = .refused (.badCommand (.pll b))) ∧
    (∀ ps b rest, s.command = 0x33#8 :: (ps ++ b :: rest) → ps.length = 4 → 1 ≤ b.toNat →
      step s = .refused (.badCommand (.reference b))) ∧
    (∀ o c b rest, s.command = o :: c :: b :: rest → o ∈ [0x34#8, 0x36#8] → c.toNat < 3 → 2 ≤ b.toNat →
      step s = .refused (.badCommand (.boolean b))) ∧
    (∀ c b rest, s.command = 0x35#8 :: c :: b :: rest → c.toNat < 3 → 4 ≤ b.toNat →
      step s = .refused (.badCommand (.level b))) ∧
    (∀ c b rest, s.command = 0x38#8 :: c :: b :: rest → c.toNat < 3 → 2 ≤ b.toNat →
      step s = .refused (.badCommand (.pll b)))

/-- R82, R83: the eight bytes of a parameter block are those of the layout table, and the block determines the three fields,
the R-divider exponent and the divide-by-4 bits. -/
def Obligations.ParameterBlockLayout : Prop :=
  (∀ (f : RegisterFields) (r : BitVec 3) (d : BitVec 2),
    (ser8 f r d).map BitVec.toNat =
      [f.p3.toNat / 256 % 256, f.p3.toNat % 256, r.toNat * 16 + d.toNat * 4 + f.p1.toNat / 65536,
       f.p1.toNat / 256 % 256, f.p1.toNat % 256, f.p3.toNat / 65536 * 16 + f.p2.toNat / 65536,
       f.p2.toNat / 256 % 256, f.p2.toNat % 256]) ∧
  ∀ (f g : RegisterFields) (r u : BitVec 3) (d e : BitVec 2), ser8 f r d = ser8 g u e → f = g ∧ r = u ∧ d = e

/-! ### The step -/

/-- R71, R238: when the bytes at the port begin with a whole command and no operation is running, the step is that operation,
its bytes taken from the port; a block whose action is still pending takes no command and has no next state. -/
def Obligations.StepRunsTheCommand : Prop :=
  (∀ (s : State) (i : Instr) (rest : List Byte),
    s.wait = .none → s.seq = none → decode s.command = .command i rest → step s = exec i { s with command := rest }) ∧
  ∀ (s : State), s.wait ≠ .none → step s = .fault (.hang s)

/-! ### Bus Transport -/

/-- R154, R152: START, whose packet is one byte, for every class and raw code it can be answered with, and when it is never answered. That
after a fault no transaction is open on the lines is the model's choice (log 28); the form of the hang is log 8. -/
def Obligations.StartOutcome : Prop :=
  encode .start = [0x00#8] ∧
  ∀ (s : State), configValid s.cfg = true →
    (∀ hs, reply s.cfg s.line .start = some hs →
      ∃ t, exec .start s = .next t ∧ CallFrame s t ∧ ChipKept s t ∧ t.tstat = hs ∧ t.freeIndex = s.freeIndex ∧
        ((hs.cls = .start ∨ hs.cls = .repStart) →
          t.response = [0x00#8] ∧ t.ps = .started ∧ t.dir = .none ∧ t.line.busOpen = true ∧ t.line.mode = .none ∧
            t.line.events = s.line.events ++ [.action .start]) ∧
        (hs.cls = .arbLost →
          t.response = [hs.code.byte] ∧ t.ps = .idle ∧ t.dir = .none ∧ LinesClosed t ∧
            t.line.events = s.line.events ++ [.action .start, .release]) ∧
        ((hs.cls ≠ .start ∧ hs.cls ≠ .repStart ∧ hs.cls ≠ .arbLost) →
          t.response = [hs.code.byte] ∧ t.ps = s.ps ∧ t.dir = s.dir ∧ LinesClosed t ∧
            t.line.events = s.line.events ++ [.action .start])) ∧
    (reply s.cfg s.line .start = none →
      exec .start s = .fault (.hang { s with wait := .start, line := emit (.action .start) s.line }))

/-- R155, R152, R78: SEND_ADDRESS for every class and raw code it can be answered with; the stop of a NACK is confirmed unless the
environment never answers it. When the chip takes part is log 9; that no transaction is open after a lock recovery is the
model's choice (log 28). -/
def Obligations.SendAddressOutcome : Prop :=
  ∀ (s : State) (addr7 : BitVec 7) (read : Bool) (hs : HwStatus), configValid s.cfg = true →
    reply s.cfg s.line (.address (addressByte s.cfg addr7 read)) = some hs →
    s.line.answers.tail.headD .asChip ≠ .never →
    ∃ t, exec (.sendAddress addr7 read) s = .next t ∧ CallFrame s t ∧ ChipKept s t ∧ t.tstat = hs ∧
      t.freeIndex = s.freeIndex ∧
      (hs.cls = (if read then .slaRAck else .slaWAck) →
        t.response = [0x00#8] ∧ t.ps = .addressed ∧ t.dir = (if read then .read else .write) ∧
          t.line.busOpen = s.line.busOpen ∧
          t.line.mode =
            (if s.line.busOpen = true ∧ addr7 = s.cfg.chipAddr then (if read then .read else .wFirst) else .none) ∧
          t.line.events = s.line.events ++ [.action (.address (addressByte s.cfg addr7 read))]) ∧
      (hs.cls = (if read then .slaRNack else .slaWNack) →
        t.response = [hs.code.byte] ∧ t.ps = .idle ∧ t.dir = .none ∧ LinesClosed t ∧
          t.line.events = s.line.events ++ [.action (.address (addressByte s.cfg addr7 read)), .stop]) ∧
      ((hs.cls ≠ (if read then .slaRAck else .slaWAck) ∧ hs.cls ≠ (if read then .slaRNack else .slaWNack)) →
        t.response = [hs.code.byte] ∧ t.ps = .idle ∧ t.dir = .none ∧ LinesClosed t ∧
          t.line.events = s.line.events ++ [.action (.address (addressByte s.cfg addr7 read)), .release])

/-- R156, R152, R53, R54: SEND_BYTE for every class and raw code it can be answered with. An acknowledged byte is the chip's pointer when
it is the first of a write transaction, is stored at the pointer when it is a later one, and is not the chip's otherwise; a
byte that is not acknowledged changes neither map nor pointer. That no transaction is open after a lock recovery is the
model's choice (log 28). -/
def Obligations.SendByteOutcome : Prop :=
  ∀ (s : State) (b : Byte) (hs : HwStatus), configValid s.cfg = true → memWf s.line.rm = true →
    reply s.cfg s.line (.tx b) = some hs → s.line.answers.tail.headD .asChip ≠ .never →
    ∃ t, exec (.sendByte b) s = .next t ∧ CallFrame s t ∧ t.tstat = hs ∧ t.freeIndex = s.freeIndex ∧
      (hs.cls = .txAck →
        t.response = [0x00#8] ∧ t.ps = .data ∧ t.dir = s.dir ∧ t.line.busOpen = s.line.busOpen ∧
          t.line.mode = (if s.line.mode = .wFirst then .wData else s.line.mode) ∧
          t.line.events = s.line.events ++ [.action (.tx b)] ∧
          (s.line.mode = .wFirst → MapKept s t ∧ t.line.rp = b) ∧
          (s.line.mode = .wData →
            readMem t.line.rm s.line.rp.toNat = b ∧ MapKeptBut [s.line.rp.toNat] s t ∧ t.line.rp = s.line.rp + 1#8) ∧
          (s.line.mode ≠ .wFirst → s.line.mode ≠ .wData → ChipKept s t)) ∧
      (hs.cls = .txNack →
        t.response = [hs.code.byte] ∧ t.ps = .idle ∧ t.dir = .none ∧ ChipKept s t ∧ LinesClosed t ∧
          t.line.events = s.line.events ++ [.action (.tx b), .stop]) ∧
      ((hs.cls ≠ .txAck ∧ hs.cls ≠ .txNack) →
        t.response = [hs.code.byte] ∧ t.ps = .idle ∧ t.dir = .none ∧ ChipKept s t ∧ LinesClosed t ∧
          t.line.events = s.line.events ++ [.action (.tx b), .release])

/-- R157, R152, R53: RECEIVE_BYTE for every class and raw code it can be answered with. A byte received from the chip is the byte its map
holds at the pointer, which advances; on a fault the byte returned is the free value, and the map and the pointer stay. That
no transaction is open after a lock recovery is the model's choice (log 28), as is that the pointer stays when a receive in a
read of the chip ends in a fault (log 33), and that the chip sends one byte in a read, so that a second receive in it is not the
chip's (log 34). -/
def Obligations.ReceiveByteOutcome : Prop :=
  ∀ (s : State) (hs : HwStatus), configValid s.cfg = true → memWf s.line.rm = true →
    reply s.cfg s.line .rx = some hs → s.line.answers.tail.headD .asChip ≠ .never →
    ∃ t, exec .receiveByte s = .next t ∧ CallFrame s t ∧ t.tstat = hs ∧
      (∀ v, hs.cls = .rxDone v →
        t.response = [v, 0x00#8] ∧ t.ps = .data ∧ t.dir = s.dir ∧ t.freeIndex = s.freeIndex ∧
          t.line.busOpen = s.line.busOpen ∧ t.line.mode = (if s.line.mode = .read then .none else s.line.mode) ∧
          t.line.events = s.line.events ++ [.action .rx] ∧
          (s.line.mode = .read →
            readMem t.line.rm s.line.rp.toNat = v ∧ MapKeptBut [s.line.rp.toNat] s t ∧ t.line.rp = s.line.rp + 1#8) ∧
          (s.line.mode ≠ .read → ChipKept s t)) ∧
      (hs.cls = .rxNack →
        t.response = [Config.anyByte s.freeIndex, hs.code.byte] ∧ t.ps = .idle ∧ t.dir = .none ∧
          t.freeIndex = s.freeIndex + 1 ∧ ChipKept s t ∧ LinesClosed t ∧
          t.line.events = s.line.events ++ [.action .rx, .stop]) ∧
      (((∀ v, hs.cls ≠ .rxDone v) ∧ hs.cls ≠ .rxNack) →
        t.response = [Config.anyByte s.freeIndex, hs.code.byte] ∧ t.ps = .idle ∧ t.dir = .none ∧
          t.freeIndex = s.freeIndex + 1 ∧ ChipKept s t ∧ LinesClosed t ∧
          t.line.events = s.line.events ++ [.action .rx, .release])

/-- R158: STOP, from any protocol state, when the environment confirms; the recorded status class stays. -/
def Obligations.StopOutcome : Prop :=
  ∀ (s : State), configValid s.cfg = true → nextAnswer s.line ≠ .never →
    ∃ t, exec .stop s = .next t ∧ CallFrame s t ∧ ChipKept s t ∧ LinesClosed t ∧ t.response = [] ∧ t.ps = .idle ∧
      t.dir = .none ∧ t.tstat = s.tstat ∧ t.freeIndex = s.freeIndex ∧ t.line.events = s.line.events ++ [.stop]

/-- R238, R24: a transport operation whose action is never answered has no next state. It is stuck with the action on the
lines and `wait` naming it, everything else as before (STOP also with `ps` = STOPPED and `dir` = NONE, R158), and from that
state there is no step either. -/
def Obligations.UnansweredActionHangs : Prop :=
  ∀ (s : State), configValid s.cfg = true → nextAnswer s.line = .never →
    (exec .start s = .fault (.hang { s with wait := .start, line := emit (.action .start) s.line })) ∧
    (∀ addr7 read, exec (.sendAddress addr7 read) s =
      .fault (.hang { s with
        wait := .address, line := emit (.action (.address (addressByte s.cfg addr7 read))) s.line })) ∧
    (∀ b, exec (.sendByte b) s = .fault (.hang { s with wait := .tx, line := emit (.action (.tx b)) s.line })) ∧
    (exec .receiveByte s = .fault (.hang { s with wait := .rx, line := emit (.action .rx) s.line })) ∧
    (exec .stop s =
      .fault (.hang { s with ps := .stopped, dir := .none, wait := .stop, line := emit .stop s.line })) ∧
    (∀ i u, exec i s = .fault (.hang u) → step u = .fault (.hang u))

/-- R155 to R157, R238: when the stop that SEND_ADDRESS, SEND_BYTE or RECEIVE_BYTE sends after a NACK is never confirmed, the
operation has no next state: it is stuck in `ps` = STOPPED with the stop pending, the NACK and its raw code in `tstat`. -/
def Obligations.UnansweredStopAfterNackHangs : Prop :=
  ∀ (s : State) (hs : HwStatus), configValid s.cfg = true → s.line.answers.tail.headD .asChip = .never →
    (∀ addr7 read, reply s.cfg s.line (.address (addressByte s.cfg addr7 read)) = some hs →
        hs.cls = (if read then .slaRNack else .slaWNack) →
      ∃ u, exec (.sendAddress addr7 read) s = .fault (.hang u) ∧ u.ps = .stopped ∧ u.dir = .none ∧ u.wait = .stop ∧
        u.tstat = hs ∧ u.line.events = s.line.events ++ [.action (.address (addressByte s.cfg addr7 read)), .stop]) ∧
    (∀ b, reply s.cfg s.line (.tx b) = some hs → hs.cls = .txNack →
      ∃ u, exec (.sendByte b) s = .fault (.hang u) ∧ u.ps = .stopped ∧ u.dir = .none ∧ u.wait = .stop ∧
        u.tstat = hs ∧ u.line.events = s.line.events ++ [.action (.tx b), .stop]) ∧
    (reply s.cfg s.line .rx = some hs → hs.cls = .rxNack →
      ∃ u, exec .receiveByte s = .fault (.hang u) ∧ u.ps = .stopped ∧ u.dir = .none ∧ u.wait = .stop ∧
        u.tstat = hs ∧ u.line.events = s.line.events ++ [.action .rx, .stop])

/-- R162: what the block guarantees about its own state after any transport operation returns. -/
def Obligations.TransportGuarantees : Prop :=
  (∀ s st t, callStart s = .done st t →
    t.wait = .none ∧ (st = .ok → t.ps = .started) ∧
      (∀ cause hs, st = .fault cause hs →
        (cause = .arbitrationLoss ∧ t.ps = .idle) ∨ (cause = .protocolViolation ∧ t.ps = s.ps))) ∧
  (∀ addr7 read s st t, callAddress addr7 read s = .done st t →
    t.wait = .none ∧ (st = .ok → t.ps = .addressed) ∧
      (∀ cause hs, st = .fault cause hs → (cause = .nack ∨ cause = .busFault) ∧ t.ps = .idle)) ∧
  (∀ b s st t, callSend b s = .done st t →
    t.wait = .none ∧ (st = .ok → t.ps = .data) ∧
      (∀ cause hs, st = .fault cause hs → (cause = .nack ∨ cause = .busFault) ∧ t.ps = .idle)) ∧
  (∀ s v st t, callReceive s = .done (v, st) t →
    t.wait = .none ∧ (st = .ok → t.ps = .data) ∧
      (∀ cause hs, st = .fault cause hs → (cause = .nack ∨ cause = .busFault) ∧ t.ps = .idle)) ∧
  (∀ s t, callStop s = .done () t → t.wait = .none ∧ t.ps = .idle) ∧
  (∀ s, (lockRecovery s).wait = .none ∧ (lockRecovery s).ps = .idle) ∧
  (∀ s hs, s.ps = .idle → (hs.cls = .start ∨ hs.cls = .repStart) → reply s.cfg s.line .start = some hs →
    ∃ t, callStart s = .done .ok t ∧ t.ps = .started)

/-- R78: the address byte, field by field, and that it is what SEND_ADDRESS puts on the bus. -/
def Obligations.AddressByteOnTheBus : Prop :=
  ∀ (s : State) (addr7 : BitVec 7) (read : Bool),
    (s.cfg.rwReadValue = true →
      (addressByte s.cfg addr7 read).toNat = addr7.toNat * 2 + (if read then 1 else 0) ∧
      (addressByte s.cfg addr7 read).getLsbD 0 = read) ∧
    (addressByte s.cfg addr7 read).extractLsb' 1 7 = addr7 ∧
    (addressByte s.cfg addr7 read).getLsbD 0 = (read == s.cfg.rwReadValue) ∧
    (configValid s.cfg = true → Responsive s →
      ∃ t, exec (.sendAddress addr7 read) s = .next t ∧
        s.line.events ++ [.action (.address (addressByte s.cfg addr7 read))] <+: t.line.events)

/-- R233, V7, P3: after an arbitration loss in any phase of a transaction, at the start or on an address or a data byte, the
very next transaction completes with no other call, the plain chip answering from then on; and a WRITE_BULK that loses
arbitration at any of its actions stores all its bytes when it is repeated. That the pointer stays when the loss is on a
receive is the model's choice (log 33). -/
def Obligations.RecoveryThenTransaction : Prop :=
  ∀ (s : State) (lost : RawCode) (data : Byte), configValid s.cfg = true → memWf s.line.rm = true → ChipSpeaks s.cfg →
    classOf s.cfg.statusCodes lost = .arbLost →
    (∀ i, (i = .start ∨ (∃ addr7 read, i = .sendAddress addr7 read) ∨ (∃ b, i = .sendByte b) ∨ i = .receiveByte) →
      s.line.answers = [.status lost data] →
      ∃ t, exec i s = .next t ∧ t.response.getLast? = some lost.byte ∧ t.ps = .idle ∧ t.dir = .none ∧
        t.wait = .none ∧ LinesClosed t ∧ ChipKept s t ∧
        (∃ u, exec .start t = .next u ∧ u.response = [0x00#8] ∧ u.ps = .started) ∧
        (∀ addr, ∃ u, exec (.readReg addr) t = .next u ∧ u.response = [readMem s.line.rm addr.toNat, 0x00#8]) ∧
        (∀ addr values, values ≠ [] → values.length ≤ 255 →
          ∃ u, exec (.writeBulk addr values) t = .next u ∧ u.response = [0x00#8] ∧ TransportIdle u ∧
            (∀ j (h : j < values.length), readMem u.line.rm ((addr.toNat + j) % 256) = values[j]) ∧
            MapKeptBut (addrsFrom addr values.length) s u)) ∧
    (∀ addr values k, values ≠ [] → values.length ≤ 255 → k < 3 + values.length →
      s.line.answers = List.replicate k .asChip ++ [.status lost data] →
      ∃ t u, exec (.writeBulk addr values) s = .next t ∧ t.response = [0x01#8] ∧ t.ps = .idle ∧
        exec (.writeBulk addr values) t = .next u ∧ u.response = [0x00#8] ∧
        (∀ j (h : j < values.length), readMem u.line.rm ((addr.toNat + j) % 256) = values[j]) ∧
        MapKeptBut (addrsFrom addr values.length) s u)

/-- R89, R153: the status byte is 0 exactly for success. Every status the environment answers is a pair of a class and a raw
code of that class, so that no raw code belongs to two classes; it may be any raw code; and a call that faults leaves that very
pair in its status and in `tstat`. -/
def Obligations.StatusIsClassAndRawCode : Prop :=
  (∀ (st : Status), statusByte st = 0x00#8 ↔ st = .ok) ∧
  (∀ (c : Config) (l : LineEnv) (a : BusAction) (hs : HwStatus), reply c l a = some hs →
    classOf c.statusCodes hs.code = hs.cls.name ∧
    ∀ (m : LineEnv) (b : BusAction) (hs' : HwStatus), reply c m b = some hs' → hs'.code.byte = hs.code.byte →
      hs'.cls.name = hs.cls.name) ∧
  (∀ (c : Config) (l : LineEnv) (a : BusAction) (code : RawCode) (data : Byte), nextAnswer l = .status code data →
    ∃ hs, reply c l a = some hs ∧ hs.code = code ∧ (∀ v, hs.cls = .rxDone v → v = data)) ∧
  (∀ s cause hs t, callStart s = .done (.fault cause hs) t → reply s.cfg s.line .start = some hs ∧ t.tstat = hs) ∧
  (∀ addr7 read s cause hs t, callAddress addr7 read s = .done (.fault cause hs) t →
    reply s.cfg s.line (.address (addressByte s.cfg addr7 read)) = some hs ∧ t.tstat = hs) ∧
  (∀ b s cause hs t, callSend b s = .done (.fault cause hs) t → reply s.cfg s.line (.tx b) = some hs ∧ t.tstat = hs) ∧
  (∀ s v cause hs t, callReceive s = .done (v, .fault cause hs) t → reply s.cfg s.line .rx = some hs ∧ t.tstat = hs)

/-! ### Register Access Layer -/

/-- R187 (a), R180 (d): when the environment answers every action, every operation of the layer returns, with the transport
idle, the mirrors as they were, and `ra_fault` as the last byte of its response. -/
def Obligations.RegisterOperationsReturn : Prop :=
  ∀ (s : State), configValid s.cfg = true → Responsive s →
    (∀ addr, ∃ v t, exec (.readReg addr) s = .next t ∧ t.response = [v, boolByte t.raFault] ∧ LayerFrame s t) ∧
    (∀ addr value, ∃ t, exec (.writeReg addr value) s = .next t ∧ t.response = [boolByte t.raFault] ∧ LayerFrame s t) ∧
    (∀ addr values, values ≠ [] →
      ∃ t, exec (.writeBulk addr values) s = .next t ∧ t.response = [boolByte t.raFault] ∧ LayerFrame s t) ∧
    (∀ addr mask value,
      ∃ t, exec (.updateReg addr mask value) s = .next t ∧ t.response = [boolByte t.raFault] ∧ LayerFrame s t) ∧
    (∀ addr, exec (.writeBulk addr []) s = .refused .emptyValues)

/-- R180 (b), (c), R186: whatever the statuses, an operation of the layer issues exactly the bus actions of its list, in order:
it never skips, repeats or reorders one and never ends early, and the last thing it puts on the lines is the closing stop.
UPDATE_REG puts on the lines all that READ_REG from the same state does, then the write of the merge of the byte it returns. -/
def Obligations.EveryCallIssuedWhateverTheStatus : Prop :=
  ∀ (s t : State),
    (∀ addr, exec (.readReg addr) s = .next t →
      busActions t.line.events = busActions s.line.events ++ busActions (readFrame s.cfg addr) ∧
        t.line.events.getLast? = some .stop) ∧
    (∀ addr value, exec (.writeReg addr value) s = .next t →
      busActions t.line.events = busActions s.line.events ++ busActions (writeFrame s.cfg addr [value]) ∧
        t.line.events.getLast? = some .stop) ∧
    (∀ addr values, exec (.writeBulk addr values) s = .next t →
      busActions t.line.events = busActions s.line.events ++ busActions (writeFrame s.cfg addr values) ∧
        t.line.events.getLast? = some .stop) ∧
    (∀ addr mask value, exec (.updateReg addr mask value) s = .next t →
      ∃ old u, exec (.readReg addr) s = .next u ∧ u.response = [old, boolByte u.raFault] ∧
        busActions t.line.events = busActions s.line.events ++ busActions (readFrame s.cfg addr) ++
        busActions (writeFrame s.cfg addr [(old &&& ~~~mask) ||| (value &&& mask)]) ∧
        u.line.events <+: t.line.events ∧ t.line.events.getLast? = some .stop)

/-- R180 (c), R187 (b), (d), R186: a list of calls latches in `ra_fault` the OR of the faults of all its calls, and advances
`seq` by one for each of them; and `ra_fault` and the last response byte of each operation are the OR of the faults of all its
calls, the receive included, for UPDATE_REG of those of its read and its write. -/
def Obligations.FaultLatchIsOrOfStatuses : Prop :=
  (∀ (cs : List TransportCall) (s t : State), runCalls cs s = .done () t →
    (callStatuses cs s).length = cs.length ∧
      t.raFault = (s.raFault || (callStatuses cs s).any (· != .ok)) ∧
      t.seq = s.seq.map (· + cs.length)) ∧
  ∀ (s t : State),
    (∀ addr, exec (.readReg addr) s = .next t →
      (readStatuses addr s).length = 7 ∧ t.raFault = (readStatuses addr s).any (· != .ok) ∧
        ∃ v, t.response = [v, boolByte t.raFault]) ∧
    (∀ addr value, exec (.writeReg addr value) s = .next t →
      (writeStatuses addr [value] s).length = 5 ∧ t.raFault = (writeStatuses addr [value] s).any (· != .ok) ∧
        t.response = [boolByte t.raFault]) ∧
    (∀ addr values, exec (.writeBulk addr values) s = .next t →
      (writeStatuses addr values s).length = 4 + values.length ∧
        t.raFault = (writeStatuses addr values s).any (· != .ok) ∧ t.response = [boolByte t.raFault]) ∧
    (∀ addr mask value, exec (.updateReg addr mask value) s = .next t →
      ∃ old u, exec (.readReg addr) s = .next u ∧ u.response = [old, boolByte u.raFault] ∧
        t.raFault = ((readStatuses addr s).any (· != .ok) ||
          (writeStatuses addr [(old &&& ~~~mask) ||| (value &&& mask)] u).any (· != .ok)) ∧
        t.response = [boolByte t.raFault])

/-- R186: whatever the environment does, UPDATE_REG is READ_REG and then WRITE_REG of the merged byte, in this order, with the
OR of their two results: it has a next state exactly when both have one. -/
def Obligations.UpdateIsReadThenWrite : Prop :=
  ∀ (s t : State) (addr mask value : Byte),
    exec (.updateReg addr mask value) s = .next t ↔
      ∃ old u w, exec (.readReg addr) s = .next u ∧ u.response = [old, boolByte u.raFault] ∧
        exec (.writeReg addr ((old &&& ~~~mask) ||| (value &&& mask))) u = .next w ∧
        t = { w with raFault := u.raFault || w.raFault, response := [boolByte (u.raFault || w.raFault)] }

/-- R238: every operation that contains a bus action or a stop which is never answered never returns. An operation makes the
number of calls that R187 (b) and R211 say, each of which uses at least one answer, so one of the first so many answers that is
`never` is reached, whatever the others are. The model's form of the hang is log 8. -/
def Obligations.OperationsHangWithTheirCalls : Prop :=
  ∀ (s : State) (k : Nat), configValid s.cfg = true → s.line.answers[k]? = some .never →
    (∀ addr, k < 7 → StuckFrom s (exec (.readReg addr) s)) ∧
    (∀ addr value, k < 5 → StuckFrom s (exec (.writeReg addr value) s)) ∧
    (∀ addr values, values ≠ [] → k < 4 + values.length → StuckFrom s (exec (.writeBulk addr values) s)) ∧
    (∀ addr mask value, k < 12 → StuckFrom s (exec (.updateReg addr mask value) s)) ∧
    (∀ pa pb, planPll s.cfg s.cfg.pllBringupX100 s.cfg.xtalFreqX100 s.pllA.correctionPpb.toInt = .ok pa →
      planPll s.cfg s.cfg.pllBringupX100 s.cfg.xtalFreqX100 s.pllB.correctionPpb.toInt = .ok pb →
      k < 5 * (s.cfg.regDisableState.length + s.cfg.regVcxo.length + 3) + 60 → StuckFrom s (exec .initializeAll s)) ∧
    (s.inited = true →
      (∀ i freq p,
        planMultisynth s.cfg (selectRDivider s.cfg (BitVec.toNat freq)).2
          (pllOf s (chOf s i).assignedPll).frequency.toNat true = .ok p →
        k < 36 → StuckFrom s (exec (.setFrequency i freq) s)) ∧
      (∀ freq x p, planPll s.cfg (BitVec.toNat freq) s.cfg.xtalFreqX100 (pllOf s x).correctionPpb.toInt = .ok p →
        k < 12 → StuckFrom s (exec (.setPll freq x) s)) ∧
      (∀ ppb pa pb, planPll s.cfg s.pllA.frequency.toNat s.cfg.xtalFreqX100 (BitVec.toInt ppb) = .ok pa →
        planPll s.cfg s.pllB.frequency.toNat s.cfg.xtalFreqX100 ppb.toInt = .ok pb →
        k < 24 → StuckFrom s (exec (.setCorrection ppb .crystal) s)) ∧
      (∀ i enable, k < 12 → StuckFrom s (exec (.outputEnable i enable) s)) ∧
      (∀ i level, k < 12 → StuckFrom s (exec (.driveStrength i level) s)) ∧
      (∀ i on, k < 12 → StuckFrom s (exec (.setClockPower i on) s)) ∧
      (k < 27 → StuckFrom s (exec .powerDown s)) ∧
      (∀ i x, k < 12 → StuckFrom s (exec (.setPllAssignment i x) s)))

/-- R183, R184, R53, R79 on the plain chip: WRITE_BULK (and WRITE_REG, which is the same transaction with one value) puts its
frame on the lines, stores the bytes from `addr` upward modulo 256 and nothing else, and leaves the pointer after the last. -/
def Obligations.WriteStoresTheBytes : Prop :=
  ∀ (s : State), configValid s.cfg = true → PlainChip s → memWf s.line.rm = true →
    (∀ addr values, values ≠ [] → values.length ≤ 255 →
      ∃ t, exec (.writeBulk addr values) s = .next t ∧ t.response = [0x00#8] ∧ t.raFault = false ∧ LayerFrame s t ∧
        (∀ i (h : i < values.length), readMem t.line.rm ((addr.toNat + i) % 256) = values[i]) ∧
        MapKeptBut (addrsFrom addr values.length) s t ∧
        t.line.rp = addr + BitVec.ofNat 8 values.length ∧
        t.line.events = s.line.events ++ writeFrame s.cfg addr values) ∧
    (∀ addr value, exec (.writeReg addr value) s = exec (.writeBulk addr [value]) s)

/-- R181, R182, R53: what READ_REG returns. For every environment: with `ra_fault` 0 the byte received, which is the byte the
map holds at `addr`, no other byte changed; with `ra_fault` 1 a free byte (log 29). On the plain chip it puts its frame (R79) on
the lines and returns the byte the map holds at `addr`; the map stays and the pointer is left after `addr`. -/
def Obligations.ReadReturnsTheByte : Prop :=
  (∀ (s t : State) (addr : Byte), memWf s.line.rm = true → exec (.readReg addr) s = .next t →
    (t.raFault = false →
      t.response = [readMem t.line.rm addr.toNat, 0x00#8] ∧ t.tstat.cls = .rxDone (readMem t.line.rm addr.toNat) ∧
        t.freeIndex = s.freeIndex ∧ MapKeptBut [addr.toNat] s t ∧ t.line.rp = addr + 1#8) ∧
    (t.raFault = true → t.response = [Config.anyByte s.freeIndex, 0x01#8] ∧ t.freeIndex = s.freeIndex + 1)) ∧
  ∀ (s : State) (addr : Byte), configValid s.cfg = true → PlainChip s → memWf s.line.rm = true →
    ∃ t, exec (.readReg addr) s = .next t ∧ t.response = [readMem s.line.rm addr.toNat, 0x00#8] ∧ t.raFault = false ∧
      LayerFrame s t ∧ MapKept s t ∧ t.line.rp = addr + 1#8 ∧ t.line.events = s.line.events ++ readFrame s.cfg addr

/-- R186 on the plain chip: UPDATE_REG reads and then writes `addr`: each bit where `mask` is 1 becomes the bit of `value`,
each other bit is written back as read, and no other byte changes. -/
def Obligations.UpdateChangesTheMaskedBits : Prop :=
  ∀ (s : State) (addr mask value : Byte), configValid s.cfg = true → PlainChip s → memWf s.line.rm = true →
    ∃ t new, exec (.updateReg addr mask value) s = .next t ∧ t.response = [0x00#8] ∧ t.raFault = false ∧ LayerFrame s t ∧
      readMem t.line.rm addr.toNat = new ∧
      (∀ j, j < 8 → new.getLsbD j =
        (if mask.getLsbD j then value.getLsbD j else (readMem s.line.rm addr.toNat).getLsbD j)) ∧
      MapKeptBut [addr.toNat] s t ∧
      t.line.events = s.line.events ++ readFrame s.cfg addr ++ writeFrame s.cfg addr [new]

/-- R187 (c), R61 (d): on the plain chip, a write followed by a read of any address it wrote returns the written byte and no
fault. -/
def Obligations.WriteThenReadReturnsTheByte : Prop :=
  ∀ (s : State) (addr : Byte) (values : List Byte) (i : Nat) (h : i < values.length),
    configValid s.cfg = true → PlainChip s → memWf s.line.rm = true → values.length ≤ 255 →
    ∃ t u, exec (.writeBulk addr values) s = .next t ∧
      exec (.readReg (addr + BitVec.ofNat 8 i)) t = .next u ∧ u.response = [values[i], 0x00#8]

/-- R54, R183, R184: when action `k` of a WRITE_BULK (0 the start, 1 the address, 2 the register address, then the values) is
answered with anything but its success, exactly the values before it are in the chip and nothing that follows in the operation
reaches it, whatever the later answers are; the operation still returns, with `ra_fault` 1. A fault at action 0, 1 or 2 leaves
map and pointer as they were. The actions before `k` are answered by the plain chip (log 7, log 9). -/
def Obligations.InterruptedWriteIsTorn : Prop :=
  ∀ (s : State) (addr : Byte) (values : List Byte) (k : Nat) (code : RawCode) (data : Byte)
      (later : List LineAnswer),
    let cls := classOf s.cfg.statusCodes code
    configValid s.cfg = true → ChipSpeaks s.cfg → memWf s.line.rm = true → values ≠ [] → values.length ≤ 255 → k < 3 + values.length →
    (k = 0 → cls ≠ .start ∧ cls ≠ .repStart) → (k = 1 → cls ≠ .slaWAck) → (2 ≤ k → cls ≠ .txAck) →
    .never ∉ later → s.line.answers = List.replicate k .asChip ++ .status code data :: later →
    ∃ t, exec (.writeBulk addr values) s = .next t ∧ t.response = [0x01#8] ∧ LayerFrame s t ∧
      (∀ i (h : i < values.length), 3 + i < k → readMem t.line.rm ((addr.toNat + i) % 256) = values[i]) ∧
      MapKeptBut (addrsFrom addr (k - 3)) s t ∧
      t.line.rp = (if k < 3 then s.line.rp else addr + BitVec.ofNat 8 (k - 3))

/-! ### Frequency Planner and field encoder -/

/-- R119: ENCODE_FIELDS on its domain, its refusal outside, and the worked example. -/
def Obligations.EncodeFieldsOperation : Prop :=
  (∀ (s : State) (a b c : U32), configValid s.cfg = true →
    (encode (.encodeFields a b c)).head? = some 0x22#8 ∧
    ((4 ≤ a.toNat ∧ a.toNat ≤ 2051 ∧ 1 ≤ c.toNat ∧ c.toNat ≤ 1048575 ∧ b.toNat < c.toNat) →
      128 * b.toNat / c.toNat ≤ 127 ∧ 512 ≤ 128 * a.toNat + 128 * b.toNat / c.toNat ∧
      128 * b.toNat - c.toNat * (128 * b.toNat / c.toNat) = 128 * b.toNat % c.toNat ∧
      exec (.encodeFields a b c) s = .next (respond
        (beBytes 3 (128 * a.toNat + 128 * b.toNat / c.toNat - 512) ++
          beBytes 3 (128 * b.toNat - c.toNat * (128 * b.toNat / c.toNat)) ++ beBytes 3 c.toNat) s)) ∧
    (¬ (4 ≤ a.toNat ∧ a.toNat ≤ 2051 ∧ 1 ≤ c.toNat ∧ c.toNat ≤ 1048575 ∧ b.toNat < c.toNat) →
      exec (.encodeFields a b c) s = .refused .encodeDomain)) ∧
  encodeFields 26 4938 1000000 = .ok { p1 := 2816#18, p2 := 632064#20, p3 := 1000000#20 } ∧
  encodeFields 4 0 1 = .ok { p1 := 0#18, p2 := 0#20, p3 := 1#20 }

/-- R120, R81: the exact identity of the packing, its inverse, and its bounds. -/
def Obligations.FieldIdentities : Prop :=
  (∀ (a b c : Nat), 4 ≤ a → a ≤ 2051 → 1 ≤ c → c ≤ 1048575 → b < c →
    ∃ f, encodeFields a b c = .ok f ∧
      -- (a)
      (f.p1.toNat + 512) * f.p3.toNat + f.p2.toNat = 128 * (a * c + b) ∧
      -- (b)
      f.p3.toNat = c ∧ 128 * b = (f.p1.toNat + 512) % 128 * c + f.p2.toNat ∧ a = (f.p1.toNat + 512) / 128 ∧
      (∀ a' b' c', encodeFields a' b' c' = .ok f → a' = a ∧ b' = b ∧ c' = c) ∧
      -- (d)
      f.p2.toNat ≤ c - 1 ∧ c - 1 ≤ 1048574 ∧ 1 ≤ f.p3.toNat ∧ f.p3.toNat ≤ 1048575) ∧
  -- (c)
  (∀ (a b c : Nat), 1 ≤ c → b < c →
    ((0 ≤ ((128 * a + 128 * b / c : Nat) : Int) - 512 ∧ ((128 * a + 128 * b / c : Nat) : Int) - 512 ≤ 262143) ↔
      4 ≤ a ∧ a ≤ 2051)) ∧
  ∃ f, encodeFields 2051 1048574 1048575 = .ok f ∧ f.p1.toNat = 262143

/-- R101 to R107, R125, with K9 of R8: PLAN_PLL computes from the corrected reference `ref1`, in this order, the VCO clamp, the
ratio and its clamp, the fraction, the fields and the achieved frequency, and answers with them; it is refused when `ref1` is
below 1 or the reference breaks K9, and it changes nothing but the response. -/
def Obligations.PlanPllOperation : Prop :=
  ∀ (s : State) (target reference : U64) (ppb : BitVec 32), configValid s.cfg = true →
    let product : Int := (reference.toNat : Int) * ppb.toInt
    let corrected : Int := reference.toNat +
      (if s.cfg.corrRounding = .towardZero then product.tdiv 1000000000 else product.fdiv 1000000000)
    (2 ^ 44 ≤ reference.toNat → exec (.planPll target reference ppb) s = .refused .referenceTooLarge) ∧
    (reference.toNat < 2 ^ 44 → corrected < 1 →
      exec (.planPll target reference ppb) s = .refused .correctedReference) ∧
    (∀ ref1 : Nat, reference.toNat < 2 ^ 44 → 1 ≤ ref1 → (ref1 : Int) = corrected →
      let t1 := bounded target.toNat (s.cfg.vcoMin * 100) (s.cfg.vcoMax * 100)
      let a := bounded (t1 / ref1) 15 90
      let t2 := if a = t1 / ref1 then t1 else ref1 * a
      let rem := t2 % ref1
      let c := if rem = 0 then 1 else 1000000
      let b := if rem = 0 then 0 else rem * 1000000 / ref1
      exec (.planPll target reference ppb) s =
        .next { s with response := plannerResponse a b c (ref1 * a + ref1 * b / c) })

/-- R108 (a) to (g), for every triple that is not refused and every configuration that meets K1. -/
def Obligations.PlanPllProperties : Prop :=
  ∀ (c : Config) (target reference : Nat) (ppb : Int) (p : PllPlan), ConstraintK1 c →
    planPll c target reference ppb = .ok p →
    let ref1 := (correctedReference c reference ppb).toNat
    -- (a)
    (15 ≤ p.a ∧ p.a ≤ 90 ∧ p.b ≤ 999999 ∧ (p.c = 1 ∨ p.c = 1000000) ∧ (p.c = 1 → p.b = 0)) ∧
    -- (b)
    (1408 ≤ p.fields.p1.toNat ∧ p.fields.p1.toNat ≤ 11135 ∧ p.fields.p2.toNat ≤ 999999 ∧
      (p.fields.p3.toNat = 1 ∨ p.fields.p3.toNat = 1000000)) ∧
    -- (c)
    (p.achieved ≤ p.target ∧ (p.target - p.achieved) * 1000000 < ref1 + 1000000) ∧
    -- (d)
    ((p.target % ref1 = 0 → p.achieved = p.target) ∧
      (p.a ≠ bounded target (c.vcoMin * 100) (c.vcoMax * 100) / ref1 → p.achieved = p.target)) ∧
    -- (e)
    p.achieved =
      ref1 * ((p.fields.p1.toNat + 512) * p.fields.p3.toNat + p.fields.p2.toNat) / (128 * p.fields.p3.toNat) ∧
    -- (f)
    (∀ reference' ppb' q, correctedReference c reference' ppb' = correctedReference c reference ppb →
      planPll c target reference' ppb' = .ok q → q = p) ∧
    -- (g)
    ((∀ target', bounded target' (c.vcoMin * 100) (c.vcoMax * 100) = bounded target (c.vcoMin * 100) (c.vcoMax * 100) →
        planPll c target' reference ppb = .ok p) ∧
      (c.vcoMin * 100 ≤ p.target → p.target ≤ c.vcoMax * 100 → planPll c p.target reference ppb = .ok p))

/-- R109 to R116, R125: PLAN_MULTISYNTH in its three modes, its refusal when `pll_freq` is too small (R114), and, for the one
result that could leave 64 bits (divide-by-4 in auto-size mode), the refusal of R122. It changes nothing but the response. -/
def Obligations.PlanMultisynthOperation : Prop :=
  ∀ (s : State) (target pll : U64), configValid s.cfg = true →
    let t1 := bounded target.toNat (s.cfg.multisynthMin * 100) (s.cfg.multisynthMax * 100)
    let d4 := s.cfg.divBy4Threshold * 100
    -- divide-by-4 mode
    (d4 ≤ t1 →
      exec (.planMultisynth target pll true) s =
        .next { s with response := plannerResponse 4 0 1 t1 ++ [0x01#8] } ∧
      (4 * t1 < 2 ^ 64 → exec (.planMultisynth target pll false) s =
        .next { s with response := plannerResponse 4 0 1 (4 * t1) ++ [0x01#8] }) ∧
      (2 ^ 64 ≤ 4 * t1 → exec (.planMultisynth target pll false) s = .refused .resultTooWide)) ∧
    -- auto-size mode
    (t1 < d4 →
      let a0 := s.cfg.vcoMax * 100 / t1
      let a := if a0 = 5 then 4 else if a0 = 7 then 6 else a0
      exec (.planMultisynth target pll false) s =
        .next { s with response := plannerResponse a 0 1 (a * t1) ++ [0x00#8] }) ∧
    -- fixed-PLL mode
    (t1 < d4 →
      let a := bounded (pll.toNat / t1) 6 1800
      let t2 := if a = pll.toNat / t1 then t1 else pll.toNat / a
      ((t2 = 0 ∨ pll.toNat / t2 ≠ a) → exec (.planMultisynth target pll true) s = .refused .pllFreqTooSmall) ∧
      ((t2 ≠ 0 ∧ pll.toNat / t2 = a) → exec (.planMultisynth target pll true) s =
        .next (respond (plannerResponse a (pll.toNat % t2 * 1000000 / t2) 1000000 t2 ++ [0x00#8]) s)))

/-- R117 (a) to (e), for operands not refused and a configuration meeting K1 to K5. -/
def Obligations.PlanMultisynthProperties : Prop :=
  ∀ (c : Config) (target pll : Nat) (fixedPll : Bool) (p : MsPlan),
    ConstraintK1 c → ConstraintK2 c → ConstraintsK3to5 c → planMultisynth c target pll fixedPll = .ok p →
    let t1 := bounded target (c.multisynthMin * 100) (c.multisynthMax * 100)
    -- (a)
    (p.divby4 = true → p.fields.p1.toNat = 0 ∧ p.fields.p2.toNat = 0 ∧ p.fields.p3.toNat = 1) ∧
    -- (b)
    (p.divby4 = false → fixedPll = false →
      ∃ a, 4 ≤ a ∧ a ≤ 2051 ∧ a ≠ 5 ∧ a ≠ 7 ∧ p.fields.p1.toNat = 128 * a - 512 ∧ p.fields.p2.toNat = 0 ∧
        p.fields.p3.toNat = 1 ∧ p.resulting = a * t1) ∧
    -- (c)
    (p.divby4 = false → fixedPll = true →
      ∃ a, 6 ≤ a ∧ a ≤ 1800 ∧ a = (p.fields.p1.toNat + 512) / 128 ∧ 256 ≤ p.fields.p1.toNat ∧
        p.fields.p1.toNat ≤ 230015 ∧ p.fields.p2.toNat ≤ 999999 ∧ p.fields.p3.toNat = 1000000) ∧
    -- (d)
    (p.fields.p1.toNat ≤ 262143 ∧ p.fields.p2.toNat ≤ 1048575 ∧ 1 ≤ p.fields.p3.toNat ∧
      p.fields.p3.toNat ≤ 1048575) ∧
    -- (e)
    (c.divBy4Threshold * 100 ≤ target →
      ∀ pll' fixedPll' q, planMultisynth c target pll' fixedPll' = .ok q → q.fields = p.fields)

/-- R102: under the spec's rounding, a correction of `+p` and one of `−p` ppb move the reference by the same amount in
opposite directions, and no correction leaves it as it is. -/
def Obligations.CorrectionIsSymmetric : Prop :=
  ∀ (c : Config) (reference : Nat) (ppb : Int), c.corrRounding = .towardZero →
    correctedReference c reference ppb - reference = -(correctedReference c reference (-ppb) - reference) ∧
    correctedReference c reference 0 = reference

/-- R32, R122: with K1, K2 and K6 every frequency that PLAN_PLL, SELECT_R_DIVIDER and, in every mode, PLAN_MULTISYNTH answer
fits the u64 port it is answered on. The refusal of a result too wide for the port (log 19) cannot occur in fixed-PLL mode for a
64-bit `pll_freq`, nor in auto-size mode: only in divide-by-4 mode without a fixed PLL. -/
def Obligations.PlannerResultsFitTheirPorts : Prop :=
  ∀ (c : Config), ConstraintK1 c → ConstraintK2 c → ConstraintK6 c →
    (∀ target reference (ppb : BitVec 32) p, planPll c target reference ppb.toInt = .ok p →
      p.achieved < 2 ^ 64 ∧ p.target < 2 ^ 64) ∧
    (∀ freq, freq < 2 ^ 64 → (selectRDivider c freq).2 < 2 ^ 64 ∧ (selectRDivider c freq).1 ≤ 7) ∧
    (∀ target pll fixedPll p, planMultisynth c target pll fixedPll = .ok p → p.resulting < 2 ^ 64) ∧
    (∀ target pll, pll < 2 ^ 64 → planMultisynth c target pll true = planMultisynthExact c target pll true) ∧
    (∀ target pll, bounded target (c.multisynthMin * 100) (c.multisynthMax * 100) < c.divBy4Threshold * 100 →
      planMultisynth c target pll false = planMultisynthExact c target pll false)

/-! ### R-Divider Selector -/

/-- R142 (R143 for a frequency below the lowest band): SELECT_R_DIVIDER answers the least exponent that lifts the frequency
to the direct range, 7 when none does, and the frequency scaled by it; nothing else changes. With the worked example. -/
def Obligations.SelectRDividerOperation : Prop :=
  (∀ (s : State) (freq : U64), configValid s.cfg = true →
    let m := s.cfg.clkoutMin * 100
    (encode (.selectRDivider freq)).head? = some 0x23#8 ∧
    ∃ k, k ≤ 7 ∧ freq.toNat * 2 ^ k < 2 ^ 64 ∧
      exec (.selectRDivider freq) s =
        .next { s with response := BitVec.ofNat 8 k :: beBytes 8 (freq.toNat * 2 ^ k) } ∧
      (128 * m ≤ freq.toNat → k = 0) ∧
      (m ≤ freq.toNat → freq.toNat < 128 * m →
        1 ≤ k ∧ 128 * m ≤ freq.toNat * 2 ^ k ∧ freq.toNat * 2 ^ (k - 1) < 128 * m) ∧
      (freq.toNat < m → k = 7)) ∧
  ∀ (c : Config), c.clkoutMin = 4000 → selectRDivider c 13750000 = (2, 55000000)

/-- R144 (a) to (d). -/
def Obligations.SelectRDividerProperties : Prop :=
  ∀ (c : Config),
    (∀ freq,
      -- (a)
      ((selectRDivider c freq).1 = 0 ↔ 128 * (c.clkoutMin * 100) ≤ freq) ∧
      ((selectRDivider c freq).1 = 0 → (selectRDivider c freq).2 = freq) ∧
      -- (b)
      (selectRDivider c freq).2 = freq * 2 ^ (selectRDivider c freq).1 ∧
      -- (c)
      (c.clkoutMin * 100 ≤ freq →
        128 * (c.clkoutMin * 100) ≤ (selectRDivider c freq).2 ∧
          selectRDivider c (selectRDivider c freq).2 = (0, (selectRDivider c freq).2)) ∧
      (freq < c.clkoutMin * 100 →
        (selectRDivider c freq).2 < 128 * (c.clkoutMin * 100) ∧
          (selectRDivider c (selectRDivider c freq).2).1 ≠ 0)) ∧
    -- (d)
    (∀ f g, f ≤ g → (selectRDivider c g).1 ≤ (selectRDivider c f).1)

/-! ### Synthesizer Controller -/

/-- R195: every controller operation but INITIALIZE is refused while `inited` is false. -/
def Obligations.ControllerRefusedBeforeInitialize : Prop :=
  ∀ (s : State), configValid s.cfg = true → s.inited = false →
    (∀ ch f, exec (.setFrequency ch f) s = .refused .notInitialized) ∧
    (∀ f x, exec (.setPll f x) s = .refused .notInitialized) ∧
    (∀ ppb r, exec (.setCorrection ppb r) s = .refused .notInitialized) ∧
    (∀ ch b, exec (.outputEnable ch b) s = .refused .notInitialized) ∧
    (∀ ch l, exec (.driveStrength ch l) s = .refused .notInitialized) ∧
    (∀ ch b, exec (.setClockPower ch b) s = .refused .notInitialized) ∧
    exec .powerDown s = .refused .notInitialized ∧
    (∀ ch x, exec (.setPllAssignment ch x) s = .refused .notInitialized)

/-- R8, R59, R262 (1), R239: every operation is refused exactly when the configuration breaks one of K1 to K6, K7 for the
uncorrected crystal, K8 for the VCO range, K9 for the crystal, or overlaps two map entries. How K7 and K8 bind a
configuration is the model's reading (log 4, log 5). -/
def Obligations.InvalidConfigurationRefused : Prop :=
  ∀ (i : Instr) (s : State),
    exec i s = .refused .badConfig ↔
      ¬ (ConstraintK1 s.cfg ∧ ConstraintK2 s.cfg ∧ ConstraintsK3to5 s.cfg ∧ ConstraintK6 s.cfg ∧ CrystalReaches s.cfg ∧
        ConstraintK8 s.cfg ∧ CrystalSmall s.cfg ∧ EntriesApart s.cfg)

/-- R198, R38: INITIALIZE returns when the environment answers, whatever it answers, for stored corrections that R102
allows; both PLL mirrors hold the clamped bring-up
target under their stored correction, which stays; every channel record is as `initialize` creates it, with its drive
strength as before; `inited` is true. `enabled` follows D34's parameter OE_ACTIVE_LOW, which is R198's bit test for its default
and the model's choice otherwise (log 21). -/
def Obligations.InitializeOutcome : Prop :=
  ∀ (s : State) (ra rb : Nat), configValid s.cfg = true → Responsive s →
    1 ≤ ra → (ra : Int) = correctedCrystal s.cfg s.pllA.correctionPpb →
    1 ≤ rb → (rb : Int) = correctedCrystal s.cfg s.pllB.correctionPpb →
    ∃ t, exec .initializeAll s = .next t ∧ t.response = [] ∧ t.inited = true ∧ t.cfg = s.cfg ∧ t.command = s.command ∧
      TransportIdle t ∧ LinesClosed t ∧
      (∀ x, (pllOf t x).correctionPpb = (pllOf s x).correctionPpb) ∧
      t.pllA.frequency.toNat = clampedTarget s.cfg s.cfg.pllBringupX100 ra ∧
      t.pllB.frequency.toNat = clampedTarget s.cfg s.cfg.pllBringupX100 rb ∧
      ∀ i, chOf t i = { chOf s i with
        assignedPll := .a, integerMode := false, rDividerExponent := 0#3,
        enabled := (s.cfg.oeMaskInit.getLsbD (channelNumber i) != s.cfg.oeActiveLow) }

/-- R198 on the plain chip: what INITIALIZE leaves in every register it writes, and that every other byte is as before. The
fields of a PLL block are those of the plan for the bring-up frequency. -/
def Obligations.InitializeProgramsTheChip : Prop :=
  ∀ (s : State) (pa pb : PllPlan), configValid s.cfg = true → PlainChip s → memWf s.line.rm = true →
    planPll s.cfg s.cfg.pllBringupX100 s.cfg.xtalFreqX100 s.pllA.correctionPpb.toInt = .ok pa →
    planPll s.cfg s.cfg.pllBringupX100 s.cfg.xtalFreqX100 s.pllB.correctionPpb.toInt = .ok pb →
    ∃ t, exec .initializeAll s = .next t ∧ t.raFault = false ∧
      readMem t.line.rm s.cfg.regXtalLoad.toNat = s.cfg.xtalLoadValue ∧
      (∀ a ∈ s.cfg.regDisableState, readMem t.line.rm a.toNat = s.cfg.disableStateValue) ∧
      readMem t.line.rm s.cfg.regOutputEnable.toNat = s.cfg.oeMaskInit ∧
      (∀ j (h : j < 8), readMem t.line.rm ((s.cfg.regPllParamsA.toNat + j) % 256) = (ser8 pa.fields 0#3 0#2)[j]'h) ∧
      (∀ j (h : j < 8), readMem t.line.rm ((s.cfg.regPllParamsB.toNat + j) % 256) = (ser8 pb.fields 0#3 0#2)[j]'h) ∧
      (∀ i j, j < 8 → (readMem t.line.rm (clkCtrlAddr s.cfg i).toNat).getLsbD j =
        (if j = s.cfg.ccInt.val ∨ j = s.cfg.ccPllSel.val then false
         else (readMem s.line.rm (clkCtrlAddr s.cfg i).toNat).getLsbD j)) ∧
      (∀ a ∈ s.cfg.regVcxo, readMem t.line.rm a.toNat = 0x00#8) ∧
      (∀ j, j < 8 → (readMem t.line.rm s.cfg.regPllReset.toNat).getLsbD j =
        (j = s.cfg.rstA.val ∨ j = s.cfg.rstB.val)) ∧
      MapKeptBut
        ([s.cfg.regXtalLoad.toNat, s.cfg.regOutputEnable.toNat, s.cfg.regPllReset.toNat,
          s.cfg.regClkCtrl0.toNat, s.cfg.regClkCtrl1.toNat, s.cfg.regClkCtrl2.toNat]
          ++ s.cfg.regDisableState.map BitVec.toNat ++ s.cfg.regVcxo.map BitVec.toNat
          ++ addrsFrom s.cfg.regPllParamsA 8 ++ addrsFrom s.cfg.regPllParamsB 8) s t

/-- R200, R201, R114: SET_FREQUENCY returns when the environment answers, whatever it answers, for a stored PLL frequency that
meets K8; the channel's R-divider exponent is the selector's, its integer-mode mirror follows the policy of D21 (R201: true
exactly in divide-by-4 mode), and no other mirror changes. -/
def Obligations.SetFrequencyOutcome : Prop :=
  ∀ (s : State) (i : Channel) (freq : U64), configValid s.cfg = true → s.inited = true → Responsive s →
    3240000 ≤ (pllOf s (chOf s i).assignedPll).frequency.toNat →
    let r := selectRDivider s.cfg freq.toNat
    let t1 := bounded r.2 (s.cfg.multisynthMin * 100) (s.cfg.multisynthMax * 100)
    ∃ t p, exec (.setFrequency i freq) s = .next t ∧
      planMultisynth s.cfg r.2 (pllOf s (chOf s i).assignedPll).frequency.toNat true = .ok p ∧
      t.response = [] ∧ t.command = s.command ∧ TransportIdle t ∧ LinesClosed t ∧
      t.cfg = s.cfg ∧ t.inited = true ∧ t.pllA = s.pllA ∧ t.pllB = s.pllB ∧
      (chOf t i).rDividerExponent.toNat = r.1 ∧
      (s.cfg.intModePolicy = .divBy4Only →
        ((chOf t i).integerMode = true ↔ s.cfg.divBy4Threshold * 100 ≤ t1)) ∧
      (s.cfg.intModePolicy = .whenBZero →
        ((chOf t i).integerMode = true ↔ p.fields.p2.toNat = 0 ∧ (p.fields.p1.toNat + 512) % 128 = 0)) ∧
      (chOf t i).assignedPll = (chOf s i).assignedPll ∧ (chOf t i).driveStrength = (chOf s i).driveStrength ∧
      (chOf t i).enabled = (chOf s i).enabled ∧
      ∀ j, j ≠ i → chOf t j = chOf s j

/-- R200, R83 on the plain chip: what SET_FREQUENCY leaves in the channel's block, with the R-divider exponent and the
divide-by-4 bits in the divider/mode byte, and in the integer-mode bit of its control byte, which is the mirror's; every
other bit and byte is as before. -/
def Obligations.SetFrequencyProgramsTheChip : Prop :=
  ∀ (s : State) (i : Channel) (freq : U64) (p : MsPlan), configValid s.cfg = true → s.inited = true → PlainChip s →
    memWf s.line.rm = true →
    planMultisynth s.cfg (selectRDivider s.cfg freq.toNat).2 (pllOf s (chOf s i).assignedPll).frequency.toNat true = .ok p →
    ∃ t, exec (.setFrequency i freq) s = .next t ∧ t.raFault = false ∧
      (∀ j (h : j < 8), readMem t.line.rm (((msParamsAddr s.cfg i).toNat + j) % 256) =
        (ser8 p.fields (BitVec.ofNat 3 (selectRDivider s.cfg freq.toNat).1) (if p.divby4 then 0b11#2 else 0b00#2))[j]'h) ∧
      (∀ j, j < 8 → (readMem t.line.rm (clkCtrlAddr s.cfg i).toNat).getLsbD j =
        (if j = s.cfg.ccInt.val then (chOf t i).integerMode
         else (readMem s.line.rm (clkCtrlAddr s.cfg i).toNat).getLsbD j)) ∧
      MapKeptBut ((clkCtrlAddr s.cfg i).toNat :: addrsFrom (msParamsAddr s.cfg i) 8) s t

/-- R241, R102, R114: a controller operation whose plan is refused is refused with the planner's reason: INITIALIZE and
SET_PLL when the crystal corrected by the stored correction is below 1, SET_FREQUENCY when the
stored PLL frequency is too small for the ratio clamp. -/
def Obligations.ControllerPlanRefusals : Prop :=
  ∀ (s : State), configValid s.cfg = true →
    (correctedCrystal s.cfg s.pllA.correctionPpb < 1 ∨ correctedCrystal s.cfg s.pllB.correctionPpb < 1 →
      exec .initializeAll s = .refused .correctedReference) ∧
    (s.inited = true → ∀ freq x, correctedCrystal s.cfg (pllOf s x).correctionPpb < 1 →
      exec (.setPll freq x) s = .refused .correctedReference) ∧
    (s.inited = true → ∀ (i : Channel) (freq : U64),
      let pll := (pllOf s (chOf s i).assignedPll).frequency.toNat
      let t1 := bounded (selectRDivider s.cfg freq.toNat).2 (s.cfg.multisynthMin * 100) (s.cfg.multisynthMax * 100)
      let a := bounded (pll / t1) 6 1800
      let t2 := if a = pll / t1 then t1 else pll / a
      t1 < s.cfg.divBy4Threshold * 100 → (t2 = 0 ∨ pll / t2 ≠ a) →
      exec (.setFrequency i freq) s = .refused .pllFreqTooSmall)

/-- R239, R102, R114 ("every value the controller passes meets K8 through the PLLState invariant"), R27: from a state that meets
the invariant, when the environment answers, INITIALIZE returns at any time, and after it SET_PLL for every operand,
SET_CORRECTION for every correction whose corrected crystal is at least 1, and SET_FREQUENCY for every operand where the stored
correction of the channel's PLL meets K7. That K8 binds the VCO range is the model's reading (log 5), that K7 does not refuse a
correction log 4. -/
def Obligations.ControllerPlansUnderTheInvariant : Prop :=
  ∀ (s : State), Inv s → configValid s.cfg = true → Responsive s →
    (∃ t, exec .initializeAll s = .next t) ∧
    (s.inited = true →
      (∀ freq x, ∃ t, exec (.setPll freq x) s = .next t) ∧
      (∀ ppb, 1 ≤ correctedCrystal s.cfg ppb → ∃ t, exec (.setCorrection ppb .crystal) s = .next t) ∧
      (∀ i freq, RatioReaches s.cfg (pllOf s (chOf s i).assignedPll).correctionPpb →
        ∃ t, exec (.setFrequency i freq) s = .next t))

/-- R203, R197, R204: SET_PLL returns when the environment answers, for a stored correction that R102 allows; the mirror holds the target after both clamps under the
stored correction, and no other mirror changes. On the plain chip the PLL's block holds the planned fields and no other byte
changes. -/
def Obligations.SetPllOutcome : Prop :=
  ∀ (s : State) (x : Pll) (freq : U64) (ref1 : Nat), configValid s.cfg = true → s.inited = true → Responsive s →
    1 ≤ ref1 → (ref1 : Int) = correctedCrystal s.cfg (pllOf s x).correctionPpb →
    ∃ t p, exec (.setPll freq x) s = .next t ∧ t.response = [] ∧ t.command = s.command ∧ TransportIdle t ∧
      LinesClosed t ∧ t.cfg = s.cfg ∧ t.inited = true ∧ t.ch0 = s.ch0 ∧ t.ch1 = s.ch1 ∧ t.ch2 = s.ch2 ∧
      (pllOf t x).frequency.toNat = clampedTarget s.cfg freq.toNat ref1 ∧
      (pllOf t x).correctionPpb = (pllOf s x).correctionPpb ∧
      (∀ y, y ≠ x → pllOf t y = pllOf s y) ∧
      planPll s.cfg freq.toNat s.cfg.xtalFreqX100 (pllOf s x).correctionPpb.toInt = .ok p ∧
      (PlainChip s → memWf s.line.rm = true →
        (∀ j (h : j < 8),
          readMem t.line.rm (((pllParamsAddr s.cfg x).toNat + j) % 256) = (ser8 p.fields 0#3 0#2)[j]'h) ∧
        MapKeptBut (addrsFrom (pllParamsAddr s.cfg x) 8) s t)

/-- R205: SET_CORRECTION is refused when the corrected crystal would be below 1, and for no other reason (a correction that
breaks K7 is planned, log 4); otherwise, when the environment answers, both
records hold the new correction and their old targets clamped anew, and no channel record changes. On the plain chip both
blocks hold the new plans' fields and no other byte changes. -/
def Obligations.SetCorrectionOutcome : Prop :=
  ∀ (s : State) (ppb : BitVec 32), configValid s.cfg = true → s.inited = true →
    (correctedCrystal s.cfg ppb < 1 → exec (.setCorrection ppb .crystal) s = .refused .correctedReference) ∧
    (∀ ref1 : Nat, Responsive s → 1 ≤ ref1 → (ref1 : Int) = correctedCrystal s.cfg ppb →
      ∃ t pa pb, exec (.setCorrection ppb .crystal) s = .next t ∧ t.response = [] ∧ t.command = s.command ∧
        TransportIdle t ∧ LinesClosed t ∧ t.cfg = s.cfg ∧ t.inited = true ∧ t.ch0 = s.ch0 ∧ t.ch1 = s.ch1 ∧ t.ch2 = s.ch2 ∧
        (∀ x, (pllOf t x).correctionPpb = ppb ∧
          (pllOf t x).frequency.toNat = clampedTarget s.cfg (pllOf s x).frequency.toNat ref1) ∧
        planPll s.cfg s.pllA.frequency.toNat s.cfg.xtalFreqX100 ppb.toInt = .ok pa ∧
        planPll s.cfg s.pllB.frequency.toNat s.cfg.xtalFreqX100 ppb.toInt = .ok pb ∧
        (PlainChip s → memWf s.line.rm = true →
          (∀ j (h : j < 8),
            readMem t.line.rm ((s.cfg.regPllParamsA.toNat + j) % 256) = (ser8 pa.fields 0#3 0#2)[j]'h) ∧
          (∀ j (h : j < 8),
            readMem t.line.rm ((s.cfg.regPllParamsB.toNat + j) % 256) = (ser8 pb.fields 0#3 0#2)[j]'h) ∧
          MapKeptBut (addrsFrom s.cfg.regPllParamsA 8 ++ addrsFrom s.cfg.regPllParamsB 8) s t))

/-- R207, R87: OUTPUT_ENABLE writes the mirror `enabled` and nothing else of the mirrors; on the plain chip it clears (enable)
or sets (disable) the channel's bit of the output-enable register, the other way round without D34's active-low default, and
changes nothing else. -/
def Obligations.OutputEnableOutcome : Prop :=
  ∀ (s : State) (i : Channel) (enable : Bool), configValid s.cfg = true → s.inited = true → Responsive s →
    ∃ t, exec (.outputEnable i enable) s = .next t ∧ t.response = [] ∧ t.command = s.command ∧ TransportIdle t ∧
      LinesClosed t ∧ t.cfg = s.cfg ∧ t.inited = true ∧ t.pllA = s.pllA ∧ t.pllB = s.pllB ∧
      chOf t i = { chOf s i with enabled := enable } ∧ (∀ j, j ≠ i → chOf t j = chOf s j) ∧
      (PlainChip s → memWf s.line.rm = true →
        (∀ j, j < 8 → (readMem t.line.rm s.cfg.regOutputEnable.toNat).getLsbD j =
          (if j = channelNumber i then enable != s.cfg.oeActiveLow else (readMem s.line.rm s.cfg.regOutputEnable.toNat).getLsbD j)) ∧
        MapKeptBut [s.cfg.regOutputEnable.toNat] s t)

/-- R208: DRIVE_STRENGTH has opcode 0x35, is refused before `initialize`, and otherwise is the UPDATE_REG of the two-bit drive
field of the channel's control byte, whatever the environment does, followed by the write of the mirror `drive_strength` and
nothing else. -/
def Obligations.DriveStrengthOutcome : Prop :=
  ∀ (s : State) (i : Channel) (level : BitVec 2), configValid s.cfg = true →
    (encode (.driveStrength i level)).head? = some 0x35#8 ∧
    (s.inited = false → exec (.driveStrength i level) s = .refused .notInitialized) ∧
    (s.inited = true →
      ∀ t, exec (.driveStrength i level) s = .next t ↔
        ∃ u, exec (.updateReg (clkCtrlAddr s.cfg i) (3#8 <<< s.cfg.ccDrv.val) (level.zeroExtend 8 <<< s.cfg.ccDrv.val)) s =
            .next u ∧
          t = respond [] (setChOf u i { chOf s i with driveStrength := level }))

/-- R208, R85, R196: DRIVE_STRENGTH returns when the environment answers, with no other mirror changed; on the plain chip only
the two drive bits of the control byte change. -/
def Obligations.DriveStrengthProgramsTheChip : Prop :=
  ∀ (s : State) (i : Channel) (level : BitVec 2), configValid s.cfg = true → s.inited = true → Responsive s →
    ∃ t, exec (.driveStrength i level) s = .next t ∧ t.response = [] ∧ t.command = s.command ∧ TransportIdle t ∧
      LinesClosed t ∧ t.cfg = s.cfg ∧ t.inited = true ∧ t.pllA = s.pllA ∧ t.pllB = s.pllB ∧
      chOf t i = { chOf s i with driveStrength := level } ∧ (∀ j, j ≠ i → chOf t j = chOf s j) ∧
      (PlainChip s → memWf s.line.rm = true →
        (∀ j, j < 8 → (readMem t.line.rm (clkCtrlAddr s.cfg i).toNat).getLsbD j =
          (if j = s.cfg.ccDrv.val then level.getLsbD 0
           else if j = s.cfg.ccDrv.val + 1 then level.getLsbD 1
           else (readMem s.line.rm (clkCtrlAddr s.cfg i).toNat).getLsbD j)) ∧
        MapKeptBut [(clkCtrlAddr s.cfg i).toNat] s t)

/-- R209, R85: SET_CLOCK_POWER writes no mirror; on the plain chip it clears (on) or sets (off) the power-down bit of the
control byte and changes nothing else. -/
def Obligations.SetClockPowerOutcome : Prop :=
  ∀ (s : State) (i : Channel) (on : Bool), configValid s.cfg = true → s.inited = true → Responsive s →
    ∃ t, exec (.setClockPower i on) s = .next t ∧ t.response = [] ∧ LayerFrame s t ∧
      (PlainChip s → memWf s.line.rm = true →
        (∀ j, j < 8 → (readMem t.line.rm (clkCtrlAddr s.cfg i).toNat).getLsbD j =
          (if j = s.cfg.ccPdn.val then !on else (readMem s.line.rm (clkCtrlAddr s.cfg i).toNat).getLsbD j)) ∧
        MapKeptBut [(clkCtrlAddr s.cfg i).toNat] s t)

/-- R210: POWER_DOWN writes no mirror and leaves `inited` true; on the plain chip it sets the three disable bits of the
output-enable register, puts CLK_CTRL_PDN_VALUE in the three control bytes and changes nothing else. -/
def Obligations.PowerDownOutcome : Prop :=
  ∀ (s : State), configValid s.cfg = true → s.inited = true → Responsive s →
    ∃ t, exec .powerDown s = .next t ∧ t.response = [] ∧ LayerFrame s t ∧
      (PlainChip s → memWf s.line.rm = true →
        (∀ j, j < 8 → (readMem t.line.rm s.cfg.regOutputEnable.toNat).getLsbD j =
          (if j < 3 then s.cfg.oeActiveLow else (readMem s.line.rm s.cfg.regOutputEnable.toNat).getLsbD j)) ∧
        (∀ i, readMem t.line.rm (clkCtrlAddr s.cfg i).toNat = s.cfg.clkCtrlPdnValue) ∧
        MapKeptBut [s.cfg.regOutputEnable.toNat, s.cfg.regClkCtrl0.toNat, s.cfg.regClkCtrl1.toNat,
          s.cfg.regClkCtrl2.toNat] s t)

/-- R206, R85: SET_PLL_ASSIGNMENT writes the mirror `assigned_pll` and nothing else of the mirrors; on the plain chip it
writes the PLL-select bit of the control byte (1 for PLL B) and changes nothing else. -/
def Obligations.SetPllAssignmentOutcome : Prop :=
  ∀ (s : State) (i : Channel) (which : Pll), configValid s.cfg = true → s.inited = true → Responsive s →
    ∃ t, exec (.setPllAssignment i which) s = .next t ∧ t.response = [] ∧ t.command = s.command ∧ TransportIdle t ∧
      LinesClosed t ∧ t.cfg = s.cfg ∧ t.inited = true ∧ t.pllA = s.pllA ∧ t.pllB = s.pllB ∧
      chOf t i = { chOf s i with assignedPll := which } ∧ (∀ j, j ≠ i → chOf t j = chOf s j) ∧
      (PlainChip s → memWf s.line.rm = true →
        (∀ j, j < 8 → (readMem t.line.rm (clkCtrlAddr s.cfg i).toNat).getLsbD j =
          (if j = s.cfg.ccPllSel.val then decide (which = .b)
           else (readMem s.line.rm (clkCtrlAddr s.cfg i).toNat).getLsbD j)) ∧
        MapKeptBut [(clkCtrlAddr s.cfg i).toNat] s t)

/-- R206, R207, R209: OUTPUT_ENABLE, SET_CLOCK_POWER and SET_PLL_ASSIGNMENT are each one UPDATE_REG, whatever the environment
does, followed by the mirror write of the rule (none for SET_CLOCK_POWER): they have a next state exactly when it has one. The
value of OUTPUT_ENABLE follows D34's parameter OE_ACTIVE_LOW (log 21). -/
def Obligations.MaskedUpdateOperations : Prop :=
  ∀ (s t : State) (i : Channel), configValid s.cfg = true → s.inited = true →
    (∀ enable, exec (.outputEnable i enable) s = .next t ↔
      ∃ u, exec (.updateReg s.cfg.regOutputEnable (1#8 <<< channelNumber i)
          (if enable = s.cfg.oeActiveLow then 0#8 else 1#8 <<< channelNumber i)) s = .next u ∧
        t = respond [] (setChOf u i { chOf s i with enabled := enable })) ∧
    (∀ on, exec (.setClockPower i on) s = .next t ↔
      ∃ u, exec (.updateReg (clkCtrlAddr s.cfg i) (1#8 <<< s.cfg.ccPdn.val)
          (if on then 0#8 else 1#8 <<< s.cfg.ccPdn.val)) s = .next u ∧ t = respond [] u) ∧
    (∀ which, exec (.setPllAssignment i which) s = .next t ↔
      ∃ u, exec (.updateReg (clkCtrlAddr s.cfg i) (1#8 <<< s.cfg.ccPllSel.val)
          (if which = .b then 1#8 <<< s.cfg.ccPllSel.val else 0#8)) s = .next u ∧
        t = respond [] (setChOf u i { chOf s i with assignedPll := which }))

/-- R198, R200, R203, R205, R210, R211 on the plain chip: the frames that each controller operation with more than one update
puts on the lines, in the order of its rule. The disable bits of POWER_DOWN follow D34's parameter OE_ACTIVE_LOW (log 21). -/
def Obligations.ControllerBusSequences : Prop :=
  ∀ (s : State), configValid s.cfg = true → PlainChip s → memWf s.line.rm = true →
    (∀ pa pb, planPll s.cfg s.cfg.pllBringupX100 s.cfg.xtalFreqX100 s.pllA.correctionPpb.toInt = .ok pa →
      planPll s.cfg s.cfg.pllBringupX100 s.cfg.xtalFreqX100 s.pllB.correctionPpb.toInt = .ok pb →
      let clear := 1#8 <<< s.cfg.ccInt.val ||| 1#8 <<< s.cfg.ccPllSel.val
      ∃ t, exec .initializeAll s = .next t ∧ t.line.events = s.line.events ++ opsFrames s.cfg s.line.rm
        ([.write s.cfg.regXtalLoad [s.cfg.xtalLoadValue]]
          ++ s.cfg.regDisableState.map (fun a => .write a [s.cfg.disableStateValue])
          ++ [.write s.cfg.regOutputEnable [s.cfg.oeMaskInit],
            .write s.cfg.regPllParamsA (ser8 pa.fields 0#3 0#2), .write s.cfg.regPllParamsB (ser8 pb.fields 0#3 0#2),
            .update s.cfg.regClkCtrl0 clear 0#8, .update s.cfg.regClkCtrl1 clear 0#8, .update s.cfg.regClkCtrl2 clear 0#8]
          ++ s.cfg.regVcxo.map (fun a => .write a [0x00#8])
          ++ [.write s.cfg.regPllReset [1#8 <<< s.cfg.rstA.val ||| 1#8 <<< s.cfg.rstB.val]])) ∧
    (s.inited = true →
      (∀ i freq p,
        planMultisynth s.cfg (selectRDivider s.cfg (BitVec.toNat freq)).2
          (pllOf s (chOf s i).assignedPll).frequency.toNat true = .ok p →
        ∃ t, exec (.setFrequency i freq) s = .next t ∧ t.line.events = s.line.events ++ opsFrames s.cfg s.line.rm
          [.write (msParamsAddr s.cfg i) (ser8 p.fields 0#3 0#2),
           .update (msParamsAddr s.cfg i + 2#8) 0x7C#8
             (BitVec.ofNat 8 (16 * (selectRDivider s.cfg freq.toNat).1 + if p.divby4 then 12 else 0)),
           .update (clkCtrlAddr s.cfg i) (1#8 <<< s.cfg.ccInt.val)
             (if (chOf t i).integerMode then 1#8 <<< s.cfg.ccInt.val else 0#8)]) ∧
      (∀ freq x p, planPll s.cfg (BitVec.toNat freq) s.cfg.xtalFreqX100 (pllOf s x).correctionPpb.toInt = .ok p →
        ∃ t, exec (.setPll freq x) s = .next t ∧ t.line.events = s.line.events ++ opsFrames s.cfg s.line.rm
          [.write (pllParamsAddr s.cfg x) (ser8 p.fields 0#3 0#2)]) ∧
      (∀ ppb pa pb, planPll s.cfg s.pllA.frequency.toNat s.cfg.xtalFreqX100 (BitVec.toInt ppb) = .ok pa →
        planPll s.cfg s.pllB.frequency.toNat s.cfg.xtalFreqX100 ppb.toInt = .ok pb →
        ∃ t, exec (.setCorrection ppb .crystal) s = .next t ∧ t.line.events = s.line.events ++ opsFrames s.cfg s.line.rm
          [.write s.cfg.regPllParamsA (ser8 pa.fields 0#3 0#2), .write s.cfg.regPllParamsB (ser8 pb.fields 0#3 0#2)]) ∧
      (∃ t, exec .powerDown s = .next t ∧ t.line.events = s.line.events ++ opsFrames s.cfg s.line.rm
        [.update s.cfg.regOutputEnable 0x07#8 (if s.cfg.oeActiveLow then 0x07#8 else 0x00#8),
         .write s.cfg.regClkCtrl0 [s.cfg.clkCtrlPdnValue], .write s.cfg.regClkCtrl1 [s.cfg.clkCtrlPdnValue],
         .write s.cfg.regClkCtrl2 [s.cfg.clkCtrlPdnValue]]))

/-! ### Whole-machine statements -/

/-- R29, R26, R37: which operations can change which mirror field. The configuration never changes, `inited` is never
cleared, and only INITIALIZE sets it. -/
def Obligations.MirrorsWrittenOnlyByTheirOperations : Prop :=
  ∀ (i : Instr) (s t : State), exec i s = .next t →
    t.cfg = s.cfg ∧ t.command = s.command ∧
    (s.inited = true → t.inited = true) ∧ (t.inited ≠ s.inited → i = .initializeAll) ∧
    (∀ x, (pllOf t x).referenceIndex = (pllOf s x).referenceIndex) ∧
    (∀ x, (pllOf t x).correctionPpb ≠ (pllOf s x).correctionPpb → ∃ ppb r, i = .setCorrection ppb r) ∧
    (∀ x, (pllOf t x).frequency ≠ (pllOf s x).frequency →
      i = .initializeAll ∨ (∃ f, i = .setPll f x) ∨ ∃ ppb r, i = .setCorrection ppb r) ∧
    (∀ c, (chOf t c).assignedPll ≠ (chOf s c).assignedPll → i = .initializeAll ∨ ∃ x, i = .setPllAssignment c x) ∧
    (∀ c, (chOf t c).rDividerExponent ≠ (chOf s c).rDividerExponent ∨ (chOf t c).integerMode ≠ (chOf s c).integerMode →
      i = .initializeAll ∨ ∃ f, i = .setFrequency c f) ∧
    (∀ c, (chOf t c).driveStrength ≠ (chOf s c).driveStrength → ∃ l, i = .driveStrength c l) ∧
    (∀ c, (chOf t c).enabled ≠ (chOf s c).enabled → i = .initializeAll ∨ ∃ b, i = .outputEnable c b)

/-- Every step keeps the invariant of the machine between operations: the canonical form of the remote map, no action pending
and no layer operation running (R24, R23), `ps` not STOPPED (R21), `dir` NONE in IDLE and STARTED (R22), and, once `initialize`
has run, the VCO range of both PLL records under K7 for their stored corrections (R27, C9), which R102 allows and which are 0 before; and the recorded status is
a pair of R89. -/
def Obligations.StepKeepsTheInvariant : Prop :=
  ∀ (s t : State), Inv s → step s = .next t → Inv t

/-- The machine right after reset meets the invariant. The empty map (log 10) and the recorded status (log 12) are the
model's choices. -/
def Obligations.ResetMeetsTheInvariant : Prop := Inv State.reset

/-- R38, R260: what reset leaves where the spec gives a value. -/
def Obligations.ResetValues : Prop :=
  State.reset.ps = .idle ∧ State.reset.dir = .none ∧ State.reset.wait = .none ∧ State.reset.seq = none ∧
  State.reset.raFault = false ∧ State.reset.inited = false ∧
  ∀ x, (pllOf State.reset x).referenceIndex = .crystal ∧ (pllOf State.reset x).correctionPpb = 0#32

/-- R261: putting the block back to reset does not reach the remote chip: every byte of its map and its pointer stay, while the
block is as R38 says. A reset out of a hang withdraws the pending question, so that the environment may answer the next one: the
model's choice (log 26). -/
def Obligations.ResetDoesNotReachTheChip : Prop :=
  ∀ (s : State), ChipKept s (resetBlock s) ∧ TransportIdle (resetBlock s) ∧ (resetBlock s).inited = false ∧
    (resetBlock s).raFault = false ∧ (∀ x, (pllOf (resetBlock s) x).correctionPpb = 0#32) ∧
    (resetBlock s).freeIndex = s.freeIndex ∧
    (resetBlock s).line.answers = (if s.wait = .none then s.line.answers else s.line.answers.tail)
end

