-- ==== Sys2Proof/Laws/Memory.lean ====
section
/-! SUPPORT. The remote map as data (`spec/20_memory.md` R50, R53): reading after writing, and the canonical form, which every
memory operation keeps. -/

namespace Sys2Proof.Machine

/-- An entry in front of a memory that lists only higher addresses reads as written. -/
theorem readMem_consCell_same (a : Nat) (v : Byte) (m : Memory) (h : readMem m a = unlistedByte) :
    readMem (consCell a v m) a = v := by
  unfold consCell
  split
  · next hv => rw [h, hv]
  · simp [readMem]

theorem readMem_consCell_other {a b : Nat} (h : b ≠ a) (v : Byte) (m : Memory) :
    readMem (consCell a v m) b = readMem m b := by
  unfold consCell
  split
  · rfl
  · simp [readMem, Ne.symm h]

/-- Below its least address a canonical memory lists nothing. -/
theorem readMem_of_lt {lo : Nat} {m : Memory} (hw : memWfFrom lo m = true) {a : Nat} (h : a < lo) :
    readMem m a = unlistedByte := by
  induction m generalizing lo with
  | nil => rfl
  | cons c m ih =>
    obtain ⟨b, w⟩ := c
    simp only [memWfFrom, Bool.and_eq_true, decide_eq_true_eq] at hw
    simp only [readMem]
    rw [if_neg (by omega)]
    exact ih hw.2 (by omega)

theorem memWfFrom_mono {lo lo' : Nat} (h : lo' ≤ lo) {m : Memory} (hw : memWfFrom lo m = true) :
    memWfFrom lo' m = true := by
  cases m with
  | nil => rfl
  | cons c m =>
    obtain ⟨b, w⟩ := c
    simp only [memWfFrom, Bool.and_eq_true, decide_eq_true_eq] at hw ⊢
    exact ⟨⟨⟨by omega, hw.1.1.2⟩, hw.1.2⟩, hw.2⟩

theorem memWfFrom_consCell {lo a : Nat} (v : Byte) {m : Memory} (hlo : lo ≤ a) (ha : a < 256)
    (hm : memWfFrom (a + 1) m = true) : memWfFrom lo (consCell a v m) = true := by
  unfold consCell
  split
  · exact memWfFrom_mono (by omega) hm
  · next hv => simp [memWfFrom, hlo, ha, hv, hm]

theorem memWfFrom_writeMem {lo : Nat} {m : Memory} (hw : memWfFrom lo m = true) {a : Nat} (v : Byte) (hlo : lo ≤ a)
    (ha : a < 256) : memWfFrom lo (writeMem m a v) = true := by
  induction m generalizing lo with
  | nil => exact memWfFrom_consCell v hlo ha rfl
  | cons c m ih =>
    obtain ⟨b, w⟩ := c
    have hw' := hw
    simp only [memWfFrom, Bool.and_eq_true, decide_eq_true_eq] at hw
    simp only [writeMem]
    split
    · next hab =>
      refine memWfFrom_consCell v hlo ha ?_
      simp only [memWfFrom, Bool.and_eq_true, decide_eq_true_eq]
      exact ⟨⟨⟨hab, hw.1.1.2⟩, hw.1.2⟩, hw.2⟩
    · split
      · next hab => subst hab; exact memWfFrom_consCell v hlo ha hw.2
      · simp only [memWfFrom, Bool.and_eq_true, decide_eq_true_eq]
        exact ⟨hw.1, ih hw.2 (by omega)⟩

/-- Writing keeps the canonical form. -/
theorem memWf_writeMem {m : Memory} (hw : memWf m = true) {a : Nat} (ha : a < 256) (v : Byte) :
    memWf (writeMem m a v) = true := memWfFrom_writeMem hw v (Nat.zero_le a) ha

/-- A byte written reads back, in a canonical memory. -/
theorem readMem_writeMem_same {m : Memory} (hw : memWf m = true) (a : Nat) (v : Byte) :
    readMem (writeMem m a v) a = v := by
  suffices h : ∀ lo, memWfFrom lo m = true → readMem (writeMem m a v) a = v from h 0 hw
  clear hw
  induction m with
  | nil => intro _ _; exact readMem_consCell_same a v [] rfl
  | cons c m ih =>
    obtain ⟨b, w⟩ := c
    intro lo hw
    have hw0 := hw
    simp only [memWfFrom, Bool.and_eq_true, decide_eq_true_eq] at hw
    simp only [writeMem]
    split
    · next hab =>
      refine readMem_consCell_same a v _ ?_
      simp only [readMem]
      rw [if_neg (by omega)]
      exact readMem_of_lt hw.2 (by omega)
    · split
      · next hab => subst hab; exact readMem_consCell_same _ v _ (readMem_of_lt hw.2 (by omega))
      · next hab =>
        simp only [readMem]
        rw [if_neg (Ne.symm hab)]
        exact ih (b + 1) hw.2

/-- Every other byte reads as before. -/
theorem readMem_writeMem_other (m : Memory) {a b : Nat} (h : b ≠ a) (v : Byte) :
    readMem (writeMem m a v) b = readMem m b := by
  induction m with
  | nil => exact readMem_consCell_other h v []
  | cons c m ih =>
    obtain ⟨d, w⟩ := c
    simp only [writeMem]
    split
    · exact readMem_consCell_other h v _
    · split
      · next hab =>
        subst hab
        rw [readMem_consCell_other h]
        simp [readMem, Ne.symm h]
      · simp only [readMem, ih]

/-- The map at reset has the canonical form. -/
theorem memWf_reset : memWf State.reset.line.rm = true := rfl

end Sys2Proof.Machine
end

