-- ==== Sys2Proof/Laws/State.lean ====
section
/-! SUPPORT. One lemma per field per update of the state and of the line environment, so that no later proof unfolds a record
update. -/

namespace Sys2Proof.Machine

variable (s : State) (l : LineEnv)


/-! `respond` -/

@[simp] theorem respond_cfg (bs : List Byte) : (respond bs s).cfg = s.cfg := rfl
@[simp] theorem respond_ps (bs : List Byte) : (respond bs s).ps = s.ps := rfl
@[simp] theorem respond_dir (bs : List Byte) : (respond bs s).dir = s.dir := rfl
@[simp] theorem respond_wait (bs : List Byte) : (respond bs s).wait = s.wait := rfl
@[simp] theorem respond_tstat (bs : List Byte) : (respond bs s).tstat = s.tstat := rfl
@[simp] theorem respond_seq (bs : List Byte) : (respond bs s).seq = s.seq := rfl
@[simp] theorem respond_raFault (bs : List Byte) : (respond bs s).raFault = s.raFault := rfl
@[simp] theorem respond_inited (bs : List Byte) : (respond bs s).inited = s.inited := rfl
@[simp] theorem respond_pllA (bs : List Byte) : (respond bs s).pllA = s.pllA := rfl
@[simp] theorem respond_pllB (bs : List Byte) : (respond bs s).pllB = s.pllB := rfl
@[simp] theorem respond_ch0 (bs : List Byte) : (respond bs s).ch0 = s.ch0 := rfl
@[simp] theorem respond_ch1 (bs : List Byte) : (respond bs s).ch1 = s.ch1 := rfl
@[simp] theorem respond_ch2 (bs : List Byte) : (respond bs s).ch2 = s.ch2 := rfl
@[simp] theorem respond_line (bs : List Byte) : (respond bs s).line = s.line := rfl
@[simp] theorem respond_freeIndex (bs : List Byte) : (respond bs s).freeIndex = s.freeIndex := rfl
@[simp] theorem respond_command (bs : List Byte) : (respond bs s).command = s.command := rfl
@[simp] theorem respond_response (bs : List Byte) : (respond bs s).response = bs := rfl

/-! `issued` -/

@[simp] theorem issued_cfg (a : BusAction) : (issued a s).cfg = s.cfg := rfl
@[simp] theorem issued_ps (a : BusAction) : (issued a s).ps = s.ps := rfl
@[simp] theorem issued_dir (a : BusAction) : (issued a s).dir = s.dir := rfl
@[simp] theorem issued_wait (a : BusAction) : (issued a s).wait = waitFor a := rfl
@[simp] theorem issued_tstat (a : BusAction) : (issued a s).tstat = s.tstat := rfl
@[simp] theorem issued_seq (a : BusAction) : (issued a s).seq = s.seq := rfl
@[simp] theorem issued_raFault (a : BusAction) : (issued a s).raFault = s.raFault := rfl
@[simp] theorem issued_inited (a : BusAction) : (issued a s).inited = s.inited := rfl
@[simp] theorem issued_pllA (a : BusAction) : (issued a s).pllA = s.pllA := rfl
@[simp] theorem issued_pllB (a : BusAction) : (issued a s).pllB = s.pllB := rfl
@[simp] theorem issued_ch0 (a : BusAction) : (issued a s).ch0 = s.ch0 := rfl
@[simp] theorem issued_ch1 (a : BusAction) : (issued a s).ch1 = s.ch1 := rfl
@[simp] theorem issued_ch2 (a : BusAction) : (issued a s).ch2 = s.ch2 := rfl
@[simp] theorem issued_line (a : BusAction) : (issued a s).line = emit (.action a) s.line := rfl
@[simp] theorem issued_freeIndex (a : BusAction) : (issued a s).freeIndex = s.freeIndex := rfl
@[simp] theorem issued_command (a : BusAction) : (issued a s).command = s.command := rfl
@[simp] theorem issued_response (a : BusAction) : (issued a s).response = s.response := rfl

/-! `answered` -/

@[simp] theorem answered_cfg (a : BusAction) (hs : HwStatus) : (answered a hs s).cfg = s.cfg := rfl
@[simp] theorem answered_ps (a : BusAction) (hs : HwStatus) : (answered a hs s).ps = s.ps := rfl
@[simp] theorem answered_dir (a : BusAction) (hs : HwStatus) : (answered a hs s).dir = s.dir := rfl
@[simp] theorem answered_wait (a : BusAction) (hs : HwStatus) : (answered a hs s).wait = .none := rfl
@[simp] theorem answered_tstat (a : BusAction) (hs : HwStatus) : (answered a hs s).tstat = hs := rfl
@[simp] theorem answered_seq (a : BusAction) (hs : HwStatus) : (answered a hs s).seq = s.seq := rfl
@[simp] theorem answered_raFault (a : BusAction) (hs : HwStatus) : (answered a hs s).raFault = s.raFault := rfl
@[simp] theorem answered_inited (a : BusAction) (hs : HwStatus) : (answered a hs s).inited = s.inited := rfl
@[simp] theorem answered_pllA (a : BusAction) (hs : HwStatus) : (answered a hs s).pllA = s.pllA := rfl
@[simp] theorem answered_pllB (a : BusAction) (hs : HwStatus) : (answered a hs s).pllB = s.pllB := rfl
@[simp] theorem answered_ch0 (a : BusAction) (hs : HwStatus) : (answered a hs s).ch0 = s.ch0 := rfl
@[simp] theorem answered_ch1 (a : BusAction) (hs : HwStatus) : (answered a hs s).ch1 = s.ch1 := rfl
@[simp] theorem answered_ch2 (a : BusAction) (hs : HwStatus) : (answered a hs s).ch2 = s.ch2 := rfl
@[simp] theorem answered_line (a : BusAction) (hs : HwStatus) : (answered a hs s).line = chipReact s.cfg (popAnswer (emit (.action a) s.line)) a hs.cls := rfl
@[simp] theorem answered_freeIndex (a : BusAction) (hs : HwStatus) : (answered a hs s).freeIndex = s.freeIndex := rfl
@[simp] theorem answered_command (a : BusAction) (hs : HwStatus) : (answered a hs s).command = s.command := rfl
@[simp] theorem answered_response (a : BusAction) (hs : HwStatus) : (answered a hs s).response = s.response := rfl

/-! `stopping` -/

@[simp] theorem stopping_cfg : (stopping s).cfg = s.cfg := rfl
@[simp] theorem stopping_ps : (stopping s).ps = .stopped := rfl
@[simp] theorem stopping_dir : (stopping s).dir = .none := rfl
@[simp] theorem stopping_wait : (stopping s).wait = .stop := rfl
@[simp] theorem stopping_tstat : (stopping s).tstat = s.tstat := rfl
@[simp] theorem stopping_seq : (stopping s).seq = s.seq := rfl
@[simp] theorem stopping_raFault : (stopping s).raFault = s.raFault := rfl
@[simp] theorem stopping_inited : (stopping s).inited = s.inited := rfl
@[simp] theorem stopping_pllA : (stopping s).pllA = s.pllA := rfl
@[simp] theorem stopping_pllB : (stopping s).pllB = s.pllB := rfl
@[simp] theorem stopping_ch0 : (stopping s).ch0 = s.ch0 := rfl
@[simp] theorem stopping_ch1 : (stopping s).ch1 = s.ch1 := rfl
@[simp] theorem stopping_ch2 : (stopping s).ch2 = s.ch2 := rfl
@[simp] theorem stopping_line : (stopping s).line = emit .stop s.line := rfl
@[simp] theorem stopping_freeIndex : (stopping s).freeIndex = s.freeIndex := rfl
@[simp] theorem stopping_command : (stopping s).command = s.command := rfl
@[simp] theorem stopping_response : (stopping s).response = s.response := rfl

/-! `stopDone` -/

@[simp] theorem stopDone_cfg : (stopDone s).cfg = s.cfg := rfl
@[simp] theorem stopDone_ps : (stopDone s).ps = .idle := rfl
@[simp] theorem stopDone_dir : (stopDone s).dir = .none := rfl
@[simp] theorem stopDone_wait : (stopDone s).wait = .none := rfl
@[simp] theorem stopDone_tstat : (stopDone s).tstat = s.tstat := rfl
@[simp] theorem stopDone_seq : (stopDone s).seq = s.seq := rfl
@[simp] theorem stopDone_raFault : (stopDone s).raFault = s.raFault := rfl
@[simp] theorem stopDone_inited : (stopDone s).inited = s.inited := rfl
@[simp] theorem stopDone_pllA : (stopDone s).pllA = s.pllA := rfl
@[simp] theorem stopDone_pllB : (stopDone s).pllB = s.pllB := rfl
@[simp] theorem stopDone_ch0 : (stopDone s).ch0 = s.ch0 := rfl
@[simp] theorem stopDone_ch1 : (stopDone s).ch1 = s.ch1 := rfl
@[simp] theorem stopDone_ch2 : (stopDone s).ch2 = s.ch2 := rfl
@[simp] theorem stopDone_line : (stopDone s).line = closeBus (popAnswer (emit .stop s.line)) := rfl
@[simp] theorem stopDone_freeIndex : (stopDone s).freeIndex = s.freeIndex := rfl
@[simp] theorem stopDone_command : (stopDone s).command = s.command := rfl
@[simp] theorem stopDone_response : (stopDone s).response = s.response := rfl

/-! `lockRecovery` -/

@[simp] theorem lockRecovery_cfg : (lockRecovery s).cfg = s.cfg := rfl
@[simp] theorem lockRecovery_ps : (lockRecovery s).ps = .idle := rfl
@[simp] theorem lockRecovery_dir : (lockRecovery s).dir = .none := rfl
@[simp] theorem lockRecovery_wait : (lockRecovery s).wait = .none := rfl
@[simp] theorem lockRecovery_tstat : (lockRecovery s).tstat = s.tstat := rfl
@[simp] theorem lockRecovery_seq : (lockRecovery s).seq = s.seq := rfl
@[simp] theorem lockRecovery_raFault : (lockRecovery s).raFault = s.raFault := rfl
@[simp] theorem lockRecovery_inited : (lockRecovery s).inited = s.inited := rfl
@[simp] theorem lockRecovery_pllA : (lockRecovery s).pllA = s.pllA := rfl
@[simp] theorem lockRecovery_pllB : (lockRecovery s).pllB = s.pllB := rfl
@[simp] theorem lockRecovery_ch0 : (lockRecovery s).ch0 = s.ch0 := rfl
@[simp] theorem lockRecovery_ch1 : (lockRecovery s).ch1 = s.ch1 := rfl
@[simp] theorem lockRecovery_ch2 : (lockRecovery s).ch2 = s.ch2 := rfl
@[simp] theorem lockRecovery_line : (lockRecovery s).line = closeBus (emit .release s.line) := rfl
@[simp] theorem lockRecovery_freeIndex : (lockRecovery s).freeIndex = s.freeIndex := rfl
@[simp] theorem lockRecovery_command : (lockRecovery s).command = s.command := rfl
@[simp] theorem lockRecovery_response : (lockRecovery s).response = s.response := rfl

/-! `latch` -/

@[simp] theorem latch_cfg (st : Status) : (latch st s).cfg = s.cfg := rfl
@[simp] theorem latch_ps (st : Status) : (latch st s).ps = s.ps := rfl
@[simp] theorem latch_dir (st : Status) : (latch st s).dir = s.dir := rfl
@[simp] theorem latch_wait (st : Status) : (latch st s).wait = s.wait := rfl
@[simp] theorem latch_tstat (st : Status) : (latch st s).tstat = s.tstat := rfl
@[simp] theorem latch_seq (st : Status) : (latch st s).seq = s.seq.map (· + 1) := rfl
@[simp] theorem latch_raFault (st : Status) : (latch st s).raFault = (s.raFault || st != .ok) := rfl
@[simp] theorem latch_inited (st : Status) : (latch st s).inited = s.inited := rfl
@[simp] theorem latch_pllA (st : Status) : (latch st s).pllA = s.pllA := rfl
@[simp] theorem latch_pllB (st : Status) : (latch st s).pllB = s.pllB := rfl
@[simp] theorem latch_ch0 (st : Status) : (latch st s).ch0 = s.ch0 := rfl
@[simp] theorem latch_ch1 (st : Status) : (latch st s).ch1 = s.ch1 := rfl
@[simp] theorem latch_ch2 (st : Status) : (latch st s).ch2 = s.ch2 := rfl
@[simp] theorem latch_line (st : Status) : (latch st s).line = s.line := rfl
@[simp] theorem latch_freeIndex (st : Status) : (latch st s).freeIndex = s.freeIndex := rfl
@[simp] theorem latch_command (st : Status) : (latch st s).command = s.command := rfl
@[simp] theorem latch_response (st : Status) : (latch st s).response = s.response := rfl

/-! `raBegin` -/

@[simp] theorem raBegin_cfg : (raBegin s).cfg = s.cfg := rfl
@[simp] theorem raBegin_ps : (raBegin s).ps = s.ps := rfl
@[simp] theorem raBegin_dir : (raBegin s).dir = s.dir := rfl
@[simp] theorem raBegin_wait : (raBegin s).wait = s.wait := rfl
@[simp] theorem raBegin_tstat : (raBegin s).tstat = s.tstat := rfl
@[simp] theorem raBegin_seq : (raBegin s).seq = some 0 := rfl
@[simp] theorem raBegin_raFault : (raBegin s).raFault = false := rfl
@[simp] theorem raBegin_inited : (raBegin s).inited = s.inited := rfl
@[simp] theorem raBegin_pllA : (raBegin s).pllA = s.pllA := rfl
@[simp] theorem raBegin_pllB : (raBegin s).pllB = s.pllB := rfl
@[simp] theorem raBegin_ch0 : (raBegin s).ch0 = s.ch0 := rfl
@[simp] theorem raBegin_ch1 : (raBegin s).ch1 = s.ch1 := rfl
@[simp] theorem raBegin_ch2 : (raBegin s).ch2 = s.ch2 := rfl
@[simp] theorem raBegin_line : (raBegin s).line = s.line := rfl
@[simp] theorem raBegin_freeIndex : (raBegin s).freeIndex = s.freeIndex := rfl
@[simp] theorem raBegin_command : (raBegin s).command = s.command := rfl
@[simp] theorem raBegin_response : (raBegin s).response = s.response := rfl

/-! `raEnd` -/

@[simp] theorem raEnd_cfg : (raEnd s).cfg = s.cfg := rfl
@[simp] theorem raEnd_ps : (raEnd s).ps = s.ps := rfl
@[simp] theorem raEnd_dir : (raEnd s).dir = s.dir := rfl
@[simp] theorem raEnd_wait : (raEnd s).wait = s.wait := rfl
@[simp] theorem raEnd_tstat : (raEnd s).tstat = s.tstat := rfl
@[simp] theorem raEnd_seq : (raEnd s).seq = none := rfl
@[simp] theorem raEnd_raFault : (raEnd s).raFault = s.raFault := rfl
@[simp] theorem raEnd_inited : (raEnd s).inited = s.inited := rfl
@[simp] theorem raEnd_pllA : (raEnd s).pllA = s.pllA := rfl
@[simp] theorem raEnd_pllB : (raEnd s).pllB = s.pllB := rfl
@[simp] theorem raEnd_ch0 : (raEnd s).ch0 = s.ch0 := rfl
@[simp] theorem raEnd_ch1 : (raEnd s).ch1 = s.ch1 := rfl
@[simp] theorem raEnd_ch2 : (raEnd s).ch2 = s.ch2 := rfl
@[simp] theorem raEnd_line : (raEnd s).line = s.line := rfl
@[simp] theorem raEnd_freeIndex : (raEnd s).freeIndex = s.freeIndex := rfl
@[simp] theorem raEnd_command : (raEnd s).command = s.command := rfl
@[simp] theorem raEnd_response : (raEnd s).response = s.response := rfl

/-! `drawByte_snd` -/

@[simp] theorem drawByte_snd_cfg : ((drawByte s).2).cfg = s.cfg := rfl
@[simp] theorem drawByte_snd_ps : ((drawByte s).2).ps = s.ps := rfl
@[simp] theorem drawByte_snd_dir : ((drawByte s).2).dir = s.dir := rfl
@[simp] theorem drawByte_snd_wait : ((drawByte s).2).wait = s.wait := rfl
@[simp] theorem drawByte_snd_tstat : ((drawByte s).2).tstat = s.tstat := rfl
@[simp] theorem drawByte_snd_seq : ((drawByte s).2).seq = s.seq := rfl
@[simp] theorem drawByte_snd_raFault : ((drawByte s).2).raFault = s.raFault := rfl
@[simp] theorem drawByte_snd_inited : ((drawByte s).2).inited = s.inited := rfl
@[simp] theorem drawByte_snd_pllA : ((drawByte s).2).pllA = s.pllA := rfl
@[simp] theorem drawByte_snd_pllB : ((drawByte s).2).pllB = s.pllB := rfl
@[simp] theorem drawByte_snd_ch0 : ((drawByte s).2).ch0 = s.ch0 := rfl
@[simp] theorem drawByte_snd_ch1 : ((drawByte s).2).ch1 = s.ch1 := rfl
@[simp] theorem drawByte_snd_ch2 : ((drawByte s).2).ch2 = s.ch2 := rfl
@[simp] theorem drawByte_snd_line : ((drawByte s).2).line = s.line := rfl
@[simp] theorem drawByte_snd_freeIndex : ((drawByte s).2).freeIndex = s.freeIndex + 1 := rfl
@[simp] theorem drawByte_snd_command : ((drawByte s).2).command = s.command := rfl
@[simp] theorem drawByte_snd_response : ((drawByte s).2).response = s.response := rfl

/-! `initMirrors` -/

@[simp] theorem initMirrors_cfg : (initMirrors s).cfg = s.cfg := rfl
@[simp] theorem initMirrors_ps : (initMirrors s).ps = s.ps := rfl
@[simp] theorem initMirrors_dir : (initMirrors s).dir = s.dir := rfl
@[simp] theorem initMirrors_wait : (initMirrors s).wait = s.wait := rfl
@[simp] theorem initMirrors_tstat : (initMirrors s).tstat = s.tstat := rfl
@[simp] theorem initMirrors_seq : (initMirrors s).seq = s.seq := rfl
@[simp] theorem initMirrors_raFault : (initMirrors s).raFault = s.raFault := rfl
@[simp] theorem initMirrors_inited : (initMirrors s).inited = true := rfl
@[simp] theorem initMirrors_pllA : (initMirrors s).pllA = s.pllA := rfl
@[simp] theorem initMirrors_pllB : (initMirrors s).pllB = s.pllB := rfl
@[simp] theorem initMirrors_ch0 : (initMirrors s).ch0 = initChannel s.cfg .ch0 s.ch0 := rfl
@[simp] theorem initMirrors_ch1 : (initMirrors s).ch1 = initChannel s.cfg .ch1 s.ch1 := rfl
@[simp] theorem initMirrors_ch2 : (initMirrors s).ch2 = initChannel s.cfg .ch2 s.ch2 := rfl
@[simp] theorem initMirrors_line : (initMirrors s).line = s.line := rfl
@[simp] theorem initMirrors_freeIndex : (initMirrors s).freeIndex = s.freeIndex := rfl
@[simp] theorem initMirrors_command : (initMirrors s).command = s.command := rfl
@[simp] theorem initMirrors_response : (initMirrors s).response = s.response := rfl

/-! `withFetchWord` -/

@[simp] theorem withFetchWord_cfg (nbits w : Nat) : (s.withFetchWord nbits w).cfg = s.cfg := rfl
@[simp] theorem withFetchWord_ps (nbits w : Nat) : (s.withFetchWord nbits w).ps = s.ps := rfl
@[simp] theorem withFetchWord_dir (nbits w : Nat) : (s.withFetchWord nbits w).dir = s.dir := rfl
@[simp] theorem withFetchWord_wait (nbits w : Nat) : (s.withFetchWord nbits w).wait = s.wait := rfl
@[simp] theorem withFetchWord_tstat (nbits w : Nat) : (s.withFetchWord nbits w).tstat = s.tstat := rfl
@[simp] theorem withFetchWord_seq (nbits w : Nat) : (s.withFetchWord nbits w).seq = s.seq := rfl
@[simp] theorem withFetchWord_raFault (nbits w : Nat) : (s.withFetchWord nbits w).raFault = s.raFault := rfl
@[simp] theorem withFetchWord_inited (nbits w : Nat) : (s.withFetchWord nbits w).inited = s.inited := rfl
@[simp] theorem withFetchWord_pllA (nbits w : Nat) : (s.withFetchWord nbits w).pllA = s.pllA := rfl
@[simp] theorem withFetchWord_pllB (nbits w : Nat) : (s.withFetchWord nbits w).pllB = s.pllB := rfl
@[simp] theorem withFetchWord_ch0 (nbits w : Nat) : (s.withFetchWord nbits w).ch0 = s.ch0 := rfl
@[simp] theorem withFetchWord_ch1 (nbits w : Nat) : (s.withFetchWord nbits w).ch1 = s.ch1 := rfl
@[simp] theorem withFetchWord_ch2 (nbits w : Nat) : (s.withFetchWord nbits w).ch2 = s.ch2 := rfl
@[simp] theorem withFetchWord_line (nbits w : Nat) : (s.withFetchWord nbits w).line = s.line := rfl
@[simp] theorem withFetchWord_freeIndex (nbits w : Nat) : (s.withFetchWord nbits w).freeIndex = s.freeIndex := rfl
@[simp] theorem withFetchWord_command (nbits w : Nat) : (s.withFetchWord nbits w).command = tableBytes nbits w := rfl
@[simp] theorem withFetchWord_response (nbits w : Nat) : (s.withFetchWord nbits w).response = s.response := rfl

/-! `setPllOf` -/

@[simp] theorem setPllOf_cfg (x : Pll) (v : PllState) : (setPllOf s x v).cfg = s.cfg := by cases x <;> rfl
@[simp] theorem setPllOf_ps (x : Pll) (v : PllState) : (setPllOf s x v).ps = s.ps := by cases x <;> rfl
@[simp] theorem setPllOf_dir (x : Pll) (v : PllState) : (setPllOf s x v).dir = s.dir := by cases x <;> rfl
@[simp] theorem setPllOf_wait (x : Pll) (v : PllState) : (setPllOf s x v).wait = s.wait := by cases x <;> rfl
@[simp] theorem setPllOf_tstat (x : Pll) (v : PllState) : (setPllOf s x v).tstat = s.tstat := by cases x <;> rfl
@[simp] theorem setPllOf_seq (x : Pll) (v : PllState) : (setPllOf s x v).seq = s.seq := by cases x <;> rfl
@[simp] theorem setPllOf_raFault (x : Pll) (v : PllState) : (setPllOf s x v).raFault = s.raFault := by cases x <;> rfl
@[simp] theorem setPllOf_inited (x : Pll) (v : PllState) : (setPllOf s x v).inited = s.inited := by cases x <;> rfl
@[simp] theorem setPllOf_ch0 (x : Pll) (v : PllState) : (setPllOf s x v).ch0 = s.ch0 := by cases x <;> rfl
@[simp] theorem setPllOf_ch1 (x : Pll) (v : PllState) : (setPllOf s x v).ch1 = s.ch1 := by cases x <;> rfl
@[simp] theorem setPllOf_ch2 (x : Pll) (v : PllState) : (setPllOf s x v).ch2 = s.ch2 := by cases x <;> rfl
@[simp] theorem setPllOf_line (x : Pll) (v : PllState) : (setPllOf s x v).line = s.line := by cases x <;> rfl
@[simp] theorem setPllOf_freeIndex (x : Pll) (v : PllState) : (setPllOf s x v).freeIndex = s.freeIndex := by cases x <;> rfl
@[simp] theorem setPllOf_command (x : Pll) (v : PllState) : (setPllOf s x v).command = s.command := by cases x <;> rfl
@[simp] theorem setPllOf_response (x : Pll) (v : PllState) : (setPllOf s x v).response = s.response := by cases x <;> rfl

/-! `setChOf` -/

@[simp] theorem setChOf_cfg (i : Channel) (v : ClockChannel) : (setChOf s i v).cfg = s.cfg := by cases i <;> rfl
@[simp] theorem setChOf_ps (i : Channel) (v : ClockChannel) : (setChOf s i v).ps = s.ps := by cases i <;> rfl
@[simp] theorem setChOf_dir (i : Channel) (v : ClockChannel) : (setChOf s i v).dir = s.dir := by cases i <;> rfl
@[simp] theorem setChOf_wait (i : Channel) (v : ClockChannel) : (setChOf s i v).wait = s.wait := by cases i <;> rfl
@[simp] theorem setChOf_tstat (i : Channel) (v : ClockChannel) : (setChOf s i v).tstat = s.tstat := by cases i <;> rfl
@[simp] theorem setChOf_seq (i : Channel) (v : ClockChannel) : (setChOf s i v).seq = s.seq := by cases i <;> rfl
@[simp] theorem setChOf_raFault (i : Channel) (v : ClockChannel) : (setChOf s i v).raFault = s.raFault := by cases i <;> rfl
@[simp] theorem setChOf_inited (i : Channel) (v : ClockChannel) : (setChOf s i v).inited = s.inited := by cases i <;> rfl
@[simp] theorem setChOf_pllA (i : Channel) (v : ClockChannel) : (setChOf s i v).pllA = s.pllA := by cases i <;> rfl
@[simp] theorem setChOf_pllB (i : Channel) (v : ClockChannel) : (setChOf s i v).pllB = s.pllB := by cases i <;> rfl
@[simp] theorem setChOf_line (i : Channel) (v : ClockChannel) : (setChOf s i v).line = s.line := by cases i <;> rfl
@[simp] theorem setChOf_freeIndex (i : Channel) (v : ClockChannel) : (setChOf s i v).freeIndex = s.freeIndex := by cases i <;> rfl
@[simp] theorem setChOf_command (i : Channel) (v : ClockChannel) : (setChOf s i v).command = s.command := by cases i <;> rfl
@[simp] theorem setChOf_response (i : Channel) (v : ClockChannel) : (setChOf s i v).response = s.response := by cases i <;> rfl

/-! `setFrequencyOf` -/

@[simp] theorem setFrequencyOf_cfg (x : Pll) (freq : Nat) : (setFrequencyOf s x freq).cfg = s.cfg := by cases x <;> rfl
@[simp] theorem setFrequencyOf_ps (x : Pll) (freq : Nat) : (setFrequencyOf s x freq).ps = s.ps := by cases x <;> rfl
@[simp] theorem setFrequencyOf_dir (x : Pll) (freq : Nat) : (setFrequencyOf s x freq).dir = s.dir := by cases x <;> rfl
@[simp] theorem setFrequencyOf_wait (x : Pll) (freq : Nat) : (setFrequencyOf s x freq).wait = s.wait := by cases x <;> rfl
@[simp] theorem setFrequencyOf_tstat (x : Pll) (freq : Nat) : (setFrequencyOf s x freq).tstat = s.tstat := by cases x <;> rfl
@[simp] theorem setFrequencyOf_seq (x : Pll) (freq : Nat) : (setFrequencyOf s x freq).seq = s.seq := by cases x <;> rfl
@[simp] theorem setFrequencyOf_raFault (x : Pll) (freq : Nat) : (setFrequencyOf s x freq).raFault = s.raFault := by cases x <;> rfl
@[simp] theorem setFrequencyOf_inited (x : Pll) (freq : Nat) : (setFrequencyOf s x freq).inited = s.inited := by cases x <;> rfl
@[simp] theorem setFrequencyOf_ch0 (x : Pll) (freq : Nat) : (setFrequencyOf s x freq).ch0 = s.ch0 := by cases x <;> rfl
@[simp] theorem setFrequencyOf_ch1 (x : Pll) (freq : Nat) : (setFrequencyOf s x freq).ch1 = s.ch1 := by cases x <;> rfl
@[simp] theorem setFrequencyOf_ch2 (x : Pll) (freq : Nat) : (setFrequencyOf s x freq).ch2 = s.ch2 := by cases x <;> rfl
@[simp] theorem setFrequencyOf_line (x : Pll) (freq : Nat) : (setFrequencyOf s x freq).line = s.line := by cases x <;> rfl
@[simp] theorem setFrequencyOf_freeIndex (x : Pll) (freq : Nat) : (setFrequencyOf s x freq).freeIndex = s.freeIndex := by cases x <;> rfl
@[simp] theorem setFrequencyOf_command (x : Pll) (freq : Nat) : (setFrequencyOf s x freq).command = s.command := by cases x <;> rfl
@[simp] theorem setFrequencyOf_response (x : Pll) (freq : Nat) : (setFrequencyOf s x freq).response = s.response := by cases x <;> rfl

/-! `setCorrectionOf` -/

@[simp] theorem setCorrectionOf_cfg (x : Pll) (ppb : BitVec 32) : (setCorrectionOf s x ppb).cfg = s.cfg := by cases x <;> rfl
@[simp] theorem setCorrectionOf_ps (x : Pll) (ppb : BitVec 32) : (setCorrectionOf s x ppb).ps = s.ps := by cases x <;> rfl
@[simp] theorem setCorrectionOf_dir (x : Pll) (ppb : BitVec 32) : (setCorrectionOf s x ppb).dir = s.dir := by cases x <;> rfl
@[simp] theorem setCorrectionOf_wait (x : Pll) (ppb : BitVec 32) : (setCorrectionOf s x ppb).wait = s.wait := by cases x <;> rfl
@[simp] theorem setCorrectionOf_tstat (x : Pll) (ppb : BitVec 32) : (setCorrectionOf s x ppb).tstat = s.tstat := by cases x <;> rfl
@[simp] theorem setCorrectionOf_seq (x : Pll) (ppb : BitVec 32) : (setCorrectionOf s x ppb).seq = s.seq := by cases x <;> rfl
@[simp] theorem setCorrectionOf_raFault (x : Pll) (ppb : BitVec 32) : (setCorrectionOf s x ppb).raFault = s.raFault := by cases x <;> rfl
@[simp] theorem setCorrectionOf_inited (x : Pll) (ppb : BitVec 32) : (setCorrectionOf s x ppb).inited = s.inited := by cases x <;> rfl
@[simp] theorem setCorrectionOf_ch0 (x : Pll) (ppb : BitVec 32) : (setCorrectionOf s x ppb).ch0 = s.ch0 := by cases x <;> rfl
@[simp] theorem setCorrectionOf_ch1 (x : Pll) (ppb : BitVec 32) : (setCorrectionOf s x ppb).ch1 = s.ch1 := by cases x <;> rfl
@[simp] theorem setCorrectionOf_ch2 (x : Pll) (ppb : BitVec 32) : (setCorrectionOf s x ppb).ch2 = s.ch2 := by cases x <;> rfl
@[simp] theorem setCorrectionOf_line (x : Pll) (ppb : BitVec 32) : (setCorrectionOf s x ppb).line = s.line := by cases x <;> rfl
@[simp] theorem setCorrectionOf_freeIndex (x : Pll) (ppb : BitVec 32) : (setCorrectionOf s x ppb).freeIndex = s.freeIndex := by cases x <;> rfl
@[simp] theorem setCorrectionOf_command (x : Pll) (ppb : BitVec 32) : (setCorrectionOf s x ppb).command = s.command := by cases x <;> rfl
@[simp] theorem setCorrectionOf_response (x : Pll) (ppb : BitVec 32) : (setCorrectionOf s x ppb).response = s.response := by cases x <;> rfl

/-! The mirrors read back -/

@[simp] theorem pllOf_setPllOf (x : Pll) (v : PllState) : pllOf (setPllOf s x v) x = v := by cases x <;> rfl

theorem pllOf_setPllOf_of_ne {x y : Pll} (h : y ≠ x) (v : PllState) : pllOf (setPllOf s x v) y = pllOf s y := by
  cases x <;> cases y <;> first | rfl | exact absurd rfl h

@[simp] theorem chOf_setChOf (i : Channel) (v : ClockChannel) : chOf (setChOf s i v) i = v := by cases i <;> rfl

theorem chOf_setChOf_of_ne {i j : Channel} (h : j ≠ i) (v : ClockChannel) : chOf (setChOf s i v) j = chOf s j := by
  cases i <;> cases j <;> first | rfl | exact absurd rfl h

@[simp] theorem chOf_setPllOf (x : Pll) (v : PllState) (i : Channel) : chOf (setPllOf s x v) i = chOf s i := by
  cases x <;> cases i <;> rfl

@[simp] theorem pllOf_setChOf (i : Channel) (v : ClockChannel) (x : Pll) : pllOf (setChOf s i v) x = pllOf s x := by
  cases i <;> cases x <;> rfl

@[simp] theorem pllOf_respond (bs : List Byte) (x : Pll) : pllOf (respond bs s) x = pllOf s x := by cases x <;> rfl

@[simp] theorem chOf_respond (bs : List Byte) (i : Channel) : chOf (respond bs s) i = chOf s i := by cases i <;> rfl

@[simp] theorem pllOf_setFrequencyOf (x : Pll) (freq : Nat) :
    pllOf (setFrequencyOf s x freq) x = { pllOf s x with frequency := BitVec.ofNat 64 freq } := by cases x <;> rfl

@[simp] theorem pllOf_setCorrectionOf (x : Pll) (ppb : BitVec 32) :
    pllOf (setCorrectionOf s x ppb) x = { pllOf s x with correctionPpb := ppb } := by cases x <;> rfl

/-! The block put back to reset leaves the lines, the chip and the configuration -/

@[simp] theorem resetBlock_cfg : (resetBlock s).cfg = s.cfg := rfl
@[simp] theorem resetBlock_tstat : (resetBlock s).tstat = hwStatus s.cfg (.ofNat 0x08) 0x00#8 := rfl
@[simp] theorem resetBlock_freeIndex : (resetBlock s).freeIndex = s.freeIndex := rfl
@[simp] theorem resetBlock_events : (resetBlock s).line.events = s.line.events := by unfold resetBlock; dsimp only; split <;> rfl
@[simp] theorem resetBlock_rm : (resetBlock s).line.rm = s.line.rm := by unfold resetBlock; dsimp only; split <;> rfl
@[simp] theorem resetBlock_rp : (resetBlock s).line.rp = s.line.rp := by unfold resetBlock; dsimp only; split <;> rfl
@[simp] theorem resetBlock_busOpen : (resetBlock s).line.busOpen = s.line.busOpen := by
  unfold resetBlock; dsimp only; split <;> rfl
@[simp] theorem resetBlock_mode : (resetBlock s).line.mode = s.line.mode := by unfold resetBlock; dsimp only; split <;> rfl


/-! `emit` -/

@[simp] theorem emit_answers (e : LineEvent) : (emit e l).answers = l.answers := rfl
@[simp] theorem emit_events (e : LineEvent) : (emit e l).events = l.events ++ [e] := rfl
@[simp] theorem emit_rm (e : LineEvent) : (emit e l).rm = l.rm := rfl
@[simp] theorem emit_rp (e : LineEvent) : (emit e l).rp = l.rp := rfl
@[simp] theorem emit_busOpen (e : LineEvent) : (emit e l).busOpen = l.busOpen := rfl
@[simp] theorem emit_mode (e : LineEvent) : (emit e l).mode = l.mode := rfl

/-! `popAnswer` -/

@[simp] theorem popAnswer_answers : (popAnswer l).answers = l.answers.tail := rfl
@[simp] theorem popAnswer_events : (popAnswer l).events = l.events := rfl
@[simp] theorem popAnswer_rm : (popAnswer l).rm = l.rm := rfl
@[simp] theorem popAnswer_rp : (popAnswer l).rp = l.rp := rfl
@[simp] theorem popAnswer_busOpen : (popAnswer l).busOpen = l.busOpen := rfl
@[simp] theorem popAnswer_mode : (popAnswer l).mode = l.mode := rfl

/-! `closeBus` -/

@[simp] theorem closeBus_answers : (closeBus l).answers = l.answers := rfl
@[simp] theorem closeBus_events : (closeBus l).events = l.events := rfl
@[simp] theorem closeBus_rm : (closeBus l).rm = l.rm := rfl
@[simp] theorem closeBus_rp : (closeBus l).rp = l.rp := rfl
@[simp] theorem closeBus_busOpen : (closeBus l).busOpen = false := rfl
@[simp] theorem closeBus_mode : (closeBus l).mode = .none := rfl

end Sys2Proof.Machine
end

