-- ==== Sys2Proof/Laws/Status.lean ====
section
/-! SUPPORT. The raw status codes (`spec/30_encoding.md` R89): every status the environment answers is a pair of a class and a
raw code of that class, and the plain chip of `spec/92_eei_decisions.md` D29 shows the class it answers with. -/

namespace Sys2Proof.Machine

theorem noRepeat_eq_true_iff {l : List Nat} : noRepeat l = true ↔ l.Nodup := by
  induction l with
  | nil => simp [noRepeat]
  | cons a l ih => simp [noRepeat, ih]

@[simp] theorem hsClassOf_name (k : StatusClass) (data : Byte) : (hsClassOf k data).name = k := by cases k <;> rfl

@[simp] theorem hsClassOf_of_name (hs : HsClass) : hsClassOf hs.name hs.data = hs := by cases hs <;> rfl

@[simp] theorem hwStatus_code (c : Config) (code : RawCode) (data : Byte) : (hwStatus c code data).code = code := rfl

/-- R89: the class of a status is the one its code belongs to. -/
@[simp] theorem hwStatus_name (c : Config) (code : RawCode) (data : Byte) :
    (hwStatus c code data).cls.name = classOf c.statusCodes code := hsClassOf_name _ _

/-- Every answer is a pair of R89. -/
theorem reply_paired {c : Config} {l : LineEnv} {a : BusAction} {hs : HwStatus} (h : reply c l a = some hs) :
    classOf c.statusCodes hs.code = hs.cls.name := by
  unfold reply chipStatus at h
  split at h <;> cases h <;> simp

/-- With a code for each of its classes the plain chip shows the class it answers with. -/
theorem chipStatus_of_speaks {c : Config} (h : ChipSpeaks c) {hs : HsClass} (hm : hs.name ∈ spokenClasses) :
    chipStatus c hs = ⟨hs, chipCode c.statusCodes hs.name⟩ := by
  simp [chipStatus, hwStatus, h _ hm]

end Sys2Proof.Machine
end

