-- ==== Sys2Proof/Laws/Ops.lean ====
section
/-! SUPPORT. What each shared operation can do, once: the lemmas a proof about an instruction cites instead of unfolding the
operation. -/

namespace Sys2Proof.Machine

/-! ### Procedures -/

@[simp] theorem Run.bind_done {α β : Type} (a : α) (s : State) (k : α → State → Run β) :
    (Run.done a s).bind k = k a s := rfl

@[simp] theorem Run.bind_hang {α β : Type} (s : State) (k : α → State → Run β) :
    (Run.hang s : Run α).bind k = .hang s := rfl

@[simp] theorem Run.finish_done {α : Type} (a : α) (s : State) (k : α → State → State) :
    (Run.done a s).finish k = .next (k a s) := rfl

@[simp] theorem Run.finish_hang {α : Type} (s : State) (k : α → State → State) :
    (Run.hang s : Run α).finish k = .fault (.hang s) := rfl

/-- A sequence ends only if both parts end. -/
theorem Run.bind_eq_done {α β : Type} {r : Run α} {k : α → State → Run β} {b : β} {t : State}
    (h : r.bind k = .done b t) : ∃ a s, r = .done a s ∧ k a s = .done b t := by
  cases r with
  | done a s => exact ⟨a, s, rfl, h⟩
  | hang s => cases h

/-- An operation answers a next state only if its procedure ends. -/
theorem Run.finish_eq_next {α : Type} {r : Run α} {k : α → State → State} {t : State}
    (h : r.finish k = .next t) : ∃ a s, r = .done a s ∧ t = k a s := by
  cases r with
  | done a s => exact ⟨a, s, rfl, by simpa using h.symm⟩
  | hang s => cases h

/-- An operation with a valid configuration runs. -/
theorem whenConfigured_of_valid {s : State} (h : configValid s.cfg = true) (r : Result) : whenConfigured s r = r := by
  simp [whenConfigured, h]

theorem whenConfigured_eq_next {s : State} {r : Result} {t : State} (h : whenConfigured s r = .next t) :
    configValid s.cfg = true ∧ r = .next t := by
  unfold whenConfigured at h
  split at h
  · next hv => exact ⟨hv, h⟩
  · cases h

theorem whenInited_of_inited {s : State} (h : configValid s.cfg = true) (hi : s.inited = true) (r : Result) :
    whenInited s r = r := by
  simp [whenInited, whenConfigured, h, hi]

theorem whenInited_eq_next {s : State} {r : Result} {t : State} (h : whenInited s r = .next t) :
    configValid s.cfg = true ∧ s.inited = true ∧ r = .next t := by
  obtain ⟨hv, h⟩ := whenConfigured_eq_next h
  split at h
  · next hi => exact ⟨hv, hi, h⟩
  · cases h

/-! ### What a bus operation may touch -/

/-- From `s` to `t` only the transport, the layer's own bits, the lines and the free index have changed; answers were only
used up, and the map is canonical if it was. -/
structure BusOnly (s t : State) : Prop where
  cfg : t.cfg = s.cfg
  inited : t.inited = s.inited
  pllA : t.pllA = s.pllA
  pllB : t.pllB = s.pllB
  ch0 : t.ch0 = s.ch0
  ch1 : t.ch1 = s.ch1
  ch2 : t.ch2 = s.ch2
  command : t.command = s.command
  response : t.response = s.response
  answers : t.line.answers <:+ s.line.answers
  memWf : memWf s.line.rm = true → memWf t.line.rm = true

namespace BusOnly

theorem refl (s : State) : BusOnly s s :=
  ⟨rfl, rfl, rfl, rfl, rfl, rfl, rfl, rfl, rfl, List.suffix_refl _, id⟩

theorem trans {s t u : State} (h : BusOnly s t) (k : BusOnly t u) : BusOnly s u where
  cfg := k.cfg.trans h.cfg
  inited := k.inited.trans h.inited
  pllA := k.pllA.trans h.pllA
  pllB := k.pllB.trans h.pllB
  ch0 := k.ch0.trans h.ch0
  ch1 := k.ch1.trans h.ch1
  ch2 := k.ch2.trans h.ch2
  command := k.command.trans h.command
  response := k.response.trans h.response
  answers := k.answers.trans h.answers
  memWf := fun w => k.memWf (h.memWf w)

theorem mirrorsKept {s t : State} (h : BusOnly s t) : MirrorsKept s t :=
  ⟨h.cfg, h.inited, h.pllA, h.pllB, h.ch0, h.ch1, h.ch2⟩

theorem pllOf {s t : State} (h : BusOnly s t) (x : Pll) : pllOf t x = pllOf s x := by
  cases x
  · exact h.pllA
  · exact h.pllB

theorem chOf {s t : State} (h : BusOnly s t) (i : Channel) : chOf t i = chOf s i := by
  cases i
  · exact h.ch0
  · exact h.ch1
  · exact h.ch2

/-- Using up answers keeps the environment answering. -/
theorem responsive {s t : State} (h : BusOnly s t) (r : Responsive s) : Responsive t := fun hm =>
  r (h.answers.subset hm)

/-- A plain chip stays one. -/
theorem plainChip {s t : State} (h : BusOnly s t) (r : PlainChip s) : PlainChip t := by
  have := h.answers
  rw [r.1] at this
  exact ⟨List.suffix_nil.mp this, h.cfg ▸ r.2⟩

end BusOnly

/-! ### The lines -/

/-- The chip's reaction leaves the answers and the trace alone. -/
@[simp] theorem chipReact_answers (c : Config) (l : LineEnv) (a : BusAction) (hs : HsClass) :
    (chipReact c l a hs).answers = l.answers := by
  unfold chipReact
  split <;> first | rfl | (split <;> rfl)

@[simp] theorem chipReact_events (c : Config) (l : LineEnv) (a : BusAction) (hs : HsClass) :
    (chipReact c l a hs).events = l.events := by
  unfold chipReact
  split <;> first | rfl | (split <;> rfl)

/-- The chip's reaction keeps the map canonical. -/
theorem memWf_chipReact (c : Config) {l : LineEnv} (a : BusAction) (hs : HsClass) (h : memWf l.rm = true) :
    memWf (chipReact c l a hs).rm = true := by
  have hrp : l.rp.toNat < 256 := l.rp.isLt
  unfold chipReact
  split <;> first
    | exact h
    | (split <;> first | exact h | exact memWf_writeMem h hrp _)

/-- Only an acknowledged data byte in a write transaction and a byte the chip sends touch its map (R53, R54). -/
theorem chipReact_rm_eq (c : Config) (l : LineEnv) (a : BusAction) (hs : HsClass)
    (h : l.mode ≠ .wData ∨ ∀ b, a ≠ .tx b) (hr : l.mode ≠ .read ∨ a ≠ .rx) :
    (chipReact c l a hs).rm = l.rm := by
  unfold chipReact
  split <;> first
    | rfl
    | (split <;> first | rfl | simp_all)

/-! ### One question -/

/-- `ask` ends exactly when the environment answers, with that status, in the state after the answer. -/
theorem ask_eq_done {a : BusAction} {s : State} {hs : HwStatus} {t : State} :
    ask a s = .done hs t ↔ reply s.cfg s.line a = some hs ∧ t = answered a hs s := by
  unfold ask
  cases h : reply s.cfg s.line a with
  | none => simp
  | some hs' =>
    simp only [Run.done.injEq, Option.some.injEq]
    constructor
    · rintro ⟨rfl, rfl⟩; exact ⟨rfl, rfl⟩
    · rintro ⟨rfl, rfl⟩; exact ⟨rfl, rfl⟩

theorem ask_of_reply {a : BusAction} {s : State} {hs : HwStatus} (h : reply s.cfg s.line a = some hs) :
    ask a s = .done hs (answered a hs s) := ask_eq_done.mpr ⟨h, rfl⟩

/-- `ask` hangs exactly when the environment never answers, with the action on the lines and `wait` set. -/
theorem ask_of_no_reply {a : BusAction} {s : State} (h : reply s.cfg s.line a = none) : ask a s = .hang (issued a s) := by
  simp [ask, h]

theorem nextAnswer_ne_never {s : State} (h : Responsive s) : nextAnswer s.line ≠ .never := by
  unfold nextAnswer
  cases ha : s.line.answers with
  | nil => simp
  | cons x xs =>
    intro he
    simp only [List.headD_cons] at he
    exact h (by simp [ha, he])

/-- A responsive environment answers every question. -/
theorem reply_of_responsive {s : State} (h : Responsive s) (a : BusAction) : ∃ hs, reply s.cfg s.line a = some hs := by
  unfold reply
  split
  · exact ⟨_, rfl⟩
  · exact ⟨_, rfl⟩
  · next hn => exact absurd hn (nextAnswer_ne_never h)

/-- The class that the plain chip answers with is one that `ChipSpeaks` speaks of. -/
theorem chipAnswer_spoken (c : Config) (l : LineEnv) (a : BusAction) : (chipAnswer c l a).name ∈ spokenClasses := by
  unfold chipAnswer
  repeat' split
  all_goals simp [spokenClasses, HsClass.name]

/-- The plain chip answers as D29 says, with a code of the class. -/
theorem reply_of_plainChip {s : State} (h : PlainChip s) (a : BusAction) :
    reply s.cfg s.line a =
      some ⟨chipAnswer s.cfg s.line a, chipCode s.cfg.statusCodes (chipAnswer s.cfg s.line a).name⟩ := by
  simp [reply, nextAnswer, h.1, chipStatus_of_speaks h.2 (chipAnswer_spoken s.cfg s.line a)]

/-- The question that the plain chip answers. -/
theorem ask_of_plainChip {s : State} (h : PlainChip s) (a : BusAction) :
    ask a s = .done ⟨chipAnswer s.cfg s.line a, chipCode s.cfg.statusCodes (chipAnswer s.cfg s.line a).name⟩
      (answered a ⟨chipAnswer s.cfg s.line a, chipCode s.cfg.statusCodes (chipAnswer s.cfg s.line a).name⟩ s) :=
  ask_of_reply (reply_of_plainChip h a)

theorem answered_busOnly (a : BusAction) (hs : HwStatus) (s : State) : BusOnly s (answered a hs s) where
  cfg := rfl
  inited := rfl
  pllA := rfl
  pllB := rfl
  ch0 := rfl
  ch1 := rfl
  ch2 := rfl
  command := rfl
  response := rfl
  answers := by simp [List.tail_suffix]
  memWf := fun h => memWf_chipReact _ _ _ h

/-! ### Stop, recovery, the fault reaction -/

/-- `stop()` ends unless the environment never confirms (R158). -/
theorem callStop_of_answer {s : State} (h : nextAnswer s.line ≠ .never) : callStop s = .done () (stopDone s) := by
  simp [callStop, h]

theorem callStop_of_never {s : State} (h : nextAnswer s.line = .never) : callStop s = .hang (stopping s) := by
  simp [callStop, h]

theorem callStop_eq_done {s t : State} (h : callStop s = .done () t) : nextAnswer s.line ≠ .never ∧ t = stopDone s := by
  unfold callStop at h
  split at h
  · cases h
  · next hn => exact ⟨hn, by cases h; rfl⟩

theorem stopDone_busOnly (s : State) : BusOnly s (stopDone s) where
  cfg := rfl
  inited := rfl
  pllA := rfl
  pllB := rfl
  ch0 := rfl
  ch1 := rfl
  ch2 := rfl
  command := rfl
  response := rfl
  answers := List.tail_suffix _
  memWf := id

theorem lockRecovery_busOnly (s : State) : BusOnly s (lockRecovery s) where
  cfg := rfl
  inited := rfl
  pllA := rfl
  pllB := rfl
  ch0 := rfl
  ch1 := rfl
  ch2 := rfl
  command := rfl
  response := rfl
  answers := List.suffix_refl _
  memWf := id

/-- The state after the reaction of a cause (R231, R242): a stop, a lock recovery, or nothing. -/
def afterReaction : Cause → State → State
  | .nack, s => stopDone s
  | .arbitrationLoss, s => lockRecovery s
  | .busFault, s => lockRecovery s
  | .protocolViolation, s => s

/-- Taking a fault ends with its status, in the state after its reaction; only the stop of a NACK can hang (R243). -/
theorem takeFault_eq_done {cause : Cause} {hs : HwStatus} {s : State} {st : Status} {t : State}
    (h : takeFault cause hs s = .done st t) : st = .fault cause hs ∧ t = afterReaction cause s := by
  cases cause with
  | nack =>
    obtain ⟨_, u, hu, h⟩ := Run.bind_eq_done h
    obtain ⟨-, rfl⟩ := callStop_eq_done hu
    cases h; exact ⟨rfl, rfl⟩
  | arbitrationLoss => cases h; exact ⟨rfl, rfl⟩
  | busFault => cases h; exact ⟨rfl, rfl⟩
  | protocolViolation => cases h; exact ⟨rfl, rfl⟩

theorem takeFault_of_answer {s : State} (h : nextAnswer s.line ≠ .never) (cause : Cause) (hs : HwStatus) :
    takeFault cause hs s = .done (.fault cause hs) (afterReaction cause s) := by
  cases cause <;> simp [takeFault, callStop_of_answer h, afterReaction]

theorem afterReaction_busOnly (cause : Cause) (s : State) : BusOnly s (afterReaction cause s) := by
  cases cause
  · exact stopDone_busOnly s
  · exact lockRecovery_busOnly s
  · exact lockRecovery_busOnly s
  · exact BusOnly.refl s

/-! ### The transport calls -/

/-- The transport part of `start` after an answer (R152, R154). -/
def startAfter (hs : HwStatus) (s : State) : Status × State :=
  match startFault hs.cls with
  | none => (.ok, { answered .start hs s with ps := .started, dir := .none })
  | some cause => (.fault cause hs, afterReaction cause (answered .start hs s))

/-- What `start()` does, if it returns. -/
theorem callStart_eq_done {s : State} {st : Status} {t : State} (h : callStart s = .done st t) :
    ∃ hs, reply s.cfg s.line .start = some hs ∧ (st, t) = startAfter hs s := by
  obtain ⟨hs, u, hu, h⟩ := Run.bind_eq_done h
  obtain ⟨hr, rfl⟩ := ask_eq_done.mp hu
  refine ⟨hs, hr, ?_⟩
  unfold startAfter
  cases hf : startFault hs.cls with
  | none => simp only [hf] at h; cases h; rfl
  | some cause =>
    simp only [hf] at h
    obtain ⟨rfl, rfl⟩ := takeFault_eq_done h
    rfl

/-- The transport part of `send_address` after an answer (R152, R155). -/
def addressAfter (addr7 : BitVec 7) (read : Bool) (hs : HwStatus) (s : State) : Status × State :=
  let u := answered (.address (addressByte s.cfg addr7 read)) hs s
  match addressFault read hs.cls with
  | none => (.ok, { u with ps := .addressed, dir := if read then .read else .write })
  | some cause => (.fault cause hs, afterReaction cause u)

/-- What `send_address` does, if it returns. -/
theorem callAddress_eq_done {addr7 : BitVec 7} {read : Bool} {s : State} {st : Status} {t : State}
    (h : callAddress addr7 read s = .done st t) :
    ∃ hs, reply s.cfg s.line (.address (addressByte s.cfg addr7 read)) = some hs ∧
      (st, t) = addressAfter addr7 read hs s := by
  obtain ⟨hs, u, hu, h⟩ := Run.bind_eq_done h
  obtain ⟨hr, rfl⟩ := ask_eq_done.mp hu
  refine ⟨hs, hr, ?_⟩
  unfold addressAfter
  cases hf : addressFault read hs.cls with
  | none => simp only [hf] at h ⊢; cases h; rfl
  | some cause =>
    simp only [hf] at h ⊢
    obtain ⟨rfl, rfl⟩ := takeFault_eq_done h
    rfl

/-- The transport part of `send_byte` after an answer (R152, R156). -/
def sendAfter (b : Byte) (hs : HwStatus) (s : State) : Status × State :=
  match txFault hs.cls with
  | none => (.ok, { answered (.tx b) hs s with ps := .data })
  | some cause => (.fault cause hs, afterReaction cause (answered (.tx b) hs s))

/-- What `send_byte` does, if it returns. -/
theorem callSend_eq_done {b : Byte} {s : State} {st : Status} {t : State} (h : callSend b s = .done st t) :
    ∃ hs, reply s.cfg s.line (.tx b) = some hs ∧ (st, t) = sendAfter b hs s := by
  obtain ⟨hs, u, hu, h⟩ := Run.bind_eq_done h
  obtain ⟨hr, rfl⟩ := ask_eq_done.mp hu
  refine ⟨hs, hr, ?_⟩
  unfold sendAfter
  cases hf : txFault hs.cls with
  | none => simp only [hf] at h; cases h; rfl
  | some cause =>
    simp only [hf] at h
    obtain ⟨rfl, rfl⟩ := takeFault_eq_done h
    rfl

/-- The transport part of `receive_byte` after an answer (R152, R157): on a fault a free byte is drawn. -/
def receiveAfter (hs : HwStatus) (s : State) : (Byte × Status) × State :=
  match rxOutcome hs.cls with
  | .ok v => ((v, .ok), { answered .rx hs s with ps := .data })
  | .error cause =>
    ((Config.anyByte s.freeIndex, .fault cause hs), afterReaction cause (drawByte (answered .rx hs s)).2)

/-- What `receive_byte` does, if it returns. -/
theorem callReceive_eq_done {s : State} {r : Byte × Status} {t : State} (h : callReceive s = .done r t) :
    ∃ hs, reply s.cfg s.line .rx = some hs ∧ (r, t) = receiveAfter hs s := by
  obtain ⟨hs, u, hu, h⟩ := Run.bind_eq_done h
  obtain ⟨hr, rfl⟩ := ask_eq_done.mp hu
  refine ⟨hs, hr, ?_⟩
  unfold receiveAfter
  cases hf : rxOutcome hs.cls with
  | ok v => simp only [hf] at h; cases h; rfl
  | error cause =>
    simp only [hf] at h
    obtain ⟨st, u, hu, h⟩ := Run.bind_eq_done h
    obtain ⟨rfl, rfl⟩ := takeFault_eq_done hu
    cases h; rfl

theorem drawByte_busOnly (s : State) : BusOnly s (drawByte s).2 :=
  ⟨rfl, rfl, rfl, rfl, rfl, rfl, rfl, rfl, rfl, List.suffix_refl _, id⟩

theorem startAfter_busOnly (hs : HwStatus) (s : State) : BusOnly s (startAfter hs s).2 := by
  have h := answered_busOnly .start hs s
  unfold startAfter
  cases startFault hs.cls with
  | none => exact ⟨h.1, h.2, h.3, h.4, h.5, h.6, h.7, h.8, h.9, h.10, h.11⟩
  | some cause => exact h.trans (afterReaction_busOnly cause _)

theorem addressAfter_busOnly (addr7 : BitVec 7) (read : Bool) (hs : HwStatus) (s : State) :
    BusOnly s (addressAfter addr7 read hs s).2 := by
  have h := answered_busOnly (.address (addressByte s.cfg addr7 read)) hs s
  unfold addressAfter
  cases addressFault read hs.cls with
  | none => exact ⟨h.1, h.2, h.3, h.4, h.5, h.6, h.7, h.8, h.9, h.10, h.11⟩
  | some cause => exact h.trans (afterReaction_busOnly cause _)

theorem sendAfter_busOnly (b : Byte) (hs : HwStatus) (s : State) : BusOnly s (sendAfter b hs s).2 := by
  have h := answered_busOnly (.tx b) hs s
  unfold sendAfter
  cases txFault hs.cls with
  | none => exact ⟨h.1, h.2, h.3, h.4, h.5, h.6, h.7, h.8, h.9, h.10, h.11⟩
  | some cause => exact h.trans (afterReaction_busOnly cause _)

theorem receiveAfter_busOnly (hs : HwStatus) (s : State) : BusOnly s (receiveAfter hs s).2 := by
  have h := answered_busOnly .rx hs s
  unfold receiveAfter
  cases rxOutcome hs.cls with
  | ok v => exact ⟨h.1, h.2, h.3, h.4, h.5, h.6, h.7, h.8, h.9, h.10, h.11⟩
  | error cause => exact (h.trans (drawByte_busOnly _)).trans (afterReaction_busOnly cause _)

/-- After an answer from a responsive environment the next question is answered too. -/
theorem responsive_answered {s : State} (h : Responsive s) (a : BusAction) (hs : HwStatus) :
    Responsive (answered a hs s) := (answered_busOnly a hs s).responsive h

theorem callStart_of_responsive {s : State} (h : Responsive s) :
    ∃ hs, reply s.cfg s.line .start = some hs ∧ callStart s = .done (startAfter hs s).1 (startAfter hs s).2 := by
  obtain ⟨hs, hr⟩ := reply_of_responsive h .start
  refine ⟨hs, hr, ?_⟩
  have hn := nextAnswer_ne_never (responsive_answered h .start hs)
  unfold callStart startAfter
  rw [ask_of_reply hr]
  cases hf : startFault hs.cls <;> simp [takeFault_of_answer hn, hf]

theorem callAddress_of_responsive {s : State} (h : Responsive s) (addr7 : BitVec 7) (read : Bool) :
    ∃ hs, reply s.cfg s.line (.address (addressByte s.cfg addr7 read)) = some hs ∧
      callAddress addr7 read s = .done (addressAfter addr7 read hs s).1 (addressAfter addr7 read hs s).2 := by
  obtain ⟨hs, hr⟩ := reply_of_responsive h (.address (addressByte s.cfg addr7 read))
  refine ⟨hs, hr, ?_⟩
  have hn := nextAnswer_ne_never (responsive_answered h (.address (addressByte s.cfg addr7 read)) hs)
  unfold callAddress addressAfter
  rw [ask_of_reply hr]
  cases hf : addressFault read hs.cls <;> simp [takeFault_of_answer hn, hf]

theorem callSend_of_responsive {s : State} (h : Responsive s) (b : Byte) :
    ∃ hs, reply s.cfg s.line (.tx b) = some hs ∧ callSend b s = .done (sendAfter b hs s).1 (sendAfter b hs s).2 := by
  obtain ⟨hs, hr⟩ := reply_of_responsive h (.tx b)
  refine ⟨hs, hr, ?_⟩
  have hn := nextAnswer_ne_never (responsive_answered h (.tx b) hs)
  unfold callSend sendAfter
  rw [ask_of_reply hr]
  cases hf : txFault hs.cls <;> simp [takeFault_of_answer hn, hf]

theorem callReceive_of_responsive {s : State} (h : Responsive s) :
    ∃ hs, reply s.cfg s.line .rx = some hs ∧ callReceive s = .done (receiveAfter hs s).1 (receiveAfter hs s).2 := by
  obtain ⟨hs, hr⟩ := reply_of_responsive h .rx
  refine ⟨hs, hr, ?_⟩
  have hn : nextAnswer (drawByte (answered .rx hs s)).2.line ≠ .never :=
    nextAnswer_ne_never (responsive_answered h .rx hs)
  unfold callReceive receiveAfter
  rw [ask_of_reply hr]
  cases hf : rxOutcome hs.cls with
  | ok v => simp [hf]
  | error cause => simp [takeFault_of_answer hn, hf]; rfl

/-! ### The call lists of the Register Access Layer -/

theorem runCall_busOnly {c : TransportCall} {s : State} {st : Status} {t : State} (h : runCall c s = .done st t) :
    BusOnly s t := by
  cases c with
  | start =>
    obtain ⟨hs, -, he⟩ := callStart_eq_done h
    rw [show t = (startAfter hs s).2 from congrArg Prod.snd he]
    exact startAfter_busOnly hs s
  | address read =>
    obtain ⟨hs, -, he⟩ := callAddress_eq_done h
    rw [show t = (addressAfter s.cfg.chipAddr read hs s).2 from congrArg Prod.snd he]
    exact addressAfter_busOnly _ _ hs s
  | byte b =>
    obtain ⟨hs, -, he⟩ := callSend_eq_done h
    rw [show t = (sendAfter b hs s).2 from congrArg Prod.snd he]
    exact sendAfter_busOnly b hs s
  | stop =>
    obtain ⟨_, u, hu, h⟩ := Run.bind_eq_done h
    obtain ⟨-, rfl⟩ := callStop_eq_done hu
    cases h
    exact stopDone_busOnly s

theorem runCall_of_responsive {s : State} (h : Responsive s) (c : TransportCall) : ∃ st t, runCall c s = .done st t := by
  cases c with
  | start => obtain ⟨hs, -, he⟩ := callStart_of_responsive h; exact ⟨_, _, he⟩
  | address read => obtain ⟨hs, -, he⟩ := callAddress_of_responsive h s.cfg.chipAddr read; exact ⟨_, _, he⟩
  | byte b => obtain ⟨hs, -, he⟩ := callSend_of_responsive h b; exact ⟨_, _, he⟩
  | stop => exact ⟨.ok, stopDone s, by simp [runCall, callStop_of_answer (nextAnswer_ne_never h)]⟩

theorem latch_busOnly (st : Status) (s : State) : BusOnly s (latch st s) :=
  ⟨rfl, rfl, rfl, rfl, rfl, rfl, rfl, rfl, rfl, List.suffix_refl _, id⟩

theorem raBegin_busOnly (s : State) : BusOnly s (raBegin s) :=
  ⟨rfl, rfl, rfl, rfl, rfl, rfl, rfl, rfl, rfl, List.suffix_refl _, id⟩

theorem raEnd_busOnly (s : State) : BusOnly s (raEnd s) :=
  ⟨rfl, rfl, rfl, rfl, rfl, rfl, rfl, rfl, rfl, List.suffix_refl _, id⟩

@[simp] theorem runCalls_nil (s : State) : runCalls [] s = .done () s := rfl

theorem runCalls_cons (c : TransportCall) (cs : List TransportCall) (s : State) :
    runCalls (c :: cs) s = (runCall c s).bind fun st s => runCalls cs (latch st s) := rfl

/-- A list of calls runs as its parts do, one after the other. -/
theorem runCalls_append (cs ds : List TransportCall) (s : State) :
    runCalls (cs ++ ds) s = (runCalls cs s).bind fun _ s => runCalls ds s := by
  induction cs generalizing s with
  | nil => rfl
  | cons c cs ih =>
    simp only [List.cons_append, runCalls_cons]
    cases runCall c s with
    | done st t => exact ih _
    | hang t => rfl

theorem runCalls_busOnly {cs : List TransportCall} {s : State} {t : State} (h : runCalls cs s = .done () t) :
    BusOnly s t := by
  induction cs generalizing s with
  | nil => cases h; exact BusOnly.refl _
  | cons c cs ih =>
    obtain ⟨st, u, hu, h⟩ := Run.bind_eq_done h
    exact ((runCall_busOnly hu).trans (latch_busOnly st u)).trans (ih h)

theorem runCalls_of_responsive {s : State} (h : Responsive s) (cs : List TransportCall) :
    ∃ t, runCalls cs s = .done () t := by
  induction cs generalizing s with
  | nil => exact ⟨s, rfl⟩
  | cons c cs ih =>
    obtain ⟨st, u, hu⟩ := runCall_of_responsive h c
    have hb := (runCall_busOnly hu).trans (latch_busOnly st u)
    obtain ⟨t, ht⟩ := ih (hb.responsive h)
    exact ⟨t, by rw [runCalls_cons, hu]; exact ht⟩

/-- A call list that ends with `stop` leaves the transport idle and the lines closed (R187 (a)). -/
theorem runCalls_stop_idle {cs : List TransportCall} {s t : State} (h : runCalls (cs ++ [.stop]) s = .done () t) :
    t.ps = .idle ∧ t.dir = .none ∧ t.wait = .none ∧ LinesClosed t := by
  rw [runCalls_append] at h
  obtain ⟨_, u, -, h⟩ := Run.bind_eq_done h
  simp only [runCalls_cons, runCalls_nil] at h
  obtain ⟨st, v, hv, h⟩ := Run.bind_eq_done h
  obtain ⟨_, w, hw, hv⟩ := Run.bind_eq_done hv
  obtain ⟨-, rfl⟩ := callStop_eq_done hw
  cases hv
  cases h
  exact ⟨rfl, rfl, rfl, rfl, rfl⟩

/-- A write of the layer leaves everything but the bus alone and the transport idle. -/
theorem writeRegs_frame {addr : Byte} {values : List Byte} {s t : State} (h : writeRegs addr values s = .done () t) :
    BusOnly s t ∧ TransportIdle t ∧ LinesClosed t := by
  obtain ⟨_, u, hu, h⟩ := Run.bind_eq_done h
  cases h
  have hi := runCalls_stop_idle hu
  exact ⟨((raBegin_busOnly s).trans (runCalls_busOnly hu)).trans (raEnd_busOnly u), ⟨hi.1, hi.2.1, hi.2.2.1, rfl⟩, hi.2.2.2⟩

theorem writeRegs_of_responsive {s : State} (h : Responsive s) (addr : Byte) (values : List Byte) :
    ∃ t, writeRegs addr values s = .done () t := by
  obtain ⟨t, ht⟩ := runCalls_of_responsive ((raBegin_busOnly s).responsive h) (writeCalls addr values)
  exact ⟨raEnd t, by rw [writeRegs, ht]; rfl⟩

theorem callReceive_busOnly {s : State} {r : Byte × Status} {t : State} (h : callReceive s = .done r t) : BusOnly s t := by
  obtain ⟨hs, -, he⟩ := callReceive_eq_done h
  rw [show t = (receiveAfter hs s).2 from congrArg Prod.snd he]
  exact receiveAfter_busOnly hs s

/-- What `read_reg` returns leaves all but the count of free bytes as it is. -/
theorem readValue_snd (r : Byte × Status) (s : State) : (readValue r s).2 = s ∨ (readValue r s).2 = (drawByte s).2 := by
  unfold readValue
  split
  · exact .inr rfl
  · exact .inl rfl

/-- A read of the layer leaves everything but the bus alone and the transport idle. -/
theorem readReg_frame {addr v : Byte} {s t : State} (h : readReg addr s = .done v t) :
    BusOnly s t ∧ TransportIdle t ∧ LinesClosed t := by
  obtain ⟨_, u, hu, h⟩ := Run.bind_eq_done h
  obtain ⟨r, w, hw, h⟩ := Run.bind_eq_done h
  obtain ⟨_, x, hx, h⟩ := Run.bind_eq_done h
  cases h
  have hi := runCalls_stop_idle (cs := []) hx
  have hb := (((raBegin_busOnly s).trans (runCalls_busOnly hu)).trans (callReceive_busOnly hw)).trans
    ((latch_busOnly _ w).trans (runCalls_busOnly hx))
  obtain hv | hv := readValue_snd r x <;> rw [hv]
  · exact ⟨hb.trans (raEnd_busOnly x), ⟨hi.1, hi.2.1, hi.2.2.1, rfl⟩, hi.2.2.2⟩
  · exact ⟨(hb.trans (drawByte_busOnly x)).trans (raEnd_busOnly _), ⟨hi.1, hi.2.1, hi.2.2.1, rfl⟩, hi.2.2.2⟩

theorem readReg_of_responsive {s : State} (h : Responsive s) (addr : Byte) : ∃ v t, readReg addr s = .done v t := by
  have h0 := (raBegin_busOnly s).responsive h
  obtain ⟨u, hu⟩ := runCalls_of_responsive h0 (readCalls addr)
  have h1 := (runCalls_busOnly hu).responsive h0
  obtain ⟨hs, -, hw⟩ := callReceive_of_responsive h1
  have h2 := ((callReceive_busOnly hw).trans (latch_busOnly (receiveAfter hs u).1.2 _)).responsive h1
  obtain ⟨x, hx⟩ := runCalls_of_responsive h2 [.stop]
  exact ⟨_, _, by simp [readReg, hu, hw, hx]; exact ⟨rfl, rfl⟩⟩

/-- A masked update leaves everything but the bus alone and the transport idle. -/
theorem updateReg_frame {addr mask value : Byte} {s t : State} (h : updateReg addr mask value s = .done () t) :
    BusOnly s t ∧ TransportIdle t ∧ LinesClosed t := by
  obtain ⟨old, u, hu, h⟩ := Run.bind_eq_done h
  obtain ⟨_, w, hw, h⟩ := Run.bind_eq_done h
  cases h
  have hf := writeRegs_frame hw
  have hb := (readReg_frame hu).1.trans hf.1
  exact ⟨⟨hb.1, hb.2, hb.3, hb.4, hb.5, hb.6, hb.7, hb.8, hb.9, hb.10, hb.11⟩, hf.2⟩

theorem updateReg_of_responsive {s : State} (h : Responsive s) (addr mask value : Byte) :
    ∃ t, updateReg addr mask value s = .done () t := by
  obtain ⟨old, u, hu⟩ := readReg_of_responsive h addr
  obtain ⟨w, hw⟩ := writeRegs_of_responsive ((readReg_frame hu).1.responsive h) addr [mergeMasked old mask value]
  exact ⟨_, by rw [updateReg, hu]; simp only [Run.bind_done]; rw [hw]; rfl⟩

/-! ### The controller's lists -/

theorem runRaOp_frame {o : RaOp} {s t : State} (h : runRaOp o s = .done () t) :
    BusOnly s t ∧ TransportIdle t ∧ LinesClosed t := by
  cases o with
  | write addr values => exact writeRegs_frame h
  | update addr mask value => exact updateReg_frame h

theorem runRaOp_of_responsive {s : State} (h : Responsive s) (o : RaOp) : ∃ t, runRaOp o s = .done () t := by
  cases o with
  | write addr values => exact writeRegs_of_responsive h addr values
  | update addr mask value => exact updateReg_of_responsive h addr mask value

theorem runRaOps_cons (o : RaOp) (os : List RaOp) (s : State) :
    runRaOps (o :: os) s = (runRaOp o s).bind fun _ s =>
      (runRaOps os s).bind fun later t => .done (s.raFault || later) t := rfl

/-- A controller list leaves everything but the bus alone. -/
theorem runRaOps_busOnly {os : List RaOp} {s : State} {f : Bool} {t : State} (h : runRaOps os s = .done f t) :
    BusOnly s t := by
  induction os generalizing s f with
  | nil => cases h; exact BusOnly.refl _
  | cons o os ih =>
    obtain ⟨_, u, hu, h⟩ := Run.bind_eq_done h
    obtain ⟨g, w, hw, h⟩ := Run.bind_eq_done h
    cases h
    exact (runRaOp_frame hu).1.trans (ih hw)

/-- A controller list with at least one operation leaves the transport idle and the lines closed. -/
theorem runRaOps_idle {os : List RaOp} {s : State} {f : Bool} {t : State} (hne : os ≠ []) (h : runRaOps os s = .done f t) :
    TransportIdle t ∧ LinesClosed t := by
  induction os generalizing s f with
  | nil => exact absurd rfl hne
  | cons o os ih =>
    obtain ⟨_, u, hu, h⟩ := Run.bind_eq_done h
    obtain ⟨g, w, hw, h⟩ := Run.bind_eq_done h
    cases h
    cases os with
    | nil => cases hw; exact (runRaOp_frame hu).2
    | cons p ps => exact ih (List.cons_ne_nil p ps) hw

theorem runRaOps_of_responsive {s : State} (h : Responsive s) (os : List RaOp) : ∃ f t, runRaOps os s = .done f t := by
  induction os generalizing s with
  | nil => exact ⟨false, s, rfl⟩
  | cons o os ih =>
    obtain ⟨u, hu⟩ := runRaOp_of_responsive h o
    obtain ⟨g, w, hw⟩ := ih ((runRaOp_frame hu).1.responsive h)
    exact ⟨u.raFault || g, w, by rw [runRaOps_cons, hu]; simp only [Run.bind_done]; rw [hw]; rfl⟩

end Sys2Proof.Machine
end

