-- ==== Sys2Proof/Laws/Chip.lean ====
section
/-! SUPPORT. The Register Access Layer against the plain chip of `spec/92_eei_decisions.md` D29: the one state a write, a read
and a masked update end in, and what a list of them does to the remote map. -/

namespace Sys2Proof.Machine

/-! ### The address byte -/

theorem deviceOf_addressByte (c : Config) (addr7 : BitVec 7) (read : Bool) :
    deviceOf (addressByte c addr7 read) = addr7 := by
  have h : ∀ (a : BitVec 7) (b : BitVec 1), (a ++ b).extractLsb' 1 7 = a := by decide
  exact h addr7 (rwBit c read)

theorem addressByte_bit0 (c : Config) (addr7 : BitVec 7) (read : Bool) :
    (addressByte c addr7 read).getLsbD 0 = (read == c.rwReadValue) := by
  have h : ∀ (a : BitVec 7) (b : BitVec 1), (a ++ b).getLsbD 0 = b.getLsbD 0 := by decide
  rw [addressByte, h, rwBit]
  cases read <;> cases c.rwReadValue <;> rfl

theorem asksRead_addressByte (c : Config) (addr7 : BitVec 7) (read : Bool) :
    asksRead c (addressByte c addr7 read) = read := by
  rw [asksRead, addressByte_bit0]
  cases read <;> cases c.rwReadValue <;> rfl

theorem modeAfterAck_addressByte (c : Config) (l : LineEnv) (addr7 : BitVec 7) (read : Bool) :
    modeAfterAck c l (addressByte c addr7 read) read =
      if l.busOpen ∧ addr7 = c.chipAddr then (if read then .read else .wFirst) else .none := by
  simp [modeAfterAck, deviceOf_addressByte, asksRead_addressByte]

/-! ### Consecutive bytes -/

theorem memWf_writeBytes {m : Memory} (h : memWf m = true) (a : Byte) (vs : List Byte) :
    memWf (writeBytes m a vs) = true := by
  induction vs generalizing m a with
  | nil => exact h
  | cons v vs ih => exact ih (memWf_writeMem h a.isLt v) _

theorem toNat_add_one (a : Byte) : (a + 1#8).toNat = (a.toNat + 1) % 256 := by simp [BitVec.toNat_add]

theorem addrsFrom_succ (a : Byte) (n : Nat) : addrsFrom a (n + 1) = a.toNat :: addrsFrom (a + 1#8) n := by
  simp only [addrsFrom, List.range_succ_eq_map, List.map_cons, List.map_map]
  refine List.cons_eq_cons.mpr ⟨Nat.mod_eq_of_lt a.isLt, List.map_congr_left fun i _ => ?_⟩
  simp only [Function.comp_apply, toNat_add_one, Nat.succ_eq_add_one]
  omega

theorem mem_addrsFrom {x : Nat} {a : Byte} {n : Nat} : x ∈ addrsFrom a n ↔ ∃ i, i < n ∧ (a.toNat + i) % 256 = x := by
  simp [addrsFrom]

/-- Every byte outside the written addresses reads as before. -/
theorem readMem_writeBytes_other (m : Memory) (a : Byte) (vs : List Byte) {x : Nat} (h : x ∉ addrsFrom a vs.length) :
    readMem (writeBytes m a vs) x = readMem m x := by
  induction vs generalizing m a with
  | nil => rfl
  | cons v vs ih =>
    rw [List.length_cons, addrsFrom_succ, List.mem_cons, not_or] at h
    rw [writeBytes, ih _ _ h.2, readMem_writeMem_other _ h.1]

/-- The i-th written byte reads back at the i-th address. -/
theorem readMem_writeBytes_at {m : Memory} (hm : memWf m = true) (a : Byte) (vs : List Byte) (hl : vs.length ≤ 256)
    (i : Nat) (h : i < vs.length) : readMem (writeBytes m a vs) ((a.toNat + i) % 256) = vs[i] := by
  induction vs generalizing m a i with
  | nil => simp at h
  | cons v vs ih =>
    simp only [List.length_cons] at hl h
    have ha := a.isLt
    cases i with
    | zero =>
      rw [writeBytes, readMem_writeBytes_other]
      · rw [Nat.add_zero, Nat.mod_eq_of_lt (by omega)]
        exact readMem_writeMem_same hm _ _
      · rw [mem_addrsFrom]
        rintro ⟨j, hj, he⟩
        rw [toNat_add_one] at he
        omega
    | succ i =>
      have := ih (memWf_writeMem hm a.isLt v) (a + 1#8) (by omega) i (by omega)
      rw [toNat_add_one] at this
      rw [writeBytes, show (a.toNat + (i + 1)) % 256 = ((a.toNat + 1) % 256 + i) % 256 by omega, this]
      rfl

/-- Writing the byte a canonical map holds anyway leaves it as it is. -/
theorem writeMem_readMem {m : Memory} (h : memWf m = true) (a : Nat) : writeMem m a (readMem m a) = m := by
  suffices H : ∀ lo, memWfFrom lo m = true → writeMem m a (readMem m a) = m from H 0 h
  clear h
  induction m with
  | nil => intro _ _; simp [writeMem, readMem, consCell]
  | cons c m ih =>
    obtain ⟨b, w⟩ := c
    intro lo hw
    simp only [memWfFrom, Bool.and_eq_true, decide_eq_true_eq, bne_iff_ne, ne_eq] at hw
    by_cases hba : b = a
    · subst hba
      simp [writeMem, readMem, consCell, hw.1.2]
    · simp only [writeMem, readMem, if_neg hba, if_neg (Ne.symm hba)]
      split
      · next hab =>
        rw [readMem_of_lt hw.2 (by omega : a < b + 1)]
        simp [consCell]
      · rw [ih _ hw.2]

/-! ### One transaction -/

/-- The classes of the codes that the plain chip shows, one by one. -/
theorem spoken {s : State} (h : PlainChip s) :
    classOf s.cfg.statusCodes (chipCode s.cfg.statusCodes .start) = .start ∧
      classOf s.cfg.statusCodes (chipCode s.cfg.statusCodes .repStart) = .repStart ∧
      classOf s.cfg.statusCodes (chipCode s.cfg.statusCodes .slaWAck) = .slaWAck ∧
      classOf s.cfg.statusCodes (chipCode s.cfg.statusCodes .slaRAck) = .slaRAck ∧
      classOf s.cfg.statusCodes (chipCode s.cfg.statusCodes .txAck) = .txAck ∧
      classOf s.cfg.statusCodes (chipCode s.cfg.statusCodes .rxDone) = .rxDone :=
  ⟨h.2 _ (by decide), h.2 _ (by decide), h.2 _ (by decide), h.2 _ (by decide), h.2 _ (by decide), h.2 _ (by decide)⟩

/-- One acknowledged data byte. -/
theorem runCall_byte_plainChip {s : State} (h : PlainChip s) (hm : s.line.mode = .wData) (b : Byte) :
    runCall (.byte b) s = .done .ok
      { s with
        wait := .none
        tstat := ⟨.txAck, chipCode s.cfg.statusCodes .txAck⟩
        ps := .data
        line := { s.line with
          answers := []
          events := s.line.events ++ [.action (.tx b)]
          rm := writeMem s.line.rm s.line.rp.toNat b
          rp := s.line.rp + 1#8 } } := by
  simp [runCall, callSend, ask, reply, nextAnswer, h.1, chipStatus, hwStatus, spoken h, HsClass.name, hsClassOf, chipAnswer, hm, txFault, answered, chipReact, popAnswer, emit]

/-- The data bytes of a write transaction land one after the other. -/
theorem runCalls_bytes_plainChip {s : State} (h : PlainChip s) (hm : s.line.mode = .wData) (hp : s.ps = .data)
    (hw : s.wait = .none) (ht : s.tstat = ⟨.txAck, chipCode s.cfg.statusCodes .txAck⟩) (vs : List Byte) :
    runCalls (vs.map .byte) s = .done ()
      { s with
        seq := s.seq.map (· + vs.length)
        line := { s.line with
          events := s.line.events ++ vs.map (fun v => .action (.tx v))
          rm := writeBytes s.line.rm s.line.rp vs
          rp := s.line.rp + BitVec.ofNat 8 vs.length } } := by
  induction vs generalizing s with
  | nil =>
    obtain ⟨cfg, ps, dir, wait, tstat, seq, raf, inited, pa, pb, c0, c1, c2, line, fi, cmd, rsp⟩ := s
    cases seq <;> simp [writeBytes]
  | cons v vs ih =>
    rw [List.map_cons, runCalls_cons, runCall_byte_plainChip h hm, Run.bind_done, ih]
    · obtain ⟨cfg, ps, dir, wait, tstat, seq, raf, inited, pa, pb, c0, c1, c2, line, fi, cmd, rsp⟩ := s
      obtain ⟨an, ev, rm, rp, bo, mo⟩ := line
      have ha := h.1
      simp only at ha hp hw ht
      subst ha hp hw ht
      have ho : rp + 1#8 + BitVec.ofNat 8 vs.length = rp + BitVec.ofNat 8 (vs.length + 1) := by
        rw [Nat.add_comm, BitVec.ofNat_add, BitVec.add_assoc]
      cases seq <;> simp [latch, writeBytes, ho, Nat.add_assoc, Nat.add_comm 1]
    · exact ⟨rfl, h.2⟩
    · exact hm
    · rfl
    · rfl
    · rfl

/-- The state a write transaction to the plain chip ends in. -/
def afterWrite (addr : Byte) (values : List Byte) (s : State) : State :=
  { s with
    ps := .idle
    dir := .none
    wait := .none
    tstat := ⟨.txAck, chipCode s.cfg.statusCodes .txAck⟩
    seq := none
    raFault := false
    line := { s.line with
      answers := []
      events := s.line.events ++ writeFrame s.cfg addr values
      rm := writeBytes s.line.rm addr values
      rp := addr + BitVec.ofNat 8 values.length
      busOpen := false
      mode := .none } }

/-- A write transaction to the plain chip stores its bytes and nothing else (R79, R183, R184). -/
theorem writeRegs_plainChip {s : State} (h : PlainChip s) (addr : Byte) (values : List Byte) :
    writeRegs addr values s = .done () (afterWrite addr values s) := by
  have hstart : runCalls [.start, .address false, .byte addr] (raBegin s) = .done ()
      { s with
        ps := .data
        dir := .write
        wait := .none
        tstat := ⟨.txAck, chipCode s.cfg.statusCodes .txAck⟩
        seq := some 3
        raFault := false
        line := { s.line with
          answers := []
          events := s.line.events ++ [.action .start, .action (.address (addressByte s.cfg s.cfg.chipAddr false)),
            .action (.tx addr)]
          rp := addr
          busOpen := true
          mode := .wData } } := by
    by_cases hb : s.line.busOpen = true <;>
      simp [runCalls_cons, runCall, callStart, callAddress, callSend, ask, reply, nextAnswer, h.1, chipStatus, hwStatus, spoken h, HsClass.name, hsClassOf, HsClass.data, chipAnswer, hb,
        deviceOf_addressByte, asksRead_addressByte, modeAfterAck_addressByte, startFault, addressFault, txFault, answered,
        chipReact, popAnswer, emit, latch, raBegin]
  rw [writeRegs, writeCalls, List.append_assoc, runCalls_append, hstart, Run.bind_done, runCalls_append,
    runCalls_bytes_plainChip, Run.bind_done]
  · simp [runCalls_cons, runCall, callStop, nextAnswer, stopDone, closeBus, popAnswer, emit, latch, raEnd, afterWrite,
    writeFrame]
  · exact ⟨rfl, h.2⟩
  all_goals rfl

/-- The state a read transaction from the plain chip ends in. -/
def afterRead (addr : Byte) (s : State) : State :=
  { s with
    ps := .idle
    dir := .none
    wait := .none
    tstat := ⟨.rxDone (readMem s.line.rm addr.toNat), chipCode s.cfg.statusCodes .rxDone⟩
    seq := none
    raFault := false
    line := { s.line with
      answers := []
      events := s.line.events ++ readFrame s.cfg addr
      rp := addr + 1#8
      busOpen := false
      mode := .none } }

/-- A read transaction from the plain chip returns the byte of the map and leaves the map as it is (R79, R181). -/
theorem readReg_plainChip {s : State} (h : PlainChip s) (hm : memWf s.line.rm = true) (addr : Byte) :
    readReg addr s = .done (readMem s.line.rm addr.toNat) (afterRead addr s) := by
  have hk := writeMem_readMem hm addr.toNat
  by_cases hb : s.line.busOpen = true <;>
    simp [readReg, readValue, readCalls, runCalls_cons, runCall, callStart, callAddress, callSend, callReceive, callStop, ask, reply,
      nextAnswer, h.1, chipStatus, hwStatus, spoken h, HsClass.name, hsClassOf, HsClass.data, chipAnswer, hb, deviceOf_addressByte, asksRead_addressByte, modeAfterAck_addressByte, startFault,
      addressFault, txFault, rxOutcome, answered, chipReact, popAnswer, emit, latch, raBegin, raEnd, stopDone, closeBus,
      afterRead, readFrame, hk]

/-- The state a masked update of the plain chip ends in. -/
def afterUpdate (addr mask value : Byte) (s : State) : State :=
  afterWrite addr [mergeMasked (readMem s.line.rm addr.toNat) mask value] (afterRead addr s)

/-- A masked update of the plain chip is a read and then a write of the merged byte (R186). -/
theorem updateReg_plainChip {s : State} (h : PlainChip s) (hm : memWf s.line.rm = true) (addr mask value : Byte) :
    updateReg addr mask value s = .done () (afterUpdate addr mask value s) := by
  rw [updateReg, readReg_plainChip h hm]
  simp only [Run.bind_done]
  rw [writeRegs_plainChip (s := afterRead addr s) ⟨rfl, h.2⟩]
  rfl

/-- R186, bit by bit. -/
theorem mergeMasked_bit (old mask value : Byte) (j : Nat) (h : j < 8) :
    (mergeMasked old mask value).getLsbD j = if mask.getLsbD j then value.getLsbD j else old.getLsbD j := by
  simp only [mergeMasked, BitVec.getLsbD_or, BitVec.getLsbD_and, BitVec.getLsbD_not]
  cases mask.getLsbD j <;> simp [h]

/-! ### Lists of operations -/

/-- The addresses an operation writes. -/
def opAddrs : RaOp → List Nat
  | .write addr values => addrsFrom addr values.length
  | .update addr _ _ => [addr.toNat]

theorem memWf_opMem {m : Memory} (h : memWf m = true) (o : RaOp) : memWf (opMem o m) = true := by
  cases o with
  | write addr values => exact memWf_writeBytes h addr values
  | update addr mask value => exact memWf_writeMem h addr.isLt _

theorem memWf_opsMem {m : Memory} (h : memWf m = true) (os : List RaOp) : memWf (opsMem os m) = true := by
  induction os generalizing m with
  | nil => exact h
  | cons o os ih => exact ih (memWf_opMem h o)

theorem opsMem_append (os ps : List RaOp) (m : Memory) : opsMem (os ++ ps) m = opsMem ps (opsMem os m) :=
  List.foldl_append

@[simp] theorem opsMem_nil (m : Memory) : opsMem [] m = m := rfl

theorem opsMem_cons (o : RaOp) (os : List RaOp) (m : Memory) : opsMem (o :: os) m = opsMem os (opMem o m) := rfl

theorem readMem_opMem_other (o : RaOp) (m : Memory) {x : Nat} (h : x ∉ opAddrs o) : readMem (opMem o m) x = readMem m x := by
  cases o with
  | write addr values => exact readMem_writeBytes_other m addr values h
  | update addr mask value => exact readMem_writeMem_other m (by simpa [opAddrs] using h) _

/-- Every byte that no operation of the list writes reads as before. -/
theorem readMem_opsMem_other (os : List RaOp) (m : Memory) {x : Nat} (h : ∀ o ∈ os, x ∉ opAddrs o) :
    readMem (opsMem os m) x = readMem m x := by
  induction os generalizing m with
  | nil => rfl
  | cons o os ih =>
    rw [opsMem_cons, ih _ fun p hp => h p (List.mem_cons_of_mem o hp),
      readMem_opMem_other o m (h o List.mem_cons_self)]

theorem runRaOp_plainChip {s : State} (h : PlainChip s) (hm : memWf s.line.rm = true) (o : RaOp) :
    ∃ t, runRaOp o s = .done () t ∧ t.raFault = false ∧ t.line.rm = opMem o s.line.rm ∧
      t.line.events = s.line.events ++ opFrames s.cfg s.line.rm o := by
  cases o with
  | write addr values => exact ⟨_, writeRegs_plainChip h addr values, rfl, rfl, rfl⟩
  | update addr mask value =>
    exact ⟨_, updateReg_plainChip h hm addr mask value, rfl, rfl, List.append_assoc s.line.events _ _⟩

/-- A controller list on the plain chip ends, with no fault in its last operation; the map is the one its operations leave,
and its frames are on the lines in order. -/
theorem runRaOps_plainChip {s : State} (h : PlainChip s) (hm : memWf s.line.rm = true) (os : List RaOp) :
    ∃ f t, runRaOps os s = .done f t ∧ BusOnly s t ∧ (os ≠ [] → t.raFault = false) ∧
      t.line.rm = opsMem os s.line.rm ∧ t.line.events = s.line.events ++ opsFrames s.cfg s.line.rm os := by
  induction os generalizing s with
  | nil => exact ⟨false, s, rfl, BusOnly.refl s, fun h => absurd rfl h, rfl, (List.append_nil _).symm⟩
  | cons o os ih =>
    obtain ⟨u, hu, hf, hrm, hev⟩ := runRaOp_plainChip h hm o
    have hb := (runRaOp_frame hu).1
    obtain ⟨g, t, ht, hbt, hft, hrt, het⟩ := ih (hb.plainChip h) (hb.memWf hm)
    refine ⟨u.raFault || g, t, by rw [runRaOps_cons, hu]; simp only [Run.bind_done]; rw [ht]; rfl, hb.trans hbt, ?_, ?_, ?_⟩
    · intro _
      cases os with
      | nil => cases ht; exact hf
      | cons p ps => exact hft (List.cons_ne_nil p ps)
    · rw [hrt, hrm]; rfl
    · rw [het, hev, hrm, hb.cfg, List.append_assoc]; rfl

/-- A list of controller operations puts its parts' frames on the lines one after the other. -/
theorem opsFrames_append (c : Config) (m : Memory) (os ps : List RaOp) :
    opsFrames c m (os ++ ps) = opsFrames c m os ++ opsFrames c (opsMem os m) ps := by
  induction os generalizing m with
  | nil => rfl
  | cons o os ih => simp only [List.cons_append, opsFrames, ih, List.append_assoc, opsMem_cons]

end Sys2Proof.Machine
end

