-- ==== Sys2Proof/Laws/Decode.lean ====
section
/-! SUPPORT. The command format (`spec/30_encoding.md` R71 to R75), operand by operand: what each reader makes of an encoded
operand, and what bytes it can have read. -/

namespace Sys2Proof

/-! ### Bytes of a number -/

@[simp] theorem beBytes_length (n v : Nat) : (beBytes n v).length = n := by
  induction n generalizing v with
  | zero => rfl
  | succ n ih => simp [beBytes, ih]

theorem beValue_append (xs : List Byte) (b : Byte) : beValue (xs ++ [b]) = beValue xs * 256 + b.toNat := by
  simp [beValue, List.foldl_append]

/-- The number read back from its bytes. -/
theorem beValue_beBytes (n v : Nat) : beValue (beBytes n v) = v % 256 ^ n := by
  induction n generalizing v with
  | zero => simp [beBytes, beValue, Nat.mod_one]
  | succ n ih =>
    have hm : v % (256 * 256 ^ n) = v % 256 + 256 * (v / 256 % 256 ^ n) := Nat.mod_mul
    rw [beBytes, beValue_append, ih, BitVec.toNat_ofNat, pow_succ' 256 n, hm]
    ring

/-- The bytes of the number that they stand for. -/
theorem beBytes_beValue (xs : List Byte) : beBytes xs.length (beValue xs) = xs := by
  induction xs using List.reverseRecOn with
  | nil => rfl
  | append_singleton xs x ih =>
    have hx := x.isLt
    rw [beValue_append, List.length_append, List.length_singleton, beBytes,
      show (beValue xs * 256 + x.toNat) / 256 = beValue xs by omega, ih]
    congr 2
    apply BitVec.eq_of_toNat_eq
    rw [BitVec.toNat_ofNat]
    omega

theorem beValue_lt (xs : List Byte) : beValue xs < 256 ^ xs.length := by
  have h := beValue_beBytes xs.length (beValue xs)
  rw [beBytes_beValue] at h
  exact (Nat.mod_eq_iff_lt (by positivity)).mp h.symm

/-! ### Taking bytes -/

theorem takeBytes_append (xs rest : List Byte) : takeBytes xs.length (xs ++ rest) = some (xs, rest) := by
  induction xs with
  | nil => rfl
  | cons x xs ih => simp [takeBytes, ih]

theorem takeBytes_eq_some {n : Nat} {bs xs rest : List Byte} (h : takeBytes n bs = some (xs, rest)) :
    xs.length = n ∧ bs = xs ++ rest := by
  induction n generalizing bs xs with
  | zero => simp only [takeBytes, Option.some.injEq, Prod.mk.injEq] at h; simp [h.1.symm, h.2]
  | succ n ih =>
    cases bs with
    | nil => simp [takeBytes] at h
    | cons b bs =>
      simp only [takeBytes] at h
      split at h
      · next ys r hy =>
        simp only [Option.some.injEq, Prod.mk.injEq] at h
        obtain ⟨rfl, rfl⟩ := h
        obtain ⟨h1, h2⟩ := ih hy
        simp [h1, h2]
      · cases h

/-! ### Reading an encoded operand -/

section
variable (rest : List Byte)

@[simp] theorem operand_beBytes (n v : Nat) (k : Nat → List Byte → Decoded) :
    operand n (beBytes n v ++ rest) k = k (v % 256 ^ n) rest := by
  have h := takeBytes_append (beBytes n v) rest
  rw [beBytes_length] at h
  simp [operand, h, beValue_beBytes]

@[simp] theorem byteOperand_cons (b : Byte) (k : Byte → List Byte → Decoded) :
    byteOperand (b :: rest) k = k b rest := by
  simp [byteOperand, operand, takeBytes, beValue]

@[simp] theorem boolOperand_boolByte (b : Bool) (k : Bool → List Byte → Decoded) :
    boolOperand (boolByte b :: rest) k = k b rest := by
  cases b <;> simp [boolOperand, boolByte]

@[simp] theorem addrOperand_setWidth (a : BitVec 7) (k : BitVec 7 → List Byte → Decoded) :
    addrOperand (a.setWidth 8 :: rest) k = k a rest := by
  have h := a.isLt
  simp [addrOperand, Nat.mod_eq_of_lt (show a.toNat < 256 by omega), show a.toNat < 128 by omega]

@[simp] theorem channelOperand_byte (c : Channel) (k : Channel → List Byte → Decoded) :
    channelOperand (c.byte :: rest) k = k c rest := by
  cases c <;> simp [channelOperand, Channel.byte]

@[simp] theorem pllOperand_byte (x : Pll) (k : Pll → List Byte → Decoded) :
    pllOperand (x.byte :: rest) k = k x rest := by
  cases x <;> simp [pllOperand, Pll.byte]

@[simp] theorem referenceOperand_byte (r : Reference) (k : Reference → List Byte → Decoded) :
    referenceOperand (r.byte :: rest) k = k r rest := by
  cases r; simp [referenceOperand, Reference.byte]

@[simp] theorem levelOperand_setWidth (l : BitVec 2) (k : BitVec 2 → List Byte → Decoded) :
    levelOperand (l.setWidth 8 :: rest) k = k l rest := by
  have h := l.isLt
  simp [levelOperand, Nat.mod_eq_of_lt (show l.toNat < 256 by omega), show l.toNat < 4 by omega]

@[simp] theorem wordOperand_beBytes (v : BitVec 32) (k : BitVec 32 → List Byte → Decoded) :
    wordOperand (beBytes 4 v.toNat ++ rest) k = k v rest := by
  rw [wordOperand, operand_beBytes, Nat.mod_eq_of_lt (by have := v.isLt; norm_num at this ⊢; exact this),
    BitVec.ofNat_toNat, BitVec.setWidth_eq]

@[simp] theorem freqOperand_beBytes (v : U64) (k : U64 → List Byte → Decoded) :
    freqOperand (beBytes 8 v.toNat ++ rest) k = k v rest := by
  rw [freqOperand, operand_beBytes, Nat.mod_eq_of_lt (by have := v.isLt; norm_num at this ⊢; exact this),
    BitVec.ofNat_toNat, BitVec.setWidth_eq]

theorem valuesOperand_length {vs : List Byte} (h : bulkLengthOk vs = true) (k : List Byte → List Byte → Decoded) :
    valuesOperand (BitVec.ofNat 8 vs.length :: (vs ++ rest)) k = k vs rest := by
  simp only [bulkLengthOk, Bool.and_eq_true, decide_eq_true_eq] at h
  rw [valuesOperand, byteOperand_cons, if_neg, BitVec.toNat_ofNat, Nat.mod_eq_of_lt (by omega), takeBytes_append]
  intro h0
  have := congrArg BitVec.toNat h0
  simp only [BitVec.toNat_ofNat] at this
  omega

end

/-! ### What was read -/

section
variable {bs rest : List Byte} {i : Instr}

theorem operand_eq_command {n : Nat} {k : Nat → List Byte → Decoded} (h : operand n bs k = .command i rest) :
    ∃ xs r, bs = xs ++ r ∧ xs.length = n ∧ k (beValue xs) r = .command i rest := by
  unfold operand at h
  split at h
  · next xs r hx => obtain ⟨h1, h2⟩ := takeBytes_eq_some hx; exact ⟨xs, r, h2, h1, h⟩
  · cases h

theorem byteOperand_eq_command {k : Byte → List Byte → Decoded} (h : byteOperand bs k = .command i rest) :
    ∃ b r, bs = b :: r ∧ k b r = .command i rest := by
  obtain ⟨xs, r, hb, hl, h⟩ := operand_eq_command h
  obtain ⟨b, rfl⟩ := List.length_eq_one_iff.mp hl
  exact ⟨b, r, hb, by simpa [beValue] using h⟩

theorem boolOperand_eq_command {k : Bool → List Byte → Decoded} (h0 : boolOperand bs k = .command i rest) :
    ∃ b r, bs = boolByte b :: r ∧ k b r = .command i rest := by
  obtain ⟨b, r, rfl, h⟩ := byteOperand_eq_command h0
  split at h
  · next hb => exact ⟨false, r, by rw [hb]; rfl, h⟩
  split at h
  · next hb => exact ⟨true, r, by rw [hb]; rfl, h⟩
  · cases h

theorem addrOperand_eq_command {k : BitVec 7 → List Byte → Decoded} (h0 : addrOperand bs k = .command i rest) :
    ∃ (a : BitVec 7) (r : List Byte), bs = BitVec.ofNat 8 a.toNat :: r ∧ k a r = .command i rest := by
  obtain ⟨b, r, rfl, h⟩ := byteOperand_eq_command h0
  split at h
  · next hb => exact ⟨_, r, by simp [Nat.mod_eq_of_lt hb], h⟩
  · cases h

theorem channelOperand_eq_command {k : Channel → List Byte → Decoded} (h0 : channelOperand bs k = .command i rest) :
    ∃ c r, bs = Channel.byte c :: r ∧ k c r = .command i rest := by
  obtain ⟨b, r, rfl, h⟩ := byteOperand_eq_command h0
  split at h
  · next hb => exact ⟨.ch0, r, by rw [hb]; rfl, h⟩
  split at h
  · next hb => exact ⟨.ch1, r, by rw [hb]; rfl, h⟩
  split at h
  · next hb => exact ⟨.ch2, r, by rw [hb]; rfl, h⟩
  · cases h

theorem pllOperand_eq_command {k : Pll → List Byte → Decoded} (h0 : pllOperand bs k = .command i rest) :
    ∃ x r, bs = Pll.byte x :: r ∧ k x r = .command i rest := by
  obtain ⟨b, r, rfl, h⟩ := byteOperand_eq_command h0
  split at h
  · next hb => exact ⟨.a, r, by rw [hb]; rfl, h⟩
  split at h
  · next hb => exact ⟨.b, r, by rw [hb]; rfl, h⟩
  · cases h

theorem referenceOperand_eq_command {k : Reference → List Byte → Decoded} (h0 : referenceOperand bs k = .command i rest) :
    ∃ x r, bs = Reference.byte x :: r ∧ k x r = .command i rest := by
  obtain ⟨b, r, rfl, h⟩ := byteOperand_eq_command h0
  split at h
  · next hb => exact ⟨.crystal, r, by rw [hb]; rfl, h⟩
  · cases h

theorem levelOperand_eq_command {k : BitVec 2 → List Byte → Decoded} (h0 : levelOperand bs k = .command i rest) :
    ∃ (l : BitVec 2) (r : List Byte), bs = BitVec.ofNat 8 l.toNat :: r ∧ k l r = .command i rest := by
  obtain ⟨b, r, rfl, h⟩ := byteOperand_eq_command h0
  split at h
  · next hb => exact ⟨_, r, by simp [Nat.mod_eq_of_lt hb], h⟩
  · cases h

theorem wordOperand_eq_command {k : BitVec 32 → List Byte → Decoded} (h0 : wordOperand bs k = .command i rest) :
    ∃ (v : BitVec 32) (r : List Byte), bs = beBytes 4 v.toNat ++ r ∧ k v r = .command i rest := by
  obtain ⟨xs, r, rfl, hl, h⟩ := operand_eq_command h0
  refine ⟨_, r, ?_, h⟩
  have h1 := beBytes_beValue xs
  have h2 := beValue_lt xs
  rw [hl] at h1 h2
  rw [BitVec.toNat_ofNat, Nat.mod_eq_of_lt (by norm_num at h2 ⊢; exact h2), h1]

theorem freqOperand_eq_command {k : U64 → List Byte → Decoded} (h0 : freqOperand bs k = .command i rest) :
    ∃ (v : U64) (r : List Byte), bs = beBytes 8 v.toNat ++ r ∧ k v r = .command i rest := by
  obtain ⟨xs, r, rfl, hl, h⟩ := operand_eq_command h0
  refine ⟨_, r, ?_, h⟩
  have h1 := beBytes_beValue xs
  have h2 := beValue_lt xs
  rw [hl] at h1 h2
  rw [BitVec.toNat_ofNat, Nat.mod_eq_of_lt (by norm_num at h2 ⊢; exact h2), h1]

theorem valuesOperand_eq_command {k : List Byte → List Byte → Decoded} (h0 : valuesOperand bs k = .command i rest) :
    ∃ vs r, bs = BitVec.ofNat 8 vs.length :: (vs ++ r) ∧ bulkLengthOk vs = true ∧ k vs r = .command i rest := by
  obtain ⟨b, r, rfl, h⟩ := byteOperand_eq_command h0
  split at h
  · cases h
  · next hb =>
    split at h
    · next xs r' hx =>
      obtain ⟨h1, h2⟩ := takeBytes_eq_some hx
      refine ⟨xs, r', by simp [h1, h2], ?_, h⟩
      have hlt := b.isLt
      have h0 : b.toNat ≠ 0 := fun h0 => hb (BitVec.eq_of_toNat_eq (by simpa using h0))
      simp only [bulkLengthOk, h1, Bool.and_eq_true, decide_eq_true_eq]
      omega
    · cases h

end

/-! ### Opcodes -/

@[simp] theorem ofByte_code (o : Op) : Op.ofByte o.code = some o := by cases o <;> rfl

theorem ofByte_eq_some {b : Byte} {o : Op} (h : Op.ofByte b = some o) : b = o.code := by
  have := List.find?_some h
  exact (by simpa using this : o.code = b).symm

/-- The number of bytes of `n` bytes of a table row. -/
@[simp] theorem wordBytes_length (n w : Nat) : (wordBytes n w).length = n := by
  induction n generalizing w with
  | zero => rfl
  | succ n ih => simp [wordBytes, ih]

end Sys2Proof
end

