-- ==== Sys2Proof/Laws/Hang.lean ====
section
/-! SUPPORT. What a procedure uses of the answers of the line environment, and how it hangs (`spec/60_exceptions.md` R238): one
notion, kept by every way the block's procedures are put together. -/

namespace Sys2Proof.Machine

/-- What neither a procedure nor its hang changes before its last writes: the configuration, `inited`, the channel mirrors and
the ports. -/
structure PortsKept (s t : State) : Prop where
  cfg : t.cfg = s.cfg
  inited : t.inited = s.inited
  ch0 : t.ch0 = s.ch0
  ch1 : t.ch1 = s.ch1
  ch2 : t.ch2 = s.ch2
  command : t.command = s.command
  response : t.response = s.response

theorem PortsKept.refl (s : State) : PortsKept s s := ⟨rfl, rfl, rfl, rfl, rfl, rfl, rfl⟩

theorem PortsKept.trans {s t u : State} (h : PortsKept s t) (k : PortsKept t u) : PortsKept s u :=
  ⟨k.1.trans h.1, k.2.trans h.2, k.3.trans h.3, k.4.trans h.4, k.5.trans h.5, k.6.trans h.6, k.7.trans h.7⟩

theorem BusOnly.portsKept {s t : State} (h : BusOnly s t) : PortsKept s t :=
  ⟨h.cfg, h.inited, h.ch0, h.ch1, h.ch2, h.command, h.response⟩

/-- A procedure from `s` that uses at least `n` answers if it ends, none of them `never`, and that hangs only at an answer
`never`. -/
structure Uses {α : Type} (n : Nat) (s : State) (r : Run α) : Prop where
  done : ∀ a t, r = .done a t →
    PortsKept s t ∧ ∃ m, n ≤ m ∧ t.line.answers = s.line.answers.drop m ∧ ∀ j < m, s.line.answers[j]? ≠ some .never
  hang : ∀ u, r = .hang u → u.wait ≠ .none ∧ nextAnswer u.line = .never ∧ PortsKept s u

theorem Uses.mono {α : Type} {n m : Nat} {s : State} {r : Run α} (h : Uses n s r) (hm : m ≤ n) : Uses m s r where
  done := fun a t e => by
    obtain ⟨hk, k, hn, ha, hv⟩ := h.done a t e
    exact ⟨hk, k, hm.trans hn, ha, hv⟩
  hang := h.hang

/-- A state update that leaves ports, mirrors and answers alone uses nothing. -/
theorem Uses.done_of {α : Type} {s t : State} (a : α) (hp : PortsKept s t) (ha : t.line.answers = s.line.answers) :
    Uses 0 s (Run.done a t) where
  done := fun b u e => by
    cases e
    exact ⟨hp, 0, le_refl 0, ha, fun j hj => absurd hj (Nat.not_lt_zero j)⟩
  hang := fun u e => by cases e

/-- One procedure after the other uses what both use. -/
theorem Uses.bind {α β : Type} {n m : Nat} {s : State} {r : Run α} {k : α → State → Run β} (h : Uses n s r)
    (hk : ∀ a t, r = .done a t → Uses m t (k a t)) : Uses (n + m) s (r.bind k) where
  done := fun b u e => by
    obtain ⟨a, t, hr, he⟩ := Run.bind_eq_done e
    obtain ⟨hp, i, hi, hai, hvi⟩ := h.done a t hr
    obtain ⟨hq, j, hj, haj, hvj⟩ := (hk a t hr).done b u he
    refine ⟨hp.trans hq, i + j, Nat.add_le_add hi hj, by rw [haj, hai, List.drop_drop], fun l hl => ?_⟩
    by_cases hli : l < i
    · exact hvi l hli
    · have := hvj (l - i) (by omega)
      rwa [hai, List.getElem?_drop, Nat.add_sub_cancel' (Nat.le_of_not_lt hli)] at this
  hang := fun u e => by
    cases hr : r with
    | hang v =>
      rw [hr] at e
      cases e
      exact h.hang _ hr
    | done a t =>
      rw [hr] at e
      obtain ⟨h1, h2, h3⟩ := (hk a t hr).hang u e
      exact ⟨h1, h2, (h.done a t hr).1.trans h3⟩

/-- An answer `never` among those a procedure is sure to use makes it hang. -/
theorem Uses.hangs {α : Type} {n k : Nat} {s : State} {r : Run α} (h : Uses n s r) (hk : k < n)
    (ha : s.line.answers[k]? = some .never) :
    ∃ u, r = .hang u ∧ u.wait ≠ .none ∧ nextAnswer u.line = .never ∧ PortsKept s u := by
  cases hr : r with
  | hang u => exact ⟨u, rfl, h.hang u hr⟩
  | done a t =>
    obtain ⟨-, m, hm, -, hv⟩ := h.done a t hr
    exact absurd ha (hv k (by omega))

/-- An operation whose procedure hangs is stuck (R238). -/
theorem Uses.stuckFrom {α : Type} {n k : Nat} {s : State} {r : Run α} (h : Uses n s r) (hk : k < n)
    (ha : s.line.answers[k]? = some .never) (f : α → State → State) : StuckFrom s (r.finish f) := by
  obtain ⟨u, rfl, hw, hn, hp⟩ := h.hangs hk ha
  exact ⟨u, rfl, hw, hn, by simp [step, accepting, hw], hp.cfg, hp.inited, hp.ch0, hp.ch1, hp.ch2, hp.command, hp.response⟩

/-! ### The block's procedures -/

theorem answers_zero_ne_never {l : LineEnv} (h : nextAnswer l ≠ .never) : l.answers[0]? ≠ some .never := by
  intro e
  unfold nextAnswer at h
  cases ha : l.answers with
  | nil => simp [ha] at e
  | cons x xs => exact h (by simpa [ha] using e)

theorem ask_uses (a : BusAction) (s : State) : Uses 1 s (ask a s) where
  done := fun hs t e => by
    obtain ⟨hr, rfl⟩ := ask_eq_done.mp e
    refine ⟨(answered_busOnly a hs s).portsKept, 1, le_refl 1, by simp, fun j hj => ?_⟩
    obtain rfl : j = 0 := by omega
    refine answers_zero_ne_never fun hn => ?_
    simp [reply, hn] at hr
  hang := fun u e => by
    unfold ask at e
    cases hr : reply s.cfg s.line a with
    | some hs => rw [hr] at e; cases e
    | none =>
      rw [hr] at e
      cases e
      refine ⟨by cases a <;> simp [issued, waitFor], ?_, ⟨rfl, rfl, rfl, rfl, rfl, rfl, rfl⟩⟩
      unfold reply at hr
      split at hr
      · cases hr
      · cases hr
      · next hn => simpa [issued, nextAnswer, emit] using hn

theorem callStop_uses (s : State) : Uses 1 s (callStop s) where
  done := fun _ t e => by
    obtain ⟨hn, rfl⟩ := callStop_eq_done e
    refine ⟨(stopDone_busOnly s).portsKept, 1, le_refl 1, by simp, fun j hj => ?_⟩
    obtain rfl : j = 0 := by omega
    exact answers_zero_ne_never hn
  hang := fun u e => by
    by_cases hn : nextAnswer s.line = .never
    · rw [callStop_of_never hn] at e
      cases e
      exact ⟨by simp [stopping], by simpa [stopping, nextAnswer, emit] using hn, ⟨rfl, rfl, rfl, rfl, rfl, rfl, rfl⟩⟩
    · rw [callStop_of_answer hn] at e
      cases e

theorem takeFault_uses (cause : Cause) (hs : HwStatus) (s : State) : Uses 0 s (takeFault cause hs s) := by
  cases cause
  · exact ((callStop_uses s).bind fun _ t _ => Uses.done_of _ (PortsKept.refl t) rfl).mono (Nat.zero_le _)
  · exact Uses.done_of _ (lockRecovery_busOnly s).portsKept rfl
  · exact Uses.done_of _ (lockRecovery_busOnly s).portsKept rfl
  · exact Uses.done_of _ (PortsKept.refl s) rfl

theorem callStart_uses (s : State) : Uses 1 s (callStart s) := by
  refine Uses.bind (n := 1) (m := 0) (ask_uses .start s) fun hs t _ => ?_
  cases startFault hs.cls
  · exact Uses.done_of _ ⟨rfl, rfl, rfl, rfl, rfl, rfl, rfl⟩ rfl
  · exact takeFault_uses _ _ _

theorem callAddress_uses (addr7 : BitVec 7) (read : Bool) (s : State) : Uses 1 s (callAddress addr7 read s) := by
  refine Uses.bind (n := 1) (m := 0) (ask_uses _ s) fun hs t _ => ?_
  cases addressFault read hs.cls
  · exact Uses.done_of _ ⟨rfl, rfl, rfl, rfl, rfl, rfl, rfl⟩ rfl
  · exact takeFault_uses _ _ _

theorem callSend_uses (b : Byte) (s : State) : Uses 1 s (callSend b s) := by
  refine Uses.bind (n := 1) (m := 0) (ask_uses _ s) fun hs t _ => ?_
  cases txFault hs.cls
  · exact Uses.done_of _ ⟨rfl, rfl, rfl, rfl, rfl, rfl, rfl⟩ rfl
  · exact takeFault_uses _ _ _

theorem Uses.after {α : Type} {n : Nat} {s t : State} {r : Run α} (h : Uses n t r) (hp : PortsKept s t)
    (ha : t.line.answers = s.line.answers) : Uses n s r :=
  ⟨fun a u e => ⟨hp.trans (h.done a u e).1, ha ▸ (h.done a u e).2⟩,
    fun u e => ⟨(h.hang u e).1, (h.hang u e).2.1, hp.trans (h.hang u e).2.2⟩⟩

theorem callReceive_uses (s : State) : Uses 1 s (callReceive s) := by
  refine Uses.bind (n := 1) (m := 0) (ask_uses .rx s) fun hs t _ => ?_
  cases rxOutcome hs.cls with
  | ok v => exact Uses.done_of _ ⟨rfl, rfl, rfl, rfl, rfl, rfl, rfl⟩ rfl
  | error cause =>
    refine Uses.bind (n := 0) (m := 0) ((takeFault_uses cause hs _).after (drawByte_busOnly t).portsKept rfl) fun st v _ => ?_
    exact Uses.done_of _ (PortsKept.refl v) rfl

theorem runCall_uses (c : TransportCall) (s : State) : Uses 1 s (runCall c s) := by
  cases c with
  | start => exact callStart_uses s
  | address read => exact callAddress_uses _ read s
  | byte b => exact callSend_uses b s
  | stop => exact (callStop_uses s).bind fun _ t _ => Uses.done_of _ (PortsKept.refl t) rfl

theorem runCalls_uses (cs : List TransportCall) (s : State) : Uses cs.length s (runCalls cs s) := by
  induction cs generalizing s with
  | nil => exact Uses.done_of _ (PortsKept.refl s) rfl
  | cons c cs ih =>
    rw [runCalls_cons, List.length_cons, Nat.add_comm]
    exact (runCall_uses c s).bind fun st t _ => (ih (latch st t)).after (latch_busOnly st t).portsKept rfl

/-- R187 (b): READ_REG makes 7 calls. -/
theorem readReg_uses (addr : Byte) (s : State) : Uses 7 s (readReg addr s) := by
  refine Uses.bind (n := 5) (m := 2) ((runCalls_uses (readCalls addr) _).after (raBegin_busOnly s).portsKept rfl) fun _ t _ => ?_
  refine Uses.bind (n := 1) (m := 1) (callReceive_uses t) fun r u _ => ?_
  refine Uses.bind (n := 1) (m := 0) ((runCalls_uses [.stop] _).after (latch_busOnly r.2 u).portsKept rfl) fun _ v _ => ?_
  dsimp only
  obtain hv | hv := readValue_snd r v <;> rw [hv] <;> exact Uses.done_of _ ⟨rfl, rfl, rfl, rfl, rfl, rfl, rfl⟩ rfl

/-- R187 (b): a write transaction of `n` values makes `4 + n` calls. -/
theorem writeRegs_uses (addr : Byte) (values : List Byte) (s : State) :
    Uses (4 + values.length) s (writeRegs addr values s) := by
  have hl : (writeCalls addr values).length = 4 + values.length := by simp [writeCalls]; omega
  have h := (runCalls_uses (writeCalls addr values) (raBegin s)).after (raBegin_busOnly s).portsKept rfl
  rw [hl] at h
  exact h.bind fun _ t _ => Uses.done_of _ (raEnd_busOnly t).portsKept rfl

/-- R187 (b): UPDATE_REG makes 12 calls. -/
theorem updateReg_uses (addr mask value : Byte) (s : State) : Uses 12 s (updateReg addr mask value s) :=
  (readReg_uses addr s).bind (m := 5) fun old t _ =>
    (writeRegs_uses addr [mergeMasked old mask value] t).bind (m := 0) fun _ _ _ =>
      Uses.done_of _ ⟨rfl, rfl, rfl, rfl, rfl, rfl, rfl⟩ rfl

/-- The number of transport calls of one operation of a controller list. -/
def RaOp.calls : RaOp → Nat
  | .write _ values => 4 + values.length
  | .update _ _ _ => 12

theorem runRaOp_uses (o : RaOp) (s : State) : Uses o.calls s (runRaOp o s) := by
  cases o with
  | write addr values => exact writeRegs_uses addr values s
  | update addr mask value => exact updateReg_uses addr mask value s

/-- A controller list makes the calls of its operations (R211). -/
theorem runRaOps_uses (os : List RaOp) (s : State) : Uses (os.map RaOp.calls).sum s (runRaOps os s) := by
  induction os generalizing s with
  | nil => exact Uses.done_of _ (PortsKept.refl s) rfl
  | cons o os ih =>
    rw [List.map_cons, List.sum_cons, runRaOps_cons]
    exact (runRaOp_uses o s).bind fun _ t _ =>
      (ih t).bind (m := 0) fun f u _ => Uses.done_of _ (PortsKept.refl u) rfl

/-- The bus work of `do_set_pll` is one write of 8 bytes (R197). -/
theorem doSetPll_uses (x : Pll) (p : PllPlan) (s : State) : Uses 12 s (doSetPll x p s) := by
  have h := runRaOps_uses [.write (pllParamsAddr s.cfg x) (ser8 p.fields 0#3 0b00#2)] s
  refine h.bind (m := 0) fun _ t _ => Uses.done_of _ ?_ ?_
  · cases x <;> exact ⟨rfl, rfl, rfl, rfl, rfl, rfl, rfl⟩
  · cases x <;> rfl

end Sys2Proof.Machine
end

