-- ==== Sys2Proof/Laws/PerInstr.lean ====
section
/-! SUPPORT. Statements about every operation as syntax, one lemma per operation. -/

namespace Sys2Proof.Laws

/-- The packet of an operation has the length that the table of R72 gives it, `3 + n` bytes for WRITE_BULK (R75). -/
def PacketLength.Statement (i : Instr) : Prop := (encode i).length = i.packetLength

theorem PacketLength.start : PacketLength.Statement .start := rfl

theorem PacketLength.sendAddress (addr7 : BitVec 7) (read : Bool) : PacketLength.Statement (.sendAddress addr7 read) := rfl

theorem PacketLength.sendByte (b : Byte) : PacketLength.Statement (.sendByte b) := rfl

theorem PacketLength.receiveByte : PacketLength.Statement .receiveByte := rfl

theorem PacketLength.stop : PacketLength.Statement .stop := rfl

theorem PacketLength.readReg (addr : Byte) : PacketLength.Statement (.readReg addr) := rfl

theorem PacketLength.writeReg (addr value : Byte) : PacketLength.Statement (.writeReg addr value) := rfl

theorem PacketLength.writeBulk (addr : Byte) (values : List Byte) : PacketLength.Statement (.writeBulk addr values) := by
  simp only [PacketLength.Statement, encode, encodeOperands, Instr.packetLength, List.length_cons]
  omega

theorem PacketLength.updateReg (addr mask value : Byte) : PacketLength.Statement (.updateReg addr mask value) := rfl

theorem PacketLength.planPll (target reference : U64) (ppb : BitVec 32) :
    PacketLength.Statement (.planPll target reference ppb) := rfl

theorem PacketLength.planMultisynth (target pll : U64) (fixed : Bool) :
    PacketLength.Statement (.planMultisynth target pll fixed) := rfl

theorem PacketLength.encodeFields (a b c : U32) : PacketLength.Statement (.encodeFields a b c) := rfl

theorem PacketLength.selectRDivider (freq : U64) : PacketLength.Statement (.selectRDivider freq) := rfl

theorem PacketLength.initializeAll : PacketLength.Statement .initializeAll := rfl

theorem PacketLength.setFrequency (channel : Channel) (freq : U64) :
    PacketLength.Statement (.setFrequency channel freq) := rfl

theorem PacketLength.setPll (freq : U64) (which : Pll) : PacketLength.Statement (.setPll freq which) := rfl

theorem PacketLength.setCorrection (ppb : BitVec 32) (reference : Reference) :
    PacketLength.Statement (.setCorrection ppb reference) := rfl

theorem PacketLength.outputEnable (channel : Channel) (enable : Bool) :
    PacketLength.Statement (.outputEnable channel enable) := rfl

theorem PacketLength.driveStrength (channel : Channel) (level : BitVec 2) :
    PacketLength.Statement (.driveStrength channel level) := rfl

theorem PacketLength.setClockPower (channel : Channel) (on : Bool) :
    PacketLength.Statement (.setClockPower channel on) := rfl

theorem PacketLength.powerDown : PacketLength.Statement .powerDown := rfl

theorem PacketLength.setPllAssignment (channel : Channel) (which : Pll) :
    PacketLength.Statement (.setPllAssignment channel which) := rfl

end Sys2Proof.Laws
end

