-- ==== Sys2Proof/Laws/Planner.lean ====
section
/-! SUPPORT. The arithmetic of `spec/40_planner.md` and `spec/41_rdiv.md`, once: clamps, the packing of the fields, what a plan
that is not refused looks like, and the least exponent. -/

namespace Sys2Proof.Machine

/-! ### Clamps -/

theorem clampNat_eq_bounded {x lo hi : Nat} (h : lo ≤ hi) : clampNat x lo hi = bounded x lo hi := by
  unfold clampNat bounded
  split <;> (try split) <;> omega

theorem le_clampNat {x lo hi : Nat} (h : lo ≤ hi) : lo ≤ clampNat x lo hi := by
  unfold clampNat
  split <;> (try split) <;> omega

theorem clampNat_le {x lo hi : Nat} (h : lo ≤ hi) : clampNat x lo hi ≤ hi := by
  unfold clampNat
  split <;> (try split) <;> omega

/-! ### The packing -/

theorem encodeDomain_iff {a b c : Nat} :
    encodeDomain a b c = true ↔ 4 ≤ a ∧ a ≤ 2051 ∧ 1 ≤ c ∧ c ≤ 1048575 ∧ b < c := by
  simp [encodeDomain, and_assoc]

theorem encodeFields_of_domain {a b c : Nat} (h : 4 ≤ a ∧ a ≤ 2051 ∧ 1 ≤ c ∧ c ≤ 1048575 ∧ b < c) :
    encodeFields a b c = .ok (packFields a b c) := if_pos (encodeDomain_iff.mpr h)

theorem encodeFields_of_not_domain {a b c : Nat} (h : ¬ (4 ≤ a ∧ a ≤ 2051 ∧ 1 ≤ c ∧ c ≤ 1048575 ∧ b < c)) :
    encodeFields a b c = .error .encodeDomain := if_neg fun hd => h (encodeDomain_iff.mp hd)

/-- The packing answers on its domain only, and with the packed fields. -/
theorem encodeFields_eq_ok {a b c : Nat} {f : RegisterFields} (h : encodeFields a b c = .ok f) :
    (4 ≤ a ∧ a ≤ 2051 ∧ 1 ≤ c ∧ c ≤ 1048575 ∧ b < c) ∧ f = packFields a b c := by
  unfold encodeFields at h
  split at h
  · next hd => exact ⟨encodeDomain_iff.mp hd, (Except.ok.inj h).symm⟩
  · cases h

theorem fracQuotient_le {b c : Nat} (h : b < c) : fracQuotient b c ≤ 127 := by
  have hq : 128 * b / c < 128 := (Nat.div_lt_iff_lt_mul (by omega)).mpr (by omega)
  unfold fracQuotient
  omega

theorem mul_fracQuotient_add_mod (b c : Nat) : c * fracQuotient b c + 128 * b % c = 128 * b := by
  unfold fracQuotient
  exact Nat.div_add_mod _ _

/-- The three numbers of the packing on its domain, before they are cut to their widths, which changes nothing. -/
theorem packFields_toNat {a b c : Nat} (h : 4 ≤ a ∧ a ≤ 2051 ∧ 1 ≤ c ∧ c ≤ 1048575 ∧ b < c) :
    (packFields a b c).p1.toNat = 128 * a + fracQuotient b c - 512 ∧
      (packFields a b c).p2.toNat = 128 * b - c * fracQuotient b c ∧ (packFields a b c).p3.toNat = c := by
  have hq := fracQuotient_le h.2.2.2.2
  have hm := mul_fracQuotient_add_mod b c
  have hl := Nat.mod_lt (128 * b) (show 0 < c by omega)
  simp only [packFields, BitVec.toNat_ofNat]
  refine ⟨Nat.mod_eq_of_lt ?_, Nat.mod_eq_of_lt ?_, Nat.mod_eq_of_lt ?_⟩ <;> omega

/-! ### Plans -/

theorem pllRatio_fst (t1 ref1 : Nat) : (pllRatio t1 ref1).1 = clampNat (t1 / ref1) 15 90 := rfl

/-- After the ratio clamp the adjusted target has the clamped ratio. -/
theorem pllRatio_div {t1 ref1 : Nat} (h : 1 ≤ ref1) : (pllRatio t1 ref1).2 / ref1 = (pllRatio t1 ref1).1 := by
  simp only [pllRatio]
  split
  · next he => exact he.symm
  · exact Nat.mul_div_cancel_left _ h

/-- The fraction of a remainder lies below 1. -/
theorem pllFraction_lt {rem ref1 : Nat} (h : rem < ref1) :
    (pllFraction rem ref1).1 < (pllFraction rem ref1).2 ∧ 1 ≤ (pllFraction rem ref1).2 ∧
      (pllFraction rem ref1).2 ≤ 1000000 := by
  unfold pllFraction cDenom
  split
  · simp
  · refine ⟨?_, by norm_num, le_refl _⟩
    exact (Nat.div_lt_iff_lt_mul (by omega)).mpr (by nlinarith)

/-- For a corrected reference of at least 1 the plan is never refused. -/
theorem planPllAt_eq_ok (c : Config) (target : Nat) {ref1 : Nat} (h : 1 ≤ ref1) :
    let ratio := pllRatio (vcoClamp c target) ref1
    let fraction := pllFraction (ratio.2 % ref1) ref1
    planPllAt c target ref1 =
      .ok { a := ratio.1, b := fraction.1, c := fraction.2, fields := packFields ratio.1 fraction.1 fraction.2,
            target := ratio.2, achieved := ref1 * ratio.1 + ref1 * fraction.1 / fraction.2 } := by
  intro ratio fraction
  have hf : fraction.1 < fraction.2 ∧ 1 ≤ fraction.2 ∧ fraction.2 ≤ 1000000 := pllFraction_lt (Nat.mod_lt ratio.2 (show 0 < ref1 by omega))
  have hlo : 15 ≤ ratio.1 := le_clampNat (by omega)
  have hhi : ratio.1 ≤ 90 := clampNat_le (by omega)
  have he : encodeFields ratio.1 fraction.1 fraction.2 = .ok (packFields ratio.1 fraction.1 fraction.2) :=
    encodeFields_of_domain ⟨by omega, by omega, hf.2.1, by have := hf.2.2; omega, hf.1⟩
  simp only [planPllAt]
  rw [he]

/-- PLAN_PLL's plan: refused for a reference or a corrected reference out of range, else `planPllAt`. -/
theorem planPll_eq_ok {c : Config} {target reference : Nat} {ppb : Int} {p : PllPlan}
    (h : planPll c target reference ppb = .ok p) :
    reference < 2 ^ 44 ∧ 1 ≤ correctedReference c reference ppb ∧
      planPllAt c target (correctedReference c reference ppb).toNat = .ok p := by
  unfold planPll at h
  split at h
  · cases h
  split at h
  · cases h
  · exact ⟨by omega, by omega, h⟩

theorem planPll_of_reference {c : Config} {reference : Nat} {ppb : Int} (target : Nat) (hr : reference < 2 ^ 44)
    (h1 : 1 ≤ correctedReference c reference ppb) :
    planPll c target reference ppb = planPllAt c target (correctedReference c reference ppb).toNat := by
  unfold planPll
  rw [if_neg (by omega), if_neg (by omega)]

/-- The plan of a PLL stage, for a crystal that K9 allows: refused below 1 (R102), else the planner's for the corrected crystal. -/
theorem planStage_of_below_one {c : Config} {ppb : BitVec 32} (freq : Nat) (hx : c.xtalFreqX100 < 2 ^ 44)
    (h : correctedCrystal c ppb < 1) : planStage c freq ppb = .error .correctedReference := by
  unfold correctedCrystal at h
  unfold planStage planPll
  rw [if_neg (by omega), if_pos h]

theorem planStage_of_corrected {c : Config} {ppb : BitVec 32} (freq : Nat) (hx : c.xtalFreqX100 < 2 ^ 44)
    (h1 : 1 ≤ correctedCrystal c ppb) : planStage c freq ppb = planPllAt c freq (correctedCrystal c ppb).toNat :=
  planPll_of_reference freq hx h1

/-- A plan that reaches the port is the exact plan, and its result fits 64 bits. -/
theorem planMultisynth_eq_ok {c : Config} {target pll : Nat} {fixedPll : Bool} {p : MsPlan}
    (h : planMultisynth c target pll fixedPll = .ok p) :
    planMultisynthExact c target pll fixedPll = .ok p ∧ p.resulting < 2 ^ 64 := by
  unfold planMultisynth at h
  split at h
  · cases h
  · next he =>
    split at h
    · cases h
    · cases h; exact ⟨he, by omega⟩

/-! ### The R-divider -/

/-- The least exponent lifts the frequency to `d` unless even 7 does not, then it is 7; no smaller one does. -/
theorem leastExponent_spec (freq d : Nat) :
    1 ≤ leastExponent freq d ∧ leastExponent freq d ≤ 7 ∧
      (leastExponent freq d < 7 ∨ d ≤ freq * 2 ^ 7 → d ≤ freq * 2 ^ leastExponent freq d) ∧
      ∀ j, 1 ≤ j → j < leastExponent freq d → freq * 2 ^ j < d := by
  unfold leastExponent
  simp only [List.find?_cons, List.find?_nil]
  repeat' split
  all_goals
    simp only [decide_eq_true_eq, decide_eq_false_iff_not, not_le] at *
    simp only [Option.getD_some, Option.getD_none]
    refine ⟨by omega, by omega, by omega, fun j h1 h2 => ?_⟩
    interval_cases j <;> omega

end Sys2Proof.Machine
end

