-- ==== Sys2Proof/Tests/Slice0.lean ====
section
/-! SUPPORT. The model's own tests, each on fixed values: packets and results written out from `30_encoding.md` and
`95_test_vectors.md` (the row is named), and a witness for the hypotheses of every obligation that has some. -/

namespace Sys2Proof.Tests

open Sys2Proof Sys2Proof.Machine

/-! ### Helpers -/

/-- An answer with a status class of which the reset table has a code. -/
def told (hs : HsClass) : LineAnswer := .status (chipCode StatusCodes.reference hs.name) hs.data

/-- A status with a raw code. -/
def hw (cls : HsClass) (code : Nat) : HwStatus := ⟨cls, .ofNat code⟩

/-- The machine at reset with a chip whose map and pointer are given, and with prescribed answers. -/
def chip (rm : Memory) (rp : Byte) (answers : List LineAnswer) : State :=
  { State.reset with line := { LineEnv.reset with rm := rm, rp := rp, answers := answers } }

/-- The common start of section 2.9 of the vectors: after `initialize`, with the control bytes of the chip given. -/
def ready (rm : Memory) : State :=
  { chip rm 0x00#8 [] with
    inited := true
    pllA := { PllState.reset with frequency := 80000000000#64 }
    pllB := { PllState.reset with frequency := 80000000000#64 } }

/-- The response of a result that is a next state. -/
def response : Result → Option (List Byte)
  | .next t => some t.response
  | .fault _ => none
  | .refused _ => none

/-- A byte of the remote map after a result that is a next state. -/
def mapByte (a : Nat) : Result → Option Byte
  | .next t => some (readMem t.line.rm a)
  | .fault _ => none
  | .refused _ => none

/-- What stands on the lines after a result that is a next state. -/
def lines : Result → Option (List LineEvent)
  | .next t => some t.line.events
  | .fault _ => none
  | .refused _ => none

/-- Protocol state and direction after a result that is a next state. -/
def protocol : Result → Option (ProtState × Direction)
  | .next t => some (t.ps, t.dir)
  | .fault _ => none
  | .refused _ => none

/-- The recorded status after a result that is a next state. -/
def recorded : Result → Option HwStatus
  | .next t => some t.tstat
  | .fault _ => none
  | .refused _ => none

/-- The reason of a result that is a refusal. -/
def refusal : Result → Option Refusal
  | .next _ => none
  | .fault _ => none
  | .refused r => some r

/-- The state a result is stuck in. -/
def stuck : Result → Option State
  | .next _ => none
  | .fault (.hang u) => some u
  | .refused _ => none

/-- The status of a transport call that returns. -/
def status : Run Status → Option Status
  | .done st _ => some st
  | .hang _ => none

/-- The machine at reset with a packet at its port. -/
def offered (packet : List Byte) : State := { State.reset with command := packet }

/-- The machine at reset with the chip in the middle of a transaction. -/
def inside (mode : ChipMode) (answers : List LineAnswer) : State :=
  { State.reset with line := { LineEnv.reset with busOpen := true, mode := mode, answers := answers } }

/-- The ready machine with one configuration in place of `P_ref`. -/
def configured (c : Config) : State := { ready [] with cfg := c }

/-- A configuration whose ranges let the crystal come up to K9's bound. -/
def wide : Config := { Config.pRef with vcoMax := 2 ^ 42, multisynthMin := 2 ^ 32, multisynthMax := 2 ^ 33 }

/-- `P_ref` with a raw code for `HS_RX_NACK`, of which D3's table has none. -/
def nacking : Config := { Config.pRef with statusCodes := (.ofNat 0x01, .rxNack) :: StatusCodes.reference }

/-- The machine at reset but for that table, the chip sending, and the receive not acknowledged. -/
def nacked (answers : List LineAnswer) : State :=
  { inside .read (.status (.ofNat 0x01) 0x00#8 :: answers) with cfg := nacking }

/-! ### Well-formedness -/

theorem test_wellFormed_refuses_empty_values : (Instr.writeBulk 0x1A#8 []).wellFormed = false := by decide

theorem test_wellFormed_refuses_256_values :
    (Instr.writeBulk 0x1A#8 (List.replicate 256 0x00#8)).wellFormed = false := by
  rw [Instr.wellFormed, bulkLengthOk, List.length_replicate]
  decide

theorem test_wellFormed_takes_255_values :
    (Instr.writeBulk 0x1A#8 (List.replicate 255 0x00#8)).wellFormed = true := by
  rw [Instr.wellFormed, bulkLengthOk, List.length_replicate]
  decide

theorem test_reference_configuration_valid : configValid Config.pRef = true := by decide

theorem test_overlapping_configuration_refused :
    configValid { Config.pRef with regPllReset := 33#8 } = false := by decide

/-- R89, D3: a class may have several codes or none, and of two entries for one code the first counts. -/
theorem test_status_codes :
    [0x58, 0x50, 0x01, 0x38].map (fun n => classOf StatusCodes.reference (.ofNat n)) = [.rxDone, .rxDone, .other, .arbLost] ∧
    classOf [(.ofNat 0x38, .rxNack), (.ofNat 0x38, .arbLost)] (.ofNat 0x38) = .rxNack := by decide

/-- R89: both codes of `HS_RX_DONE` bring the byte, and each stays in `tstat`. -/
theorem test_receiveByte_either_code :
    [0x58, 0x50].map (fun n => recorded (exec .receiveByte (chip [] 0x00#8 [.status (.ofNat n) 0x4F#8]))) =
      [some (hw (.rxDone 0x4F#8) 0x58), some (hw (.rxDone 0x4F#8) 0x50)] := by decide

/-! ### Decoding, the packets written out from R71 to R73 and `95_test_vectors.md` -/

theorem test_decode_start : decode [0x00#8] = .command .start [] := by decide

theorem test_decode_sendAddress : decode [0x01#8, 0x60#8, 0x01#8] = .command (.sendAddress 0x60#7 true) [] := by decide

theorem test_decode_sendByte : decode [0x02#8, 0xFE#8] = .command (.sendByte 0xFE#8) [] := by decide

theorem test_decode_receiveByte : decode [0x03#8] = .command .receiveByte [] := by decide

theorem test_decode_stop : decode [0x04#8] = .command .stop [] := by decide

theorem test_decode_readReg : decode [0x10#8, 0x10#8] = .command (.readReg 0x10#8) [] := by decide

theorem test_decode_writeReg : decode [0x11#8, 0x03#8, 0xFE#8] = .command (.writeReg 0x03#8 0xFE#8) [] := by decide

theorem test_decode_writeBulk :
    decode [0x12#8, 0x1A#8, 0x02#8, 0x42#8, 0x40#8, 0x30#8] =
      .command (.writeBulk 0x1A#8 [0x42#8, 0x40#8]) [0x30#8] := by decide

theorem test_decode_updateReg :
    decode [0x13#8, 0x10#8, 0x03#8, 0x02#8] = .command (.updateReg 0x10#8 0x03#8 0x02#8) [] := by decide

/-- Program P2: the target 800 MHz, the reference 25 MHz, −1000 ppb. -/
theorem test_decode_planPll :
    decode [0x20#8, 0x00#8, 0x00#8, 0x00#8, 0x12#8, 0xA0#8, 0x5F#8, 0x20#8, 0x00#8, 0x00#8, 0x00#8, 0x00#8, 0x00#8,
        0x95#8, 0x02#8, 0xF9#8, 0x00#8, 0xFF#8, 0xFF#8, 0xFC#8, 0x18#8] =
      .command (.planPll 80000000000#64 2500000000#64 (-1000#32)) [] := by decide

theorem test_decode_planMultisynth :
    decode [0x21#8, 0x00#8, 0x00#8, 0x00#8, 0x00#8, 0x2A#8, 0x2A#8, 0x11#8, 0x40#8, 0x00#8, 0x00#8, 0x00#8, 0x12#8,
        0xA0#8, 0x5F#8, 0x20#8, 0x00#8, 0x01#8] =
      .command (.planMultisynth 707400000#64 80000000000#64 true) [] := by decide

theorem test_decode_encodeFields :
    decode [0x22#8, 0x00#8, 0x00#8, 0x06#8, 0x1A#8, 0x00#8, 0x07#8, 0xB0#8, 0x62#8, 0x00#8, 0x0F#8, 0x42#8, 0x40#8] =
      .command (.encodeFields 1562#32 503906#32 1000000#32) [] := by decide

theorem test_decode_selectRDivider :
    decode [0x23#8, 0x00#8, 0x00#8, 0x00#8, 0x00#8, 0x00#8, 0x06#8, 0x1A#8, 0x7F#8] =
      .command (.selectRDivider 399999#64) [] := by decide

theorem test_decode_initialize : decode [0x30#8] = .command .initializeAll [] := by decide

theorem test_decode_setFrequency :
    decode [0x31#8, 0x01#8, 0x00#8, 0x00#8, 0x00#8, 0x00#8, 0x53#8, 0xE3#8, 0x38#8, 0x40#8] =
      .command (.setFrequency .ch1 1407400000#64) [] := by decide

theorem test_decode_setPll :
    decode [0x32#8, 0x00#8, 0x00#8, 0x00#8, 0x0F#8, 0x23#8, 0x09#8, 0xAB#8, 0x4E#8, 0x01#8] =
      .command (.setPll 65012345678#64 .b) [] := by decide

theorem test_decode_setCorrection :
    decode [0x33#8, 0xFF#8, 0xFF#8, 0xFC#8, 0x18#8, 0x00#8] = .command (.setCorrection (-1000#32) .crystal) [] := by decide

theorem test_decode_outputEnable : decode [0x34#8, 0x00#8, 0x01#8] = .command (.outputEnable .ch0 true) [] := by decide

theorem test_decode_driveStrength : decode [0x35#8, 0x00#8, 0x03#8] = .command (.driveStrength .ch0 3#2) [] := by decide

theorem test_decode_setClockPower : decode [0x36#8, 0x00#8, 0x01#8] = .command (.setClockPower .ch0 true) [] := by decide

theorem test_decode_powerDown : decode [0x37#8] = .command .powerDown [] := by decide

theorem test_decode_setPllAssignment :
    decode [0x38#8, 0x02#8, 0x01#8] = .command (.setPllAssignment .ch2 .b) [] := by decide

/-- A packet that is not complete is not refused. -/
theorem test_decode_incomplete : decode [0x31#8, 0x00#8, 0x00#8] = .incomplete := by decide

/-- The table's bits of DRIVE_STRENGTH 0, 3: opcode in bits 7..0, channel in 15..8, level in 23..16. -/
theorem test_table_word : decodeTableWord 24 0x030035 = some (.driveStrength .ch0 3#2) := by decide

theorem test_fetch_word_runs : response (step (State.reset.withFetchWord 8 0x00)) = some [0x00#8] := by decide

/-! ### Bus Transport (section 2.7) -/

/-- T1. -/
theorem test_start : protocol (exec .start State.reset) = some (.started, .none) := by decide

/-- T3. -/
theorem test_start_arbitration_lost :
    lines (exec .start (chip [] 0x00#8 [told .arbLost])) = some [.action .start, .release] := by decide

/-- T8, with the address byte 0xC1. -/
theorem test_sendAddress :
    lines (exec (.sendAddress 0x60#7 true) { State.reset with line := { LineEnv.reset with busOpen := true } }) =
      some [.action (.address 0xC1#8)] := by decide

/-- T11: an acknowledge of the other direction. -/
theorem test_sendAddress_wrong_direction :
    response (exec (.sendAddress 0x60#7 false) (chip [] 0x00#8 [told .slaRAck])) = some [0x40#8] := by decide

/-- T16. -/
theorem test_sendByte_nack :
    lines (exec (.sendByte 0x55#8) (chip [] 0x00#8 [told .txNack])) = some [.action (.tx 0x55#8), .stop] := by decide

/-- T23. -/
theorem test_sendByte_outside_transaction : protocol (exec (.sendByte 0x55#8) State.reset) = some (.idle, .none) := by decide

/-- T19. -/
theorem test_receiveByte :
    response (exec .receiveByte (chip [] 0x00#8 [told (.rxDone 0x4F#8)])) = some [0x4F#8, 0x00#8] := by decide

/-- T22. -/
theorem test_stop : lines (exec .stop State.reset) = some [.stop] := by decide

/-! ### Register Access Layer (section 2.8) -/

/-- G1. -/
theorem test_readReg :
    lines (exec (.readReg 0x10#8) (chip [(16, 0x4F#8)] 0x00#8 [])) =
      some [.action .start, .action (.address 0xC0#8), .action (.tx 0x10#8), .action .start, .action (.address 0xC1#8),
        .action .rx, .stop] := by decide

/-- G11: `ra_fault` is 1; the byte is any value (R182, U1). -/
theorem test_readReg_faulted :
    (response (exec (.readReg 0x10#8) (chip [(16, 0x4F#8), (32, 0x99#8)] 0x20#8 [.asChip, .asChip, told .arbLost]))).map
      List.tail = some [0x01#8] := by decide

/-- G2. -/
theorem test_writeReg : mapByte 3 (exec (.writeReg 0x03#8 0xFE#8) (chip [(3, 0xFF#8)] 0x00#8 [])) = some 0xFE#8 := by decide

/-- G12: two stops. -/
theorem test_writeReg_nack :
    lines (exec (.writeReg 0x03#8 0xFE#8) (chip [(3, 0xFF#8)] 0x00#8 [.asChip, .asChip, .asChip, told .txNack])) =
      some [.action .start, .action (.address 0xC0#8), .action (.tx 0x03#8), .action (.tx 0xFE#8), .stop, .stop] := by decide

/-- R53: addresses count modulo 256. -/
theorem test_writeBulk_wraps :
    mapByte 0 (exec (.writeBulk 0xFF#8 [0x11#8, 0x22#8]) State.reset) = some 0x22#8 := by decide

/-- R183, R54: nothing is written after a fault of the start, whatever the later answers are. -/
theorem test_writeBulk_after_start_fault :
    mapByte 3 (exec (.writeBulk 0x03#8 [0xFE#8])
      (chip [(3, 0xFF#8)] 0x00#8 [told .other, told .slaWAck, told .txAck, told .txAck])) = some 0xFF#8 := by
  decide

/-- G4. -/
theorem test_updateReg :
    mapByte 16 (exec (.updateReg 0x10#8 0x03#8 0x03#8) (chip [(16, 0x8C#8)] 0x00#8 [])) = some 0x8F#8 := by decide

/-- G5. -/
theorem test_updateReg_value_outside_mask :
    mapByte 16 (exec (.updateReg 0x10#8 0x03#8 0xFC#8) (chip [(16, 0x8F#8)] 0x00#8 [])) = some 0x8C#8 := by decide

/-! ### Planner and R-divider (sections 2.2 to 2.6) -/

/-- L9: fields (2816, 632064, 1000000), achieved 65012345000. -/
theorem test_planPll :
    response (exec (.planPll 65012345678#64 2500000000#64 0#32) State.reset) =
      some [0x00#8, 0x0B#8, 0x00#8, 0x09#8, 0xA5#8, 0x00#8, 0x0F#8, 0x42#8, 0x40#8,
        0x00#8, 0x00#8, 0x00#8, 0x0F#8, 0x23#8, 0x09#8, 0xA8#8, 0xA8#8] := by decide

/-- L13: under 1000 ppb the achieved frequency is 79999999999. -/
theorem test_planPll_corrected :
    (planPll Config.pRef 80000000000 2500000000 1000).toOption.map (fun p => (p.a, p.b, p.achieved)) =
      some (31, 999968, 79999999999) := by decide

/-- R109: 150 MHz is divide-by-4 mode, whatever the PLL. -/
theorem test_planMultisynth_divBy4 :
    response (exec (.planMultisynth 15000000000#64 0#64 true) State.reset) =
      some [0x00#8, 0x00#8, 0x00#8, 0x00#8, 0x00#8, 0x00#8, 0x00#8, 0x00#8, 0x01#8,
        0x00#8, 0x00#8, 0x00#8, 0x03#8, 0x7E#8, 0x11#8, 0xD6#8, 0x00#8, 0x01#8] := by decide

/-- R200: 7.074 MHz from 800 MHz, fields (13963, 544192, 1000000). -/
theorem test_planMultisynth_fixed :
    (planMultisynth Config.pRef 707400000 80000000000 true).toOption.map
        (fun p => (p.fields.p1, p.fields.p2, p.fields.p3, p.divby4)) =
      some (13963#18, 544192#20, 1000000#20, false) := by decide

/-- E5. -/
theorem test_encodeFields :
    response (exec (.encodeFields 26#32 4938#32 1000000#32) State.reset) =
      some [0x00#8, 0x0B#8, 0x00#8, 0x09#8, 0xA5#8, 0x00#8, 0x0F#8, 0x42#8, 0x40#8] := by decide

/-- E10: the largest fields, as the block of R82 holds them. -/
theorem test_ser8_largest :
    (encodeFields 2051 1048574 1048575).toOption.map (fun f => ser8 f 0#3 0#2) =
      some [0xFF#8, 0xFF#8, 0x03#8, 0xFF#8, 0xFF#8, 0xFF#8, 0xFF#8, 0x7F#8] := by decide

/-- R142: 137.5 kHz gives (2, 55000000). -/
theorem test_selectRDivider :
    response (exec (.selectRDivider 13750000#64) State.reset) =
      some [0x02#8, 0x00#8, 0x00#8, 0x00#8, 0x00#8, 0x03#8, 0x47#8, 0x3B#8, 0xC0#8] := by decide

/-- R143: just below the lowest band. -/
theorem test_selectRDivider_saturates : selectRDivider Config.pRef 399999 = (7, 51199872) := by decide

/-! ### Controller (section 2.9, programs P1 to P5) -/

/-- P1: the PLL B block after `initialize`, last byte of the integer part. -/
theorem test_initialize :
    mapByte 37 (exec .initializeAll (chip [(16, 0x80#8), (17, 0x80#8), (18, 0x80#8)] 0x00#8 [])) = some 0x0E#8 := by decide

/-- R198: both trigger bits of the PLL reset. -/
theorem test_initialize_pll_reset : mapByte 177 (exec .initializeAll State.reset) = some 0xA0#8 := by decide

/-- S1: the divider/mode byte keeps `p1`'s top bits beside R_DIV. -/
theorem test_setFrequency_mode_byte :
    mapByte 60 (exec (.setFrequency .ch2 13750000#64) (ready [])) = some 0x22#8 := by decide

/-- S2: divide-by-4 sets the integer-mode bit. -/
theorem test_setFrequency_integer_mode :
    mapByte 16 (exec (.setFrequency .ch0 20000000000#64) (ready [(16, 0x80#8)])) = some 0xC0#8 := by decide

/-- R203: byte 5 of PLL B's block, `p3[19:16]` over `p2[19:16]`. -/
theorem test_setPll : mapByte 39 (exec (.setPll 65012345678#64 .b) (ready [])) = some 0xF9#8 := by decide

/-- R205: −1000 ppb puts 0x10 in byte 6 of both blocks. -/
theorem test_setCorrection :
    mapByte 40 (exec (.setCorrection (-1000#32) .crystal) (ready [])) = some 0x10#8 := by decide

theorem test_setCorrection_refused :
    refusal (exec (.setCorrection (-1000000000#32) .crystal) (ready [])) = some .correctedReference := by decide

/-- R205, L23: a correction that breaks K7 is carried out, and the ratio clamp takes the target out of the VCO range. -/
theorem test_setCorrection_breaks_K7 :
    (match exec (.setCorrection (-999999999#32) .crystal) (ready []) with
      | .next t => some t.pllB.frequency
      | _ => none) = some 270#64 ∧
    ¬ RatioReaches Config.pRef (-999999999#32) := by decide

/-- S11. -/
theorem test_outputEnable : mapByte 3 (exec (.outputEnable .ch0 true) (ready [(3, 0xFF#8)])) = some 0xFE#8 := by decide

/-- S9. -/
theorem test_driveStrength : mapByte 16 (exec (.driveStrength .ch0 3#2) (ready [(16, 0x80#8)])) = some 0x83#8 := by decide

/-- S10. -/
theorem test_setClockPower : mapByte 16 (exec (.setClockPower .ch0 true) (ready [(16, 0x83#8)])) = some 0x03#8 := by decide

/-- R210. -/
theorem test_powerDown : mapByte 3 (exec .powerDown (ready [(3, 0xFE#8)])) = some 0xFF#8 := by decide

/-- S6. -/
theorem test_setPllAssignment :
    mapByte 17 (exec (.setPllAssignment .ch1 .b) (ready [(17, 0x80#8)])) = some 0xA0#8 := by decide

theorem test_refused_before_initialize :
    refusal (exec (.outputEnable .ch0 true) State.reset) = some .notInitialized := by decide

/-! ### Witnesses: concrete states and operands that meet the hypotheses of the obligations, clause by clause -/

theorem test_witness_DecodeOfEncode :
    (Instr.writeBulk 0x00#8 [0x00#8]).wellFormed = true ∧ (Instr.setPll 0#64 .a).wellFormed = true := by decide

theorem test_witness_EncodeOfDecode : decode [0x35#8, 0x02#8, 0x03#8] = .command (.driveStrength .ch2 3#2) [] := by decide

/-- Each clause at the first value out of range, the first clause at both ends of each gap between the opcodes. -/
theorem test_witness_BadPacketsRefused :
    accepting (offered [0x05#8]) = true ∧
    ([0x05#8, 0x0F#8, 0x14#8, 0x1F#8, 0x24#8, 0x2F#8, 0x39#8, 0xFF#8].map fun b => refusal (step (offered [b]))) =
      ([0x05#8, 0x0F#8, 0x14#8, 0x1F#8, 0x24#8, 0x2F#8, 0x39#8, 0xFF#8].map fun b =>
        some (.badCommand (.unassignedOpcode b))) ∧
    refusal (step (offered [0x01#8, 0x80#8])) = some (.badCommand (.deviceAddress 0x80#8)) ∧
    refusal (step (offered [0x01#8, 0x7F#8, 0x02#8])) = some (.badCommand (.boolean 0x02#8)) ∧
    refusal (step (offered [0x12#8, 0x1A#8, 0x00#8])) = some (.badCommand .emptyValues) ∧
    refusal (step (offered (0x21#8 :: (List.replicate 16 0x00#8 ++ [0x02#8])))) = some (.badCommand (.boolean 0x02#8)) ∧
    refusal (step (offered [0x31#8, 0x03#8])) = some (.badCommand (.channel 0x03#8)) ∧
    refusal (step (offered (0x32#8 :: (List.replicate 8 0x00#8 ++ [0x02#8])))) = some (.badCommand (.pll 0x02#8)) ∧
    refusal (step (offered (0x33#8 :: (List.replicate 4 0x00#8 ++ [0x01#8])))) = some (.badCommand (.reference 0x01#8)) ∧
    refusal (step (offered [0x36#8, 0x02#8, 0x02#8])) = some (.badCommand (.boolean 0x02#8)) ∧
    refusal (step (offered [0x35#8, 0x02#8, 0x04#8])) = some (.badCommand (.level 0x04#8)) ∧
    refusal (step (offered [0x38#8, 0x02#8, 0x02#8])) = some (.badCommand (.pll 0x02#8)) := by decide

theorem test_witness_StepRunsTheCommand :
    (offered [0x04#8]).wait = .none ∧ (offered [0x04#8]).seq = none ∧ decode (offered [0x04#8]).command = .command .stop [] ∧
    { offered [] with wait := .stop }.wait ≠ .none := by decide

theorem test_witness_StartOutcome :
    configValid State.reset.cfg = true ∧
    reply State.reset.cfg State.reset.line .start = some (hw .start 0x08) ∧
    reply State.reset.cfg (inside .wData []).line .start = some (hw .repStart 0x10) ∧
    reply State.reset.cfg (inside .wData [told .arbLost]).line .start = some (hw .arbLost 0x38) ∧
    reply State.reset.cfg (inside .wData [told .txAck]).line .start = some (hw .txAck 0x28) ∧
    reply State.reset.cfg (inside .wData [.never]).line .start = none := by decide

theorem test_witness_SendAddressOutcome :
    configValid State.reset.cfg = true ∧ (inside .none [told .arbLost]).line.answers.tail.headD .asChip ≠ .never ∧
    (inside .none []).line.answers.tail.headD .asChip ≠ .never ∧
    reply State.reset.cfg (inside .none []).line (.address (addressByte State.reset.cfg 0x60#7 false)) = some (hw .slaWAck 0x18) ∧
    reply State.reset.cfg (inside .none []).line (.address (addressByte State.reset.cfg 0x60#7 true)) = some (hw .slaRAck 0x40) ∧
    reply State.reset.cfg (inside .none []).line (.address (addressByte State.reset.cfg 0x61#7 true)) = some (hw .slaRNack 0x48) ∧
    reply State.reset.cfg (inside .none [told .arbLost]).line (.address (addressByte State.reset.cfg 0x60#7 true)) =
      some (hw .arbLost 0x38) := by decide

theorem test_witness_SendByteOutcome :
    configValid State.reset.cfg = true ∧ memWf (inside .wFirst []).line.rm = true ∧
    (inside .wFirst []).line.answers.tail.headD .asChip ≠ .never ∧
    reply State.reset.cfg (inside .wFirst []).line (.tx 0x03#8) = some (hw .txAck 0x28) ∧
    reply State.reset.cfg (inside .wData []).line (.tx 0x03#8) = some (hw .txAck 0x28) ∧
    reply State.reset.cfg (inside .none [told .txAck]).line (.tx 0x03#8) = some (hw .txAck 0x28) ∧
    reply State.reset.cfg (inside .wData [told .txNack]).line (.tx 0x03#8) = some (hw .txNack 0x30) ∧
    reply State.reset.cfg (inside .wData [told .arbLost]).line (.tx 0x03#8) = some (hw .arbLost 0x38) := by decide

theorem test_witness_ReceiveByteOutcome :
    configValid State.reset.cfg = true ∧ memWf (inside .read []).line.rm = true ∧
    (inside .read []).line.answers.tail.headD .asChip ≠ .never ∧
    reply State.reset.cfg (inside .read []).line .rx = some (hw (.rxDone 0x00#8) 0x58) ∧
    reply State.reset.cfg (inside .none [told (.rxDone 0x4F#8)]).line .rx = some (hw (.rxDone 0x4F#8) 0x58) ∧
    reply nacking (nacked []).line .rx = some (hw .rxNack 0x01) ∧
    reply State.reset.cfg (inside .read [told .arbLost]).line .rx = some (hw .arbLost 0x38) := by decide

theorem test_witness_StopOutcome :
    configValid State.reset.cfg = true ∧ nextAnswer State.reset.line ≠ .never := by decide

theorem test_witness_UnansweredActionHangs :
    configValid State.reset.cfg = true ∧ nextAnswer (chip [] 0x00#8 [.never]).line = .never ∧
    ((stuck (exec (.readReg 0x00#8) (chip [] 0x00#8 [.never]))).map State.wait) = some .start := by decide

theorem test_witness_UnansweredStopAfterNackHangs :
    configValid State.reset.cfg = true ∧ [told .txNack, .never].tail.headD .asChip = .never ∧
    reply State.reset.cfg (inside .none [told .slaRNack, .never]).line
      (.address (addressByte State.reset.cfg 0x60#7 true)) = some (hw .slaRNack 0x48) ∧
    reply State.reset.cfg (inside .none [told .slaWNack, .never]).line
      (.address (addressByte State.reset.cfg 0x60#7 false)) = some (hw .slaWNack 0x20) ∧
    reply State.reset.cfg (inside .wData [told .txNack, .never]).line (.tx 0x00#8) = some (hw .txNack 0x30) ∧
    reply nacking (nacked [.never]).line .rx = some (hw .rxNack 0x01) ∧ configValid nacking = true := by decide

theorem test_witness_TransportGuarantees :
    status (callStart State.reset) = some .ok ∧
    status (callStart (inside .none [told .arbLost])) = some (.fault .arbitrationLoss (hw .arbLost 0x38)) ∧
    status (callStart (inside .none [told .txAck])) = some (.fault .protocolViolation (hw .txAck 0x28)) ∧
    status (callAddress 0x60#7 true (inside .none [])) = some .ok ∧
    status (callAddress 0x61#7 true (inside .none [])) = some (.fault .nack (hw .slaRNack 0x48)) ∧
    status (callSend 0x00#8 (inside .wData [])) = some .ok ∧
    status (callSend 0x00#8 (inside .wData [told .arbLost])) = some (.fault .busFault (hw .arbLost 0x38)) ∧
    status ((callReceive (inside .read [])).bind fun r s => .done r.2 s) = some .ok ∧
    status ((callReceive (nacked [])).bind fun r s => .done r.2 s) = some (.fault .nack (hw .rxNack 0x01)) ∧
    status ((callStop State.reset).bind fun _ s => .done .ok s) = some .ok ∧
    State.reset.ps = .idle ∧ reply State.reset.cfg State.reset.line .start = some (hw .start 0x08) := by decide

theorem test_witness_AddressByteOnTheBus :
    State.reset.cfg.rwReadValue = true ∧ configValid State.reset.cfg = true ∧ Responsive State.reset := by decide

/-- The loss at START, on an address byte, on a data byte, on a receive; and at the first and the last action of a WRITE_BULK. -/
theorem test_witness_RecoveryThenTransaction :
    configValid State.reset.cfg = true ∧ memWf (inside .wData [told .arbLost]).line.rm = true ∧
    ChipSpeaks State.reset.cfg ∧ classOf State.reset.cfg.statusCodes (.ofNat 0x38) = .arbLost ∧
    told .arbLost = .status (.ofNat 0x38) 0x00#8 ∧ (inside .wData [told .arbLost]).line.answers = [told .arbLost] ∧
    ([Instr.start, .sendAddress 0x60#7 true, .sendByte 0x00#8].map fun i =>
      response (exec i (inside .wData [told .arbLost]))) = [some [0x38#8], some [0x38#8], some [0x38#8]] ∧
    protocol (exec .receiveByte (inside .read [told .arbLost])) = some (.idle, .none) ∧
    [0x00#8] ≠ ([] : List Byte) ∧ [0x00#8].length ≤ 255 ∧ (0 : Nat) < 3 + [0x00#8].length ∧ 3 < 3 + [0x00#8].length ∧
    response (exec (.writeBulk 0x00#8 [0x00#8]) (chip [] 0x00#8 [told .arbLost])) = some [0x01#8] ∧
    (chip [] 0x00#8 (List.replicate 3 .asChip ++ [told .arbLost])).line.answers =
      List.replicate 3 .asChip ++ [told .arbLost] := by decide

/-- A pair with each of two codes of one class; each call with a fault. -/
theorem test_witness_StatusIsClassAndRawCode :
    reply Config.pRef (chip [] 0x00#8 [.status (.ofNat 0x50) 0x4F#8]).line .rx = some (hw (.rxDone 0x4F#8) 0x50) ∧
    reply Config.pRef (inside .read []).line .rx = some (hw (.rxDone 0x00#8) 0x58) ∧
    nextAnswer (chip [] 0x00#8 [.status (.ofNat 0x50) 0x4F#8]).line = .status (.ofNat 0x50) 0x4F#8 ∧
    status (callStart (inside .none [told .arbLost])) = some (.fault .arbitrationLoss (hw .arbLost 0x38)) ∧
    status (callAddress 0x61#7 true (inside .none [])) = some (.fault .nack (hw .slaRNack 0x48)) ∧
    status (callSend 0x00#8 (inside .wData [told .txNack])) = some (.fault .nack (hw .txNack 0x30)) ∧
    status ((callReceive (nacked [])).bind fun r s => .done r.2 s) = some (.fault .nack (hw .rxNack 0x01)) := by decide

theorem test_witness_RegisterOperationsReturn :
    configValid State.reset.cfg = true ∧ Responsive (inside .none [told .arbLost]) ∧ [0x00#8] ≠ ([] : List Byte) := by
  decide

theorem test_witness_EveryCallIssuedWhateverTheStatus :
    (response (exec (.readReg 0x10#8) State.reset)).isSome = true ∧
    (response (exec (.writeReg 0x10#8 0x00#8) (chip [] 0x00#8 [told .arbLost]))) = some [0x01#8] ∧
    (response (exec (.writeBulk 0x10#8 [0x00#8]) State.reset)).isSome = true ∧
    (response (exec (.updateReg 0x10#8 0x00#8 0x00#8) State.reset)).isSome = true := by decide

/-- A list, and each operation with a fault: an absent chip for READ_REG and UPDATE_REG. -/
theorem test_witness_FaultLatchIsOrOfStatuses :
    status ((runCalls [.start, .stop] State.reset).bind fun _ s => .done .ok s) = some .ok ∧
    callStatuses [.start, .byte 0x00#8] State.reset = [.ok, .fault .busFault (hw .other 0x01)] ∧
    (response (exec (.readReg 0x10#8) State.reset)) = some [0x00#8, 0x00#8] ∧
    ((response (exec (.readReg 0x10#8) (chip [] 0x00#8 [.asChip, told .slaWNack]))).map List.tail) = some [0x01#8] ∧
    response (exec (.writeReg 0x10#8 0x00#8) (chip [] 0x00#8 [.asChip, told .slaWNack])) = some [0x01#8] ∧
    response (exec (.writeBulk 0x10#8 [0x00#8]) (chip [] 0x00#8 [.asChip, told .slaWNack])) = some [0x01#8] ∧
    response (exec (.updateReg 0x10#8 0xFF#8 0x00#8) (chip [] 0x00#8 [.asChip, told .slaWNack])) = some [0x01#8] := by
  decide

/-- Both sides, without and with a fault. -/
theorem test_witness_UpdateIsReadThenWrite :
    response (exec (.updateReg 0x10#8 0x03#8 0x02#8) (chip [(16, 0x4F#8)] 0x00#8 [])) = some [0x00#8] ∧
    response (exec (.readReg 0x10#8) (chip [(16, 0x4F#8)] 0x00#8 [])) = some [0x4F#8, 0x00#8] ∧
    response (exec (.writeReg 0x10#8 0x4E#8) (chip [(16, 0x4F#8)] 0x00#8 [])) = some [0x00#8] ∧
    response (exec (.updateReg 0x10#8 0x03#8 0x02#8) (chip [] 0x00#8 [told .arbLost])) = some [0x01#8] := by decide

/-- Each operation with its last call, its stop, never answered. -/
theorem test_witness_OperationsHangWithTheirCalls :
    let silent (n : Nat) : State :=
      { ready [] with line := { LineEnv.reset with answers := List.replicate n .asChip ++ [.never] } }
    configValid (silent 0).cfg = true ∧ (silent 0).inited = true ∧ (silent 6).line.answers[6]? = some .never ∧
    ((stuck (exec (.readReg 0x00#8) (silent 6))).map State.wait) = some .stop ∧
    ((stuck (exec (.writeReg 0x00#8 0x00#8) (silent 4))).map State.wait) = some .stop ∧
    ((stuck (exec (.writeBulk 0x00#8 [0x00#8, 0x00#8]) (silent 5))).map State.wait) = some .stop ∧
    ((stuck (exec (.updateReg 0x00#8 0x00#8 0x00#8) (silent 11))).map State.wait) = some .stop ∧
    ((stuck (exec .initializeAll (silent 99))).map State.wait) = some .stop ∧
    5 * (Config.pRef.regDisableState.length + Config.pRef.regVcxo.length + 3) + 60 = 100 ∧
    ((stuck (exec (.setFrequency .ch0 707400000#64) (silent 35))).map State.wait) = some .stop ∧
    ((stuck (exec (.setPll 65012345678#64 .b) (silent 11))).map State.wait) = some .stop ∧
    ((stuck (exec (.setCorrection 1000#32 .crystal) (silent 23))).map State.wait) = some .stop ∧
    ((stuck (exec (.outputEnable .ch0 true) (silent 11))).map State.wait) = some .stop ∧
    ((stuck (exec .powerDown (silent 26))).map State.wait) = some .stop := by decide

theorem test_witness_WriteStoresTheBytes :
    configValid State.reset.cfg = true ∧ PlainChip State.reset ∧ memWf State.reset.line.rm = true ∧
    [0x00#8] ≠ ([] : List Byte) ∧ [0x00#8].length ≤ 255 := by decide

theorem test_witness_ReadReturnsTheByte :
    configValid State.reset.cfg = true ∧ PlainChip (chip [(255, 0x01#8)] 0x00#8 []) ∧
    memWf (chip [(255, 0x01#8)] 0x00#8 []).line.rm = true ∧
    response (exec (.readReg 0xFF#8) (chip [(255, 0x01#8)] 0x00#8 [])) = some [0x01#8, 0x00#8] ∧
    response (exec (.readReg 0xFF#8) (chip [] 0x00#8 (List.replicate 5 .asChip ++ [told (.rxDone 0x4F#8)]))) =
      some [0x4F#8, 0x00#8] ∧
    ((response (exec (.readReg 0xFF#8) (chip [] 0x00#8 [told .arbLost]))).map List.tail) = some [0x01#8] := by decide

theorem test_witness_UpdateChangesTheMaskedBits :
    configValid State.reset.cfg = true ∧ PlainChip (chip [(0, 0x01#8)] 0x00#8 []) ∧
    memWf (chip [(0, 0x01#8)] 0x00#8 []).line.rm = true := by decide

theorem test_witness_WriteThenReadReturnsTheByte :
    (1 : Nat) < [0x00#8, 0x01#8].length ∧ configValid State.reset.cfg = true ∧ PlainChip State.reset ∧
    memWf State.reset.line.rm = true ∧ [0x00#8, 0x01#8].length ≤ 255 := by decide

/-- A fault of each of the first three actions, of the first value and of the last one, with answers to come. -/
theorem test_witness_InterruptedWriteIsTorn :
    configValid State.reset.cfg = true ∧ memWf State.reset.line.rm = true ∧ [0x00#8, 0x01#8] ≠ ([] : List Byte) ∧
    [0x00#8, 0x01#8].length ≤ 255 ∧ (4 : Nat) < 3 + [0x00#8, 0x01#8].length ∧
    ChipSpeaks State.reset.cfg ∧ told .arbLost = .status (.ofNat 0x38) 0x00#8 ∧
    (∀ k ∈ [StatusClass.start, .repStart, .slaWAck, .txAck], classOf State.reset.cfg.statusCodes (.ofNat 0x38) ≠ k) ∧
    LineAnswer.never ∉ [told .slaWAck, told .txAck] ∧
    ([0, 1, 2, 3, 4].map fun k => response (exec (.writeBulk 0x00#8 [0x00#8, 0x01#8])
      (chip [] 0x00#8 (List.replicate k .asChip ++ told .arbLost :: [told .slaWAck, told .txAck])))) =
        List.replicate 5 (some [0x01#8]) := by
  decide

/-- The ends of the domain, and a value beyond each of its bounds. -/
theorem test_witness_EncodeFieldsOperation :
    configValid State.reset.cfg = true ∧
    (encodeDomain 4 0 1 && encodeDomain 2051 1048574 1048575) = true ∧
    (encodeDomain 3 0 1 || encodeDomain 2052 0 1 || encodeDomain 4 0 0 || encodeDomain 4 0 1048576 || encodeDomain 4 1 1) =
      false := by decide

theorem test_witness_FieldIdentities :
    (4 ≤ 2051 ∧ 2051 ≤ 2051 ∧ 1 ≤ 1048575 ∧ 1048575 ≤ 1048575 ∧ 1048574 < 1048575) ∧
    (encodeFields 4 0 1).toOption.isSome = true := by decide

/-- The largest reference and the next one, a corrected reference of 1 and one of 0. -/
theorem test_witness_PlanPllOperation :
    configValid State.reset.cfg = true ∧ 2 ^ 44 ≤ (17592186044416#64).toNat ∧ (17592186044415#64).toNat < 2 ^ 44 ∧
    (2500000000#64).toNat < 2 ^ 44 ∧ correctedReference Config.pRef 2500000000 (-1000000000) < 1 ∧
    ((1 : Nat) : Int) = correctedReference Config.pRef 1 0 := by decide

/-- L1 has remainder 0; L2's target is clamped to the range. -/
theorem test_witness_PlanPllProperties :
    ConstraintK1 Config.pRef ∧
    ((planPll Config.pRef 80000000000 2500000000 0).toOption.map fun p => p.target % 2500000000) = some 0 ∧
    ((planPll Config.pRef 60000000000 500000000 0).toOption.map fun p => (p.a, p.target)) = some (90, 45000000000) ∧
    correctedReference Config.pRef 2500002500 0 = correctedReference Config.pRef 2500000000 1000 ∧
    bounded 0 60000000000 90000000000 = bounded 60000000000 60000000000 90000000000 := by decide

/-- The divide-by-4 threshold and one below it; a result of 64 bits and one of 65; a PLL frequency that is too small and one
that is not. -/
theorem test_witness_PlanMultisynthOperation :
    configValid Config.pRef = true ∧ configValid { Config.pRef with multisynthMax := 2 ^ 56 } = true ∧
    Config.pRef.divBy4Threshold * 100 ≤ bounded 15000000000 50000000 22500000000 ∧
    4 * bounded 15000000000 50000000 22500000000 < 2 ^ 64 ∧
    2 ^ 64 ≤ 4 * bounded (2 ^ 63) 50000000 (2 ^ 56 * 100) ∧
    bounded 14999999999 50000000 22500000000 < Config.pRef.divBy4Threshold * 100 ∧
    refusal (exec (.planMultisynth 100000000#64 0#64 true) State.reset) = some .pllFreqTooSmall ∧
    (response (exec (.planMultisynth 100000000#64 80000000000#64 true) State.reset)).isSome = true := by decide

theorem test_witness_PlanMultisynthProperties :
    ConstraintK1 Config.pRef ∧ ConstraintK2 Config.pRef ∧ ConstraintsK3to5 Config.pRef ∧
    ((planMultisynth Config.pRef 15000000000 0 true).toOption.map fun p => p.divby4) = some true ∧
    ((planMultisynth Config.pRef 100000000 0 false).toOption.map fun p => p.divby4) = some false ∧
    ((planMultisynth Config.pRef 100000000 80000000000 true).toOption.map fun p => p.divby4) = some false ∧
    Config.pRef.divBy4Threshold * 100 ≤ 15000000000 := by decide

theorem test_witness_CorrectionIsSymmetric : Config.pRef.corrRounding = .towardZero := by decide

theorem test_witness_PlannerResultsFitTheirPorts :
    ConstraintK1 Config.pRef ∧ ConstraintK2 Config.pRef ∧ ConstraintK6 Config.pRef ∧ 2 ^ 64 - 1 < 2 ^ 64 ∧
    ((planPll Config.pRef 80000000000 17592186044415 (2147483647#32).toInt).toOption.isSome) = true ∧
    ((planMultisynth Config.pRef 14999999999 0 false).toOption.map MsPlan.resulting) = some 89999999994 ∧
    bounded 14999999999 (Config.pRef.multisynthMin * 100) (Config.pRef.multisynthMax * 100) <
      Config.pRef.divBy4Threshold * 100 := by decide

/-- The lowest direct frequency and the one below it, the lowest of the bands and the one below it. -/
theorem test_witness_SelectRDividerOperation :
    configValid State.reset.cfg = true ∧ 128 * (Config.pRef.clkoutMin * 100) ≤ (51200000#64).toNat ∧
    ((51199999#64).toNat < 128 * (Config.pRef.clkoutMin * 100) ∧ Config.pRef.clkoutMin * 100 ≤ (51199999#64).toNat) ∧
    Config.pRef.clkoutMin * 100 ≤ (400000#64).toNat ∧ (399999#64).toNat < Config.pRef.clkoutMin * 100 ∧
    Config.pRef.clkoutMin = 4000 := by decide

theorem test_witness_SelectRDividerProperties :
    (selectRDivider Config.pRef 51200000).1 = 0 ∧ Config.pRef.clkoutMin * 100 ≤ 400000 ∧
    399999 < Config.pRef.clkoutMin * 100 ∧ (399999 : Nat) ≤ 400000 := by decide

theorem test_witness_ControllerRefusedBeforeInitialize :
    configValid State.reset.cfg = true ∧ State.reset.inited = false := by decide

/-- Each constraint at the first value that breaks it, and the reference configuration, which breaks none. -/
theorem test_witness_InvalidConfigurationRefused :
    ([{ Config.pRef with vcoMin := 0 }, { Config.pRef with multisynthMin := 0 },
      { Config.pRef with multisynthMax := 149999999 }, { Config.pRef with divBy4Threshold := 225000001 },
      { Config.pRef with multisynthMin := 438000 }, { Config.pRef with clkoutMin := 0 },
      { Config.pRef with xtalFreqX100 := 666666666 }, { Config.pRef with xtalFreqX100 := 6000000001 },
      { Config.pRef with vcoMin := 32399 }, { wide with xtalFreqX100 := 2 ^ 44 },
      { Config.pRef with regXtalLoad := 33#8 }].map fun c =>
        refusal (exec .start (configured c))) = List.replicate 11 (some .badConfig) ∧
    ([Config.pRef, { Config.pRef with vcoMin := 32400 }, { wide with xtalFreqX100 := 2 ^ 44 - 1 }].map fun c =>
      (response (exec .start (configured c))).isSome) = [true, true, true] := by decide

theorem test_witness_InitializeOutcome :
    configValid State.reset.cfg = true ∧ Responsive State.reset ∧ (1 : Nat) ≤ 2500000000 ∧
    ((2500000000 : Nat) : Int) = correctedCrystal State.reset.cfg State.reset.pllA.correctionPpb ∧
    ((2500000000 : Nat) : Int) = correctedCrystal State.reset.cfg State.reset.pllB.correctionPpb := by decide

theorem test_witness_InitializeProgramsTheChip :
    configValid State.reset.cfg = true ∧ PlainChip State.reset ∧ memWf State.reset.line.rm = true ∧
    (planPll State.reset.cfg State.reset.cfg.pllBringupX100 State.reset.cfg.xtalFreqX100
      State.reset.pllA.correctionPpb.toInt).toOption.isSome = true ∧
    (planPll State.reset.cfg State.reset.cfg.pllBringupX100 State.reset.cfg.xtalFreqX100
      State.reset.pllB.correctionPpb.toInt).toOption.isSome = true := by decide

theorem test_witness_SetFrequencyOutcome :
    configValid (ready []).cfg = true ∧ (ready []).inited = true ∧ Responsive (ready []) ∧
    3240000 ≤ (pllOf (ready []) (chOf (ready []) .ch2).assignedPll).frequency.toNat ∧
    (ready []).cfg.intModePolicy = .divBy4Only ∧
    (configured { Config.pRef with intModePolicy := .whenBZero }).cfg.intModePolicy = .whenBZero ∧
    configValid { Config.pRef with intModePolicy := .whenBZero } = true := by decide

theorem test_witness_SetFrequencyProgramsTheChip :
    configValid (ready []).cfg = true ∧ (ready []).inited = true ∧ PlainChip (ready []) ∧ memWf (ready []).line.rm = true ∧
    (planMultisynth (ready []).cfg (selectRDivider (ready []).cfg (400000#64).toNat).2
      (pllOf (ready []) (chOf (ready []) .ch0).assignedPll).frequency.toNat true).toOption.isSome = true := by decide

/-- A correction of −100 % for INITIALIZE and SET_PLL; a stored PLL frequency of 0 for SET_FREQUENCY. -/
theorem test_witness_ControllerPlanRefusals :
    configValid (ready []).cfg = true ∧ (ready []).inited = true ∧
    correctedCrystal Config.pRef (-1000000000#32) < 1 ∧
    refusal (exec .initializeAll { ready [] with pllA := { PllState.reset with correctionPpb := -1000000000#32 } }) =
      some .correctedReference ∧
    bounded (selectRDivider Config.pRef (100000000#64).toNat).2 50000000 22500000000 <
      Config.pRef.divBy4Threshold * 100 ∧
    refusal (exec (.setFrequency .ch0 100000000#64) { ready [] with pllA := .reset }) = some .pllFreqTooSmall := by decide

theorem test_witness_SetPllOutcome :
    configValid (ready []).cfg = true ∧ (ready []).inited = true ∧ Responsive (ready []) ∧
    (1 : Nat) ≤ 2500000000 ∧ ((2500000000 : Nat) : Int) = correctedCrystal (ready []).cfg (pllOf (ready []) .b).correctionPpb ∧
    PlainChip (ready []) ∧ memWf (ready []).line.rm = true := by decide

theorem test_witness_ControllerPlansUnderTheInvariant :
    (Inv State.reset ∧ configValid State.reset.cfg = true ∧ Responsive State.reset) ∧
    Inv (ready []) ∧ configValid (ready []).cfg = true ∧ Responsive (ready []) ∧ (ready []).inited = true ∧
    RatioReaches (ready []).cfg (pllOf (ready []) (chOf (ready []) .ch2).assignedPll).correctionPpb ∧
    1 ≤ correctedCrystal (ready []).cfg (-999999999#32) :=
  ⟨⟨⟨by decide, rfl, rfl, by decide, by decide, by decide, by decide⟩, by decide, by decide⟩,
    ⟨by decide, rfl, rfl, by decide, by decide, by decide, by decide⟩, by decide, by decide, rfl, by decide, by decide⟩

theorem test_witness_SetCorrectionOutcome :
    configValid (ready []).cfg = true ∧ (ready []).inited = true ∧ Responsive (ready []) ∧
    correctedCrystal (ready []).cfg (-1000000000#32) < 1 ∧
    ((3 : Nat) : Int) = correctedCrystal (ready []).cfg (-999999999#32) ∧ (1 : Nat) ≤ 3 ∧
    PlainChip (ready []) ∧ memWf (ready []).line.rm = true := by decide

theorem test_witness_OutputEnableOutcome :
    configValid (ready []).cfg = true ∧ (ready []).inited = true ∧ Responsive (ready []) ∧ PlainChip (ready []) ∧
    memWf (ready []).line.rm = true := by decide

theorem test_witness_DriveStrengthOutcome :
    configValid (ready []).cfg = true ∧ State.reset.inited = false ∧ (ready []).inited = true ∧
    response (exec (.driveStrength .ch0 3#2) (ready [])) = some [] := by decide

theorem test_witness_DriveStrengthProgramsTheChip :
    configValid (ready []).cfg = true ∧ (ready []).inited = true ∧ Responsive (ready []) ∧ PlainChip (ready []) ∧
    memWf (ready []).line.rm = true := by decide

theorem test_witness_SetClockPowerOutcome :
    configValid (ready []).cfg = true ∧ (ready []).inited = true ∧ Responsive (ready []) ∧ PlainChip (ready []) ∧
    memWf (ready []).line.rm = true := by decide

theorem test_witness_PowerDownOutcome :
    configValid (ready []).cfg = true ∧ (ready []).inited = true ∧ Responsive (ready []) ∧ PlainChip (ready []) ∧
    memWf (ready []).line.rm = true := by decide

theorem test_witness_SetPllAssignmentOutcome :
    configValid (ready []).cfg = true ∧ (ready []).inited = true ∧ Responsive (ready []) ∧ PlainChip (ready []) ∧
    memWf (ready []).line.rm = true := by decide

theorem test_witness_MaskedUpdateOperations :
    configValid (ready []).cfg = true ∧ (ready []).inited = true ∧
    (response (exec (.outputEnable .ch1 true) (ready []))) = some [] ∧
    (response (exec (.setClockPower .ch1 true) (ready []))) = some [] ∧
    (response (exec (.setPllAssignment .ch1 .b) (ready []))) = some [] := by decide

theorem test_witness_ControllerBusSequences :
    configValid (ready []).cfg = true ∧ PlainChip (ready []) ∧ memWf (ready []).line.rm = true ∧ (ready []).inited = true ∧
    (planPll (ready []).cfg (ready []).cfg.pllBringupX100 (ready []).cfg.xtalFreqX100 0).toOption.isSome = true ∧
    (planMultisynth (ready []).cfg (selectRDivider (ready []).cfg (0#64).toNat).2 80000000000 true).toOption.isSome =
      true := by decide

theorem test_witness_MirrorsWrittenOnlyByTheirOperations :
    response (exec (.setCorrection 1000#32 .crystal) (ready [])) = some [] := by decide

theorem test_witness_StepKeepsTheInvariant :
    Inv (offered [0x00#8]) ∧ response (step (offered [0x00#8])) = some [0x00#8] ∧
    Inv { ready [] with command := [0x33#8, 0x00#8, 0x00#8, 0x03#8, 0xE8#8, 0x00#8] } ∧
    response (step { ready [] with command := [0x33#8, 0x00#8, 0x00#8, 0x03#8, 0xE8#8, 0x00#8] }) = some [] :=
  ⟨⟨by decide, rfl, rfl, by decide, by decide, fun h => absurd h (by decide), by decide⟩, by decide,
    ⟨by decide, rfl, rfl, by decide, by decide, by decide, by decide⟩, by decide⟩

end Sys2Proof.Tests
end

section
/-! Proofs about the Frequency Planner (`spec/40_planner.md`): ENCODE_FIELDS. -/

namespace Sys2Proof.Machine

/-! ### The operation, by what the packing answers -/

theorem exec_encodeFields (a b c : U32) (s : State) : exec (.encodeFields a b c) s = execEncodeFields a b c s := by
  rfl

theorem execEncodeFields_of_ok {s : State} {a b c : U32} {f : RegisterFields} (hv : configValid s.cfg = true)
    (h : encodeFields a.toNat b.toNat c.toNat = .ok f) :
    execEncodeFields a b c s = .next (respond (fieldsBytes f) s) := by
  rw [execEncodeFields, whenConfigured_of_valid hv, h]

theorem execEncodeFields_of_error {s : State} {a b c : U32} {r : Refusal} (hv : configValid s.cfg = true)
    (h : encodeFields a.toNat b.toNat c.toNat = .error r) : execEncodeFields a b c s = .refused r := by
  rw [execEncodeFields, whenConfigured_of_valid hv, h]

/-! ### The packed fields at the port -/

/-- On the domain of R119 the widths of R80 cut nothing off, so the port carries the three numbers themselves (R73). -/
theorem fieldsBytes_packFields {a b c : Nat} (h : 4 ≤ a ∧ a ≤ 2051 ∧ 1 ≤ c ∧ c ≤ 1048575 ∧ b < c) :
    fieldsBytes (packFields a b c) =
      beBytes 3 (128 * a + 128 * b / c - 512) ++ beBytes 3 (128 * b - c * (128 * b / c)) ++ beBytes 3 c := by
  obtain ⟨hp1, hp2, hp3⟩ := packFields_toNat h
  simp only [fieldsBytes, hp1, hp2, hp3, fracQuotient]

/-! ### The obligation -/

/-- Settles O28, by the two sides of the packing's domain. -/
theorem encodeFieldsOperation : Obligations.EncodeFieldsOperation := by
  unfold Obligations.EncodeFieldsOperation
  refine ⟨fun s a b c hv => ⟨rfl, fun hin => ?inside, fun hout => ?outside⟩, ?worked, ?least⟩
  case inside =>
    have ⟨ha, _, _, _, hbc⟩ := hin
    have hp1 : 512 ≤ 128 * a.toNat + 128 * b.toNat / c.toNat := Nat.le_add_right_of_le (by omega)
    have hexec : exec (.encodeFields a b c) s = .next (respond
        (beBytes 3 (128 * a.toNat + 128 * b.toNat / c.toNat - 512) ++
          beBytes 3 (128 * b.toNat - c.toNat * (128 * b.toNat / c.toNat)) ++ beBytes 3 c.toNat) s) := by
      rw [exec_encodeFields, execEncodeFields_of_ok hv (encodeFields_of_domain hin), fieldsBytes_packFields hin]
    exact ⟨fracQuotient_le hbc, hp1, (Nat.mod_def _ _).symm, hexec⟩
  case outside => rw [exec_encodeFields, execEncodeFields_of_error hv (encodeFields_of_not_domain hout)]
  case worked => exact encodeFields_of_domain (by decide)
  case least => exact encodeFields_of_domain (by decide)

end Sys2Proof.Machine
end

section
/-! Proofs about the R-Divider Selector (`spec/41_rdiv.md`): SELECT_R_DIVIDER. -/

namespace Sys2Proof.Machine

/-! ### The configuration -/

/-- K6 of R8 is one of the tests of a valid configuration (R262). -/
theorem constraintK6_of_configValid {c : Config} (hv : configValid c = true) : ConstraintK6 c := by
  simp only [configValid, constraintsHold, Bool.and_eq_true, decide_eq_true_eq] at hv
  obtain ⟨⟨⟨⟨⟨⟨_, hpos⟩, hwidth⟩, _⟩, _⟩, _⟩, _⟩ := hv
  exact ⟨hpos, hwidth⟩

theorem directMin_eq (c : Config) : directMin c = 128 * (c.clkoutMin * 100) := rfl

theorem directMin_lt_of_constraintK6 {c : Config} (h : ConstraintK6 c) : directMin c < 2 ^ 57 := by
  rw [directMin, Nat.mul_comm]
  exact h.2

/-! ### The exponent in the bands of R141 -/

/-- From the lowest band up the least exponent reaches `128 × m`, since 7 does. -/
theorem le_mul_two_pow_leastExponent {m freq : Nat} (h : m ≤ freq) :
    128 * m ≤ freq * 2 ^ leastExponent freq (128 * m) := by
  obtain ⟨_, _, hreach, _⟩ := leastExponent_spec freq (128 * m)
  exact hreach (.inr (by omega))

/-- Below the direct range the exponent before the least one misses it; before 1 that is exponent 0. -/
theorem mul_two_pow_leastExponent_sub_one_lt {d freq : Nat} (h : freq < d) :
    freq * 2 ^ (leastExponent freq d - 1) < d := by
  obtain ⟨hpos, _, _, hleast⟩ := leastExponent_spec freq d
  obtain hone | hmore := Nat.eq_or_lt_of_le hpos
  · rw [← hone]
    omega
  · exact hleast _ (by omega) (by omega)

/-- R143: below the lowest band no exponent up to 7 reaches `128 × m`, so the least exponent saturates. -/
theorem leastExponent_eq_seven {m freq : Nat} (h : freq < m) : leastExponent freq (128 * m) = 7 := by
  obtain ⟨_, hle, hreach, _⟩ := leastExponent_spec freq (128 * m)
  by_contra hne
  have hreached := hreach (.inl (by omega))
  have hbound := Nat.mul_le_mul_left freq (Nat.pow_le_pow_right (n := 2) (by omega) hle)
  omega

/-! ### The selector -/

theorem selectRDivider_of_direct {c : Config} {freq : Nat} (h : directMin c ≤ freq) :
    selectRDivider c freq = (0, freq) := if_pos h

theorem selectRDivider_of_lt {c : Config} {freq : Nat} (h : freq < directMin c) :
    selectRDivider c freq =
      (leastExponent freq (directMin c), freq * 2 ^ leastExponent freq (directMin c)) :=
  if_neg (Nat.not_le.mpr h)

/-- R144 (b). -/
theorem selectRDivider_snd (c : Config) (freq : Nat) :
    (selectRDivider c freq).2 = freq * 2 ^ (selectRDivider c freq).1 := by
  obtain hbelow | hdirect := Nat.lt_or_ge freq (directMin c)
  · rw [selectRDivider_of_lt hbelow]
  · simp [selectRDivider_of_direct hdirect]

theorem selectRDivider_fst_le (c : Config) (freq : Nat) : (selectRDivider c freq).1 ≤ 7 := by
  obtain hbelow | hdirect := Nat.lt_or_ge freq (directMin c)
  · rw [selectRDivider_of_lt hbelow]
    exact (leastExponent_spec freq _).2.1
  · simp [selectRDivider_of_direct hdirect]

/-- R142: the scaled frequency fits its port, since K6 keeps what is multiplied, by 128 at most, below `2 ^ 57`. -/
theorem selectRDivider_snd_lt {c : Config} {freq : Nat} (hK6 : ConstraintK6 c) (hfreq : freq < 2 ^ 64) :
    (selectRDivider c freq).2 < 2 ^ 64 := by
  obtain hbelow | hdirect := Nat.lt_or_ge freq (directMin c)
  · have hsmall : freq < 2 ^ 57 := hbelow.trans (directMin_lt_of_constraintK6 hK6)
    rw [selectRDivider_snd]
    calc freq * 2 ^ (selectRDivider c freq).1
        ≤ freq * 2 ^ 7 := Nat.mul_le_mul_left _ (Nat.pow_le_pow_right (by omega) (selectRDivider_fst_le c freq))
      _ < 2 ^ 64 := by omega
  · rw [selectRDivider_of_direct hdirect]
    exact hfreq

/-! ### The operation -/

theorem exec_selectRDivider (freq : U64) (s : State) : exec (.selectRDivider freq) s = execSelectRDivider freq s := by
  rfl

/-- The response is the exponent's byte and the frequency scaled by that exponent. -/
theorem execSelectRDivider_of_valid {s : State} (hv : configValid s.cfg = true) (freq : U64) :
    execSelectRDivider freq s = .next (respond (BitVec.ofNat 8 (selectRDivider s.cfg freq.toNat).1 ::
      beBytes 8 (freq.toNat * 2 ^ (selectRDivider s.cfg freq.toNat).1)) s) := by
  rw [execSelectRDivider, whenConfigured_of_valid hv, ← selectRDivider_snd]
  rfl

/-! ### The obligation -/

/-- Settles O36, by the bands of R141: the direct range, the seven bands below it, and what lies below them. -/
theorem selectRDividerOperation : Obligations.SelectRDividerOperation := by
  unfold Obligations.SelectRDividerOperation
  refine ⟨fun s freq hv => ⟨rfl, (selectRDivider s.cfg freq.toNat).1, selectRDivider_fst_le _ _, ?fits, ?answer,
    ?direct, ?bands, ?below⟩, ?worked⟩
  case fits =>
    rw [← selectRDivider_snd]
    exact selectRDivider_snd_lt (constraintK6_of_configValid hv) freq.isLt
  case answer =>
    rw [exec_selectRDivider, execSelectRDivider_of_valid hv]
    rfl
  case direct =>
    intro h
    rw [selectRDivider_of_direct h]
  case bands =>
    intro hm hd
    rw [selectRDivider_of_lt hd]
    exact ⟨(leastExponent_spec _ _).1, le_mul_two_pow_leastExponent hm, mul_two_pow_leastExponent_sub_one_lt hd⟩
  case below =>
    intro hm
    rw [selectRDivider_of_lt (by rw [directMin_eq]; omega)]
    exact leastExponent_eq_seven hm
  case worked =>
    intro c hc
    have hd : directMin c = 51200000 := by rw [directMin_eq, hc]
    rw [selectRDivider_of_lt (by omega), hd]
    decide

end Sys2Proof.Machine
end

section
/-! Proofs about the Clock Controller (`spec/44_controller.md`): DRIVE_STRENGTH. -/

namespace Sys2Proof.Machine

/-! ### A controller operation while `inited` is false (R195) -/

theorem whenInited_of_not_inited {s : State} (hv : configValid s.cfg = true) (hi : s.inited = false) (r : Result) :
    whenInited s r = .refused .notInitialized := by
  simp [whenInited, whenConfigured_of_valid hv, hi]

/-! ### The masked update, alone and as a controller list of its own -/

theorem Run.finish_eq_next_iff {α : Type} {r : Run α} {k : α → State → State} {t : State} :
    r.finish k = .next t ↔ ∃ a s, r = .done a s ∧ t = k a s := by
  refine ⟨Run.finish_eq_next, ?_⟩
  rintro ⟨a, s, rfl, rfl⟩
  exact Run.finish_done a s k

theorem exec_updateReg (addr mask value : Byte) (s : State) :
    exec (.updateReg addr mask value) s = execUpdateReg addr mask value s := by
  rfl

/-- UPDATE_REG answers exactly when the procedure ends, with the latch as its response (R180, R186). -/
theorem execUpdateReg_eq_next_iff {addr mask value : Byte} {s u : State} (hv : configValid s.cfg = true) :
    execUpdateReg addr mask value s = .next u ↔
      ∃ w, updateReg addr mask value s = .done () w ∧ u = respond [boolByte w.raFault] w := by
  rw [execUpdateReg, whenConfigured_of_valid hv, Run.finish_eq_next_iff]
  exact ⟨fun ⟨_, w, hw, hu⟩ => ⟨w, hw, hu⟩, fun ⟨w, hw, hu⟩ => ⟨(), w, hw, hu⟩⟩

/-- A list of one update is that update; it adds only the ghost `ctl_fault` of R196. -/
theorem runRaOps_update (addr mask value : Byte) (s : State) :
    runRaOps [.update addr mask value] s =
      (updateReg addr mask value s).bind fun _ t => .done (t.raFault || false) t := rfl

theorem runRaOps_update_eq_done_iff {addr mask value : Byte} {s w : State} :
    (∃ fault, runRaOps [.update addr mask value] s = .done fault w) ↔ updateReg addr mask value s = .done () w := by
  rw [runRaOps_update]
  constructor
  · rintro ⟨_, h⟩
    obtain ⟨_, u, hu, h⟩ := Run.bind_eq_done h
    cases h
    exact hu
  · intro h
    exact ⟨_, by rw [h, Run.bind_done]⟩

/-! ### A response that is written over -/

@[simp] theorem respond_setChOf_respond (bs cs : List Byte) (s : State) (i : Channel) (v : ClockChannel) :
    respond bs (setChOf (respond cs s) i v) = respond bs (setChOf s i v) := by
  cases i <;> rfl

/-! ### The operation -/

theorem exec_driveStrength (i : Channel) (level : BitVec 2) (s : State) :
    exec (.driveStrength i level) s = execDriveStrength i level s := by
  rfl

/-- R208: DRIVE_STRENGTH answers exactly when its update of the drive field ends. The update leaves the mirrors alone, so
the one that is written still has the other fields of the state before. -/
theorem execDriveStrength_eq_next_iff {s t : State} {i : Channel} {level : BitVec 2} (hv : configValid s.cfg = true)
    (hi : s.inited = true) :
    execDriveStrength i level s = .next t ↔
      ∃ w, updateReg (clkCtrlAddr s.cfg i) (3#8 <<< s.cfg.ccDrv.val) (level.zeroExtend 8 <<< s.cfg.ccDrv.val) s =
          .done () w ∧
        t = respond [] (setChOf w i { chOf s i with driveStrength := level }) := by
  rw [execDriveStrength, whenInited_of_inited hv hi, Run.finish_eq_next_iff, exists_comm]
  refine exists_congr fun w => ?_
  rw [exists_and_right, runRaOps_update_eq_done_iff]
  refine and_congr_right fun hw => ?_
  have hbus : BusOnly s w := (updateReg_frame hw).1
  rw [hbus.chOf i]

/-! ### The obligation -/

/-- Settles O49: the operation and UPDATE_REG answer in the ends of one and the same update, and the response that UPDATE_REG
adds is written over. -/
theorem driveStrengthOutcome : Obligations.DriveStrengthOutcome := by
  unfold Obligations.DriveStrengthOutcome
  refine fun s i level hv => ⟨rfl, fun hi => ?refused, fun hi t => ?answer⟩
  case refused => rw [exec_driveStrength, execDriveStrength, whenInited_of_not_inited hv hi]
  case answer =>
    simp only [exec_driveStrength, exec_updateReg, execDriveStrength_eq_next_iff hv hi, execUpdateReg_eq_next_iff hv]
    constructor
    · rintro ⟨w, hw, rfl⟩
      exact ⟨_, ⟨w, hw, rfl⟩, (respond_setChOf_respond _ _ _ _ _).symm⟩
    · rintro ⟨_, ⟨w, hw, rfl⟩, rfl⟩
      exact ⟨w, hw, respond_setChOf_respond _ _ _ _ _⟩

end Sys2Proof.Machine
end

section
/-! Proofs about the command format (`spec/30_encoding.md` R71 to R75): decoder and encoder. -/

namespace Sys2Proof

open Machine

/-! ### Decoding a packet -/

theorem decode_code (o : Op) (bs : List Byte) : decode (o.code :: bs) = decodeOperands o bs := by
  simp [decode]

/-- The operand readers of an operation, one after the other, give back the operands that its packet carries (R71, R73). -/
theorem decodeOperands_encodeOperands {i : Instr} (hi : i.wellFormed = true) (rest : List Byte) :
    decodeOperands i.op (encodeOperands i ++ rest) = .command i rest := by
  cases i with
  | writeBulk addr values =>
    simp only [Instr.op, decodeOperands, encodeOperands, List.cons_append, byteOperand_cons]
    exact valuesOperand_length rest hi _
  | start | receiveByte | stop | initializeAll | powerDown => rfl
  | sendAddress | sendByte | readReg | writeReg | updateReg | planPll | planMultisynth | encodeFields | selectRDivider
  | setFrequency | setPll | setCorrection | outputEnable | driveStrength | setClockPower | setPllAssignment =>
    simp [Instr.op, decodeOperands, encodeOperands]

/-- Settles O1: the opcode selects the readers, and they give the operands back. -/
theorem decodeOfEncode : Obligations.DecodeOfEncode := by
  intro i rest hi
  rw [encode, List.cons_append, decode_code, decodeOperands_encodeOperands hi]

/-! ### The packet of what was decoded -/

/-- An operation whose operand bytes are these, with the rest that follows them. -/
def ReadFrom (bs : List Byte) (o : Op) (i : Instr) (rest : List Byte) : Prop :=
  i.op = o ∧ i.wellFormed = true ∧ bs = encodeOperands i ++ rest

theorem decodeOperands_eq_command {o : Op} {bs : List Byte} {i : Instr} {rest : List Byte}
    (h : decodeOperands o bs = .command i rest) : ReadFrom bs o i rest := by
  cases o with
  | start | receiveByte | stop | initializeAll | powerDown => cases h; exact ⟨rfl, rfl, rfl⟩
  | sendAddress =>
    simp only [decodeOperands] at h
    obtain ⟨a, r, rfl, h1⟩ := addrOperand_eq_command h
    obtain ⟨b, r, rfl, h2⟩ := boolOperand_eq_command h1
    cases h2; exact ⟨rfl, rfl, rfl⟩
  | sendByte | readReg =>
    simp only [decodeOperands] at h
    obtain ⟨b, r, rfl, h1⟩ := byteOperand_eq_command h
    cases h1; exact ⟨rfl, rfl, rfl⟩
  | writeReg =>
    simp only [decodeOperands] at h
    obtain ⟨a, r, rfl, h1⟩ := byteOperand_eq_command h
    obtain ⟨b, r, rfl, h2⟩ := byteOperand_eq_command h1
    cases h2; exact ⟨rfl, rfl, rfl⟩
  | writeBulk =>
    simp only [decodeOperands] at h
    obtain ⟨a, r, rfl, h1⟩ := byteOperand_eq_command h
    obtain ⟨vs, r, rfl, hl, h2⟩ := valuesOperand_eq_command h1
    cases h2; exact ⟨rfl, hl, rfl⟩
  | updateReg =>
    simp only [decodeOperands] at h
    obtain ⟨a, r, rfl, h1⟩ := byteOperand_eq_command h
    obtain ⟨m, r, rfl, h2⟩ := byteOperand_eq_command h1
    obtain ⟨v, r, rfl, h3⟩ := byteOperand_eq_command h2
    cases h3; exact ⟨rfl, rfl, rfl⟩
  | planPll =>
    simp only [decodeOperands] at h
    obtain ⟨t, r, rfl, h1⟩ := freqOperand_eq_command h
    obtain ⟨f, r, rfl, h2⟩ := freqOperand_eq_command h1
    obtain ⟨p, r, rfl, h3⟩ := wordOperand_eq_command h2
    cases h3; exact ⟨rfl, rfl, by simp [encodeOperands]⟩
  | planMultisynth =>
    simp only [decodeOperands] at h
    obtain ⟨t, r, rfl, h1⟩ := freqOperand_eq_command h
    obtain ⟨f, r, rfl, h2⟩ := freqOperand_eq_command h1
    obtain ⟨b, r, rfl, h3⟩ := boolOperand_eq_command h2
    cases h3; exact ⟨rfl, rfl, by simp [encodeOperands]⟩
  | encodeFields =>
    simp only [decodeOperands] at h
    obtain ⟨a, r, rfl, h1⟩ := wordOperand_eq_command h
    obtain ⟨b, r, rfl, h2⟩ := wordOperand_eq_command h1
    obtain ⟨c, r, rfl, h3⟩ := wordOperand_eq_command h2
    cases h3; exact ⟨rfl, rfl, by simp [encodeOperands]⟩
  | selectRDivider =>
    simp only [decodeOperands] at h
    obtain ⟨f, r, rfl, h1⟩ := freqOperand_eq_command h
    cases h1; exact ⟨rfl, rfl, rfl⟩
  | setFrequency =>
    simp only [decodeOperands] at h
    obtain ⟨c, r, rfl, h1⟩ := channelOperand_eq_command h
    obtain ⟨f, r, rfl, h2⟩ := freqOperand_eq_command h1
    cases h2; exact ⟨rfl, rfl, rfl⟩
  | setPll =>
    simp only [decodeOperands] at h
    obtain ⟨f, r, rfl, h1⟩ := freqOperand_eq_command h
    obtain ⟨x, r, rfl, h2⟩ := pllOperand_eq_command h1
    cases h2; exact ⟨rfl, rfl, by simp [encodeOperands]⟩
  | setCorrection =>
    simp only [decodeOperands] at h
    obtain ⟨p, r, rfl, h1⟩ := wordOperand_eq_command h
    obtain ⟨x, r, rfl, h2⟩ := referenceOperand_eq_command h1
    cases h2; exact ⟨rfl, rfl, by simp [encodeOperands]⟩
  | outputEnable | setClockPower =>
    simp only [decodeOperands] at h
    obtain ⟨c, r, rfl, h1⟩ := channelOperand_eq_command h
    obtain ⟨b, r, rfl, h2⟩ := boolOperand_eq_command h1
    cases h2; exact ⟨rfl, rfl, rfl⟩
  | driveStrength =>
    simp only [decodeOperands] at h
    obtain ⟨c, r, rfl, h1⟩ := channelOperand_eq_command h
    obtain ⟨l, r, rfl, h2⟩ := levelOperand_eq_command h1
    cases h2; exact ⟨rfl, rfl, rfl⟩
  | setPllAssignment =>
    simp only [decodeOperands] at h
    obtain ⟨c, r, rfl, h1⟩ := channelOperand_eq_command h
    obtain ⟨x, r, rfl, h2⟩ := pllOperand_eq_command h1
    cases h2; exact ⟨rfl, rfl, rfl⟩

/-- Settles O2: the opcode read is the operation's own, and the readers took exactly its operand bytes. -/
theorem encodeOfDecode : Obligations.EncodeOfDecode := by
  intro bs i rest h
  cases bs with
  | nil => cases h
  | cons b bs =>
    unfold decode at h
    cases hb : Op.ofByte b with
    | none => simp [hb] at h
    | some o =>
      simp only [hb] at h
      obtain ⟨hop, hwf, hbs⟩ := decodeOperands_eq_command h
      exact ⟨hwf, by rw [ofByte_eq_some hb, hbs, encode, hop, List.cons_append]⟩

/-- Settles O3, each packet by running the decoder on it. -/
theorem vectorPacketsDecode : Obligations.VectorPacketsDecode := by
  refine ⟨?_, ?_, ?_, ?_, ?_, ?_, ?_⟩ <;> decide

/-! ### Packets that are refused -/

/-- R74: the opcode bytes between and above the rows of the table. -/
theorem ofByte_eq_none {b : Byte}
    (h : (0x05 ≤ b.toNat ∧ b.toNat ≤ 0x0F) ∨ (0x14 ≤ b.toNat ∧ b.toNat ≤ 0x1F) ∨ (0x24 ≤ b.toNat ∧ b.toNat ≤ 0x2F) ∨
      0x39 ≤ b.toNat) : Op.ofByte b = none := by
  revert b
  decide

theorem freqOperand_append {fs : List Byte} (h : fs.length = 8) (bs : List Byte) (k : U64 → List Byte → Decoded) :
    freqOperand (fs ++ bs) k = k (BitVec.ofNat 64 (beValue fs)) bs := by
  have ht := takeBytes_append fs bs
  rw [h] at ht
  simp [freqOperand, operand, ht]

theorem wordOperand_append {ws : List Byte} (h : ws.length = 4) (bs : List Byte) (k : BitVec 32 → List Byte → Decoded) :
    wordOperand (ws ++ bs) k = k (BitVec.ofNat 32 (beValue ws)) bs := by
  have ht := takeBytes_append ws bs
  rw [h] at ht
  simp [wordOperand, operand, ht]

theorem byte_ne_of_lt {n : Nat} {b : Byte} (h : n ≤ b.toNat) {m : Nat} (hm : m < n) : b ≠ BitVec.ofNat 8 m := by
  rintro rfl
  rw [BitVec.toNat_ofNat] at h
  have := Nat.mod_le m (2 ^ 8)
  omega

section
variable {b : Byte} (rest : List Byte)

theorem boolOperand_bad (h : 2 ≤ b.toNat) (k : Bool → List Byte → Decoded) :
    boolOperand (b :: rest) k = .bad (.boolean b) := by
  rw [boolOperand, byteOperand_cons, if_neg (byte_ne_of_lt h (by omega)), if_neg (byte_ne_of_lt h (by omega))]

theorem pllOperand_bad (h : 2 ≤ b.toNat) (k : Pll → List Byte → Decoded) :
    pllOperand (b :: rest) k = .bad (.pll b) := by
  rw [pllOperand, byteOperand_cons, if_neg (byte_ne_of_lt h (by omega)), if_neg (byte_ne_of_lt h (by omega))]

theorem channelOperand_bad (h : 3 ≤ b.toNat) (k : Channel → List Byte → Decoded) :
    channelOperand (b :: rest) k = .bad (.channel b) := by
  rw [channelOperand, byteOperand_cons, if_neg (byte_ne_of_lt h (by omega)), if_neg (byte_ne_of_lt h (by omega)),
    if_neg (byte_ne_of_lt h (by omega))]

theorem referenceOperand_bad (h : 1 ≤ b.toNat) (k : Reference → List Byte → Decoded) :
    referenceOperand (b :: rest) k = .bad (.reference b) := by
  rw [referenceOperand, byteOperand_cons, if_neg (byte_ne_of_lt h (by omega))]

theorem addrOperand_bad (h : 128 ≤ b.toNat) (k : BitVec 7 → List Byte → Decoded) :
    addrOperand (b :: rest) k = .bad (.deviceAddress b) := by
  rw [addrOperand, byteOperand_cons, if_neg (by omega)]

theorem levelOperand_bad (h : 4 ≤ b.toNat) (k : BitVec 2 → List Byte → Decoded) :
    levelOperand (b :: rest) k = .bad (.level b) := by
  rw [levelOperand, byteOperand_cons, if_neg (by omega)]

theorem addrOperand_of_lt (h : b.toNat < 128) (k : BitVec 7 → List Byte → Decoded) :
    addrOperand (b :: rest) k = k (BitVec.ofNat 7 b.toNat) rest := by
  rw [addrOperand, byteOperand_cons, if_pos h]

/-- A byte below 3 is one of the three channels' (R73). -/
theorem eq_channelByte (h : b.toNat < 3) : ∃ c, b = Channel.byte c := by
  have hb : b = BitVec.ofNat 8 b.toNat := by simp
  interval_cases hn : b.toNat
  · exact ⟨.ch0, hb⟩
  · exact ⟨.ch1, hb⟩
  · exact ⟨.ch2, hb⟩

end

/-- A block ready for a command refuses the packet that the decoder refuses. -/
theorem step_of_bad {s : State} {why : BadCommand} (hs : accepting s = true) (h : decode s.command = .bad why) :
    step s = .refused (.badCommand why) := by
  simp [step, hs, fetch, h]

/-- The same for a packet with an opcode of R72, by what the readers of its operands make of the bytes that follow. -/
theorem step_of_bad_operands {s : State} {why : BadCommand} {bs : List Byte} (o : Op) (hs : accepting s = true)
    (hc : s.command = o.code :: bs) (h : decodeOperands o bs = .bad why) : step s = .refused (.badCommand why) :=
  step_of_bad hs (by rw [hc, decode_code, h])

/-- Settles O4: the readers before the bad byte take their bytes, and the one that meets it names it. -/
theorem badPacketsRefused : Obligations.BadPacketsRefused := by
  intro s hs
  refine ⟨?opcode, ?device, ?read, ?empty, ?fixed, ?channel, ?setPll, ?reference, ?enable, ?level, ?assign⟩
  case opcode =>
    intro b rest hc h
    exact step_of_bad hs (by simp [hc, decode, ofByte_eq_none h])
  case device =>
    intro b rest hc h
    exact step_of_bad_operands .sendAddress hs hc (by rw [decodeOperands, addrOperand_bad rest h])
  case read =>
    intro a b rest hc ha h
    refine step_of_bad_operands .sendAddress hs hc ?_
    rw [decodeOperands, addrOperand_of_lt _ ha]
    exact boolOperand_bad rest h _
  case empty =>
    intro a rest hc
    refine step_of_bad_operands .writeBulk hs hc ?_
    rw [decodeOperands, byteOperand_cons, valuesOperand, byteOperand_cons, if_pos rfl]
  case fixed =>
    intro fs b rest hc hl h
    have hsplit : fs ++ b :: rest = fs.take 8 ++ (fs.drop 8 ++ b :: rest) := by
      rw [← List.append_assoc, List.take_append_drop]
    refine step_of_bad_operands .planMultisynth hs hc ?_
    rw [decodeOperands, hsplit, freqOperand_append (by simp [hl]), freqOperand_append (by simp [hl])]
    exact boolOperand_bad rest h _
  case channel =>
    intro o b rest hc ho h
    simp only [List.mem_cons, List.not_mem_nil, or_false] at ho
    rcases ho with rfl | rfl | rfl | rfl | rfl
    · exact step_of_bad_operands .setFrequency hs hc (by rw [decodeOperands, channelOperand_bad rest h])
    · exact step_of_bad_operands .outputEnable hs hc (by rw [decodeOperands, channelOperand_bad rest h])
    · exact step_of_bad_operands .driveStrength hs hc (by rw [decodeOperands, channelOperand_bad rest h])
    · exact step_of_bad_operands .setClockPower hs hc (by rw [decodeOperands, channelOperand_bad rest h])
    · exact step_of_bad_operands .setPllAssignment hs hc (by rw [decodeOperands, channelOperand_bad rest h])
  case setPll =>
    intro fs b rest hc hl h
    refine step_of_bad_operands .setPll hs hc ?_
    rw [decodeOperands, freqOperand_append hl]
    exact pllOperand_bad rest h _
  case reference =>
    intro ps b rest hc hl h
    refine step_of_bad_operands .setCorrection hs hc ?_
    rw [decodeOperands, wordOperand_append hl]
    exact referenceOperand_bad rest h _
  case enable =>
    intro o c b rest hc ho hch h
    obtain ⟨ch, rfl⟩ := eq_channelByte hch
    simp only [List.mem_cons, List.not_mem_nil, or_false] at ho
    rcases ho with rfl | rfl
    · refine step_of_bad_operands .outputEnable hs hc ?_
      rw [decodeOperands, channelOperand_byte]
      exact boolOperand_bad rest h _
    · refine step_of_bad_operands .setClockPower hs hc ?_
      rw [decodeOperands, channelOperand_byte]
      exact boolOperand_bad rest h _
  case level =>
    intro c b rest hc hch h
    obtain ⟨ch, rfl⟩ := eq_channelByte hch
    refine step_of_bad_operands .driveStrength hs hc ?_
    rw [decodeOperands, channelOperand_byte]
    exact levelOperand_bad rest h _
  case assign =>
    intro c b rest hc hch h
    obtain ⟨ch, rfl⟩ := eq_channelByte hch
    refine step_of_bad_operands .setPllAssignment hs hc ?_
    rw [decodeOperands, channelOperand_byte]
    exact pllOperand_bad rest h _

end Sys2Proof

namespace Sys2Proof.Machine

/-! ### The parameter block (R82, R83) -/

theorem toNat_append_eq {n m : Nat} (x : BitVec n) (y : BitVec m) : (x ++ y).toNat = x.toNat * 2 ^ m + y.toNat := by
  rw [BitVec.toNat_append, ← Nat.shiftLeft_add_eq_or_of_lt y.isLt, Nat.shiftLeft_eq]

theorem ser8_map_toNat (f : RegisterFields) (r : BitVec 3) (d : BitVec 2) :
    (ser8 f r d).map BitVec.toNat =
      [f.p3.toNat / 256 % 256, f.p3.toNat % 256, r.toNat * 16 + d.toNat * 4 + f.p1.toNat / 65536,
       f.p1.toNat / 256 % 256, f.p1.toNat % 256, f.p3.toNat / 65536 * 16 + f.p2.toNat / 65536,
       f.p2.toNat / 256 % 256, f.p2.toNat % 256] := by
  have h1 := f.p1.isLt
  have h2 := f.p2.isLt
  have h3 := f.p3.isLt
  have hmode : ((0#1 ++ r ++ d : BitVec 6) ++ f.p1.extractLsb' 16 2).toNat =
      r.toNat * 16 + d.toNat * 4 + f.p1.toNat / 65536 := by
    simp only [toNat_append_eq, BitVec.extractLsb'_toNat, Nat.shiftRight_eq_div_pow, BitVec.toNat_ofNat]
    omega
  have hhigh : (f.p3.extractLsb' 16 4 ++ f.p2.extractLsb' 16 4).toNat = f.p3.toNat / 65536 * 16 + f.p2.toNat / 65536 := by
    simp only [toNat_append_eq, BitVec.extractLsb'_toNat, Nat.shiftRight_eq_div_pow]
    omega
  simp only [ser8, List.map_cons, List.map_nil, hmode, hhigh, BitVec.extractLsb'_toNat, Nat.shiftRight_eq_div_pow,
    Nat.reducePow, Nat.div_one]

/-- Settles O5: the eight numbers of the layout, from which the five fields can be worked out again. -/
theorem parameterBlockLayout : Obligations.ParameterBlockLayout := by
  refine ⟨ser8_map_toNat, fun f g r u d e h => ?_⟩
  have hn := congrArg (List.map BitVec.toNat) h
  simp only [ser8_map_toNat, List.cons.injEq, and_true] at hn
  obtain ⟨h0, h1, h2, h3, h4, h5, h6, h7⟩ := hn
  have hf1 := f.p1.isLt
  have hf2 := f.p2.isLt
  have hf3 := f.p3.isLt
  have hg1 := g.p1.isLt
  have hg2 := g.p2.isLt
  have hg3 := g.p3.isLt
  have hd := d.isLt
  have he := e.isLt
  have hp1 : f.p1 = g.p1 := BitVec.eq_of_toNat_eq (by omega)
  have hp2 : f.p2 = g.p2 := BitVec.eq_of_toNat_eq (by omega)
  have hp3 : f.p3 = g.p3 := BitVec.eq_of_toNat_eq (by omega)
  have hru : r = u := BitVec.eq_of_toNat_eq (by omega)
  have hde : d = e := BitVec.eq_of_toNat_eq (by omega)
  refine ⟨?_, hru, hde⟩
  cases f
  cases g
  simp only [RegisterFields.mk.injEq]
  exact ⟨hp1, hp2, hp3⟩

end Sys2Proof.Machine
end

section
/-! Proofs about the machine as a whole: the arms of `exec`, the configuration check (`spec/00_scope.md` R8, `spec/20_memory.md`
R59), the step (`spec/30_encoding.md` R71) and the reset (`spec/10_state.md` R38, R261). -/

namespace Sys2Proof.Machine

/-! ### The arms: what each operation is -/

theorem exec_start (s : State) : exec .start s = execStart s := by rfl

theorem exec_sendAddress (addr7 : BitVec 7) (read : Bool) (s : State) :
    exec (.sendAddress addr7 read) s = execSendAddress addr7 read s := by rfl

theorem exec_sendByte (b : Byte) (s : State) : exec (.sendByte b) s = execSendByte b s := by rfl

theorem exec_receiveByte (s : State) : exec .receiveByte s = execReceiveByte s := by rfl

theorem exec_stop (s : State) : exec .stop s = execStop s := by rfl

theorem exec_writeBulk (addr : Byte) (values : List Byte) (s : State) :
    exec (.writeBulk addr values) s = execWriteBulk addr values s := by rfl

theorem exec_planPll (target reference : U64) (ppb : BitVec 32) (s : State) :
    exec (.planPll target reference ppb) s = execPlanPll target reference ppb s := by rfl

theorem exec_planMultisynth (target pll : U64) (fixed : Bool) (s : State) :
    exec (.planMultisynth target pll fixed) s = execPlanMultisynth target pll fixed s := by rfl

theorem exec_initializeAll (s : State) : exec .initializeAll s = execInitialize s := by rfl

theorem exec_setFrequency (i : Channel) (freq : U64) (s : State) :
    exec (.setFrequency i freq) s = execSetFrequency i freq s := by rfl

theorem exec_setPll (freq : U64) (x : Pll) (s : State) : exec (.setPll freq x) s = execSetPll freq x s := by rfl

theorem exec_setCorrection (ppb : BitVec 32) (r : Reference) (s : State) :
    exec (.setCorrection ppb r) s = execSetCorrection ppb r s := by rfl

theorem exec_outputEnable (i : Channel) (enable : Bool) (s : State) :
    exec (.outputEnable i enable) s = execOutputEnable i enable s := by rfl

theorem exec_setClockPower (i : Channel) (on : Bool) (s : State) :
    exec (.setClockPower i on) s = execSetClockPower i on s := by rfl

theorem exec_setPllAssignment (i : Channel) (x : Pll) (s : State) :
    exec (.setPllAssignment i x) s = execSetPllAssignment i x s := by rfl

/-! ### The configuration check -/

theorem addrsFrom_one (a : Byte) : addrsFrom a 1 = [a.toNat] := by
  simp [addrsFrom, Nat.mod_eq_of_lt a.isLt]

theorem flatMap_addrsFrom_one (as : List Byte) :
    (as.map fun a => (a, 1)).flatMap (fun e => addrsFrom e.1 e.2) = as.map BitVec.toNat := by
  induction as with
  | nil => rfl
  | cons a as ih => simp only [List.map_cons, List.flatMap_cons, ih, addrsFrom_one, List.singleton_append]

/-- The entries of R59 take the addresses that the model lists, in another order. -/
theorem mapEntries_perm_mapAddrs (c : Config) :
    ((mapEntries c).flatMap fun e => addrsFrom e.1 e.2).Perm (mapAddrs c) := by
  have hblock : ∀ base : Byte, addrsFrom base 8 = blockAddrs base := fun _ => rfl
  rw [List.perm_iff_count]
  intro x
  simp only [mapEntries, mapAddrs, List.flatMap_append, flatMap_addrsFrom_one, List.flatMap_cons, List.flatMap_nil,
    addrsFrom_one, hblock, List.count_append, List.count_cons, List.count_nil]
  omega

/-- R8, R59: the model's check is the list of constraints. -/
theorem configValid_iff (c : Config) :
    configValid c = true ↔ ConstraintK1 c ∧ ConstraintK2 c ∧ ConstraintsK3to5 c ∧ ConstraintK6 c ∧ CrystalReaches c ∧
      ConstraintK8 c ∧ CrystalSmall c ∧ EntriesApart c := by
  have hmap : noRepeat (mapAddrs c) = true ↔ EntriesApart c := by
    rw [noRepeat_eq_true_iff, EntriesApart, (mapEntries_perm_mapAddrs c).nodup_iff]
  have hK8 : pllFreqMin = 3240000 := rfl
  simp only [configValid, constraintsHold, ratioReaches, hK8, Bool.and_eq_true, decide_eq_true_eq, hmap, and_assoc]

/-! ### No operation names the configuration when it is valid -/

theorem encodeFields_ne_badConfig (a b c : Nat) : encodeFields a b c ≠ .error .badConfig := by
  unfold encodeFields
  split <;> simp

theorem planPllAt_ne_badConfig (c : Config) (target ref1 : Nat) : planPllAt c target ref1 ≠ .error .badConfig := by
  simp only [planPllAt]
  split
  · next r hr => exact fun h => encodeFields_ne_badConfig _ _ _ (hr.trans (by rw [Except.error.inj h]))
  · simp

theorem planPll_ne_badConfig (c : Config) (target reference : Nat) (ppb : Int) :
    planPll c target reference ppb ≠ .error .badConfig := by
  unfold planPll
  split
  · simp
  split
  · simp
  · exact planPllAt_ne_badConfig _ _ _

theorem planFixed_ne_badConfig (t1 pll : Nat) : planFixed t1 pll ≠ .error .badConfig := by
  simp only [planFixed]
  split
  · simp
  split
  · next r hr => exact fun h => encodeFields_ne_badConfig _ _ _ (hr.trans (by rw [Except.error.inj h]))
  · simp

theorem planAutoSize_ne_badConfig (c : Config) (t1 : Nat) : planAutoSize c t1 ≠ .error .badConfig := by
  simp only [planAutoSize]
  split
  · next r hr => exact fun h => encodeFields_ne_badConfig _ _ _ (hr.trans (by rw [Except.error.inj h]))
  · simp

theorem planMultisynthExact_ne_badConfig (c : Config) (target pll : Nat) (fixed : Bool) :
    planMultisynthExact c target pll fixed ≠ .error .badConfig := by
  simp only [planMultisynthExact]
  split
  · simp
  split
  · exact planFixed_ne_badConfig _ _
  · exact planAutoSize_ne_badConfig _ _

theorem planMultisynth_ne_badConfig (c : Config) (target pll : Nat) (fixed : Bool) :
    planMultisynth c target pll fixed ≠ .error .badConfig := by
  unfold planMultisynth
  split
  · next r hr => exact fun h => planMultisynthExact_ne_badConfig _ _ _ _ (hr.trans (by rw [Except.error.inj h]))
  · split <;> simp

theorem Run.finish_ne_refused {α : Type} (r : Run α) (k : α → State → State) (w : Refusal) :
    r.finish k ≠ .refused w := by
  cases r <;> simp

theorem whenConfigured_eq_badConfig_iff {s : State} {r : Result} (h : r ≠ .refused .badConfig) :
    whenConfigured s r = .refused .badConfig ↔ ¬ configValid s.cfg = true := by
  unfold whenConfigured
  split <;> simp_all

theorem whenInited_eq_badConfig_iff {s : State} {r : Result} (h : r ≠ .refused .badConfig) :
    whenInited s r = .refused .badConfig ↔ ¬ configValid s.cfg = true := by
  refine whenConfigured_eq_badConfig_iff ?_
  split
  · exact h
  · simp

/-- R262 (1): every operation is refused with this reason exactly when the check fails. -/
theorem exec_eq_badConfig_iff (i : Instr) (s : State) :
    exec i s = .refused .badConfig ↔ ¬ configValid s.cfg = true := by
  cases i with
  | start | sendAddress | sendByte | receiveByte | stop | readReg | writeReg | updateReg =>
    exact whenConfigured_eq_badConfig_iff (Run.finish_ne_refused _ _ _)
  | outputEnable | driveStrength | setClockPower | powerDown | setPllAssignment =>
    exact whenInited_eq_badConfig_iff (Run.finish_ne_refused _ _ _)
  | selectRDivider => exact whenConfigured_eq_badConfig_iff (by simp)
  | writeBulk =>
    refine whenConfigured_eq_badConfig_iff ?_
    split
    · simp
    · exact Run.finish_ne_refused _ _ _
  | planPll =>
    refine whenConfigured_eq_badConfig_iff ?_
    split
    · next r hr => exact fun h => planPll_ne_badConfig _ _ _ _ (hr.trans (by cases h; rfl))
    · simp
  | planMultisynth =>
    refine whenConfigured_eq_badConfig_iff ?_
    split
    · next r hr => exact fun h => planMultisynth_ne_badConfig _ _ _ _ (hr.trans (by cases h; rfl))
    · simp
  | encodeFields =>
    refine whenConfigured_eq_badConfig_iff ?_
    split
    · next r hr => exact fun h => encodeFields_ne_badConfig _ _ _ (hr.trans (by cases h; rfl))
    · simp
  | initializeAll =>
    refine whenConfigured_eq_badConfig_iff ?_
    split
    · exact Run.finish_ne_refused _ _ _
    · next r hr => exact fun h => planPll_ne_badConfig _ _ _ _ (hr.trans (by cases h; rfl))
    · next r _ hr => exact fun h => planPll_ne_badConfig _ _ _ _ (hr.trans (by cases h; rfl))
  | setFrequency =>
    refine whenInited_eq_badConfig_iff ?_
    dsimp only
    split
    · next r hr => exact fun h => planMultisynth_ne_badConfig _ _ _ _ (hr.trans (by cases h; rfl))
    · exact Run.finish_ne_refused _ _ _
  | setPll =>
    refine whenInited_eq_badConfig_iff ?_
    split
    · next r hr => exact fun h => planPll_ne_badConfig _ _ _ _ (hr.trans (by cases h; rfl))
    · exact Run.finish_ne_refused _ _ _
  | setCorrection =>
    refine whenInited_eq_badConfig_iff ?_
    split
    · exact Run.finish_ne_refused _ _ _
    · next r hr => exact fun h => planPll_ne_badConfig _ _ _ _ (hr.trans (by cases h; rfl))
    · next r _ hr => exact fun h => planPll_ne_badConfig _ _ _ _ (hr.trans (by cases h; rfl))

/-- Settles O39. -/
theorem invalidConfigurationRefused : Obligations.InvalidConfigurationRefused := by
  intro i s
  rw [exec_eq_badConfig_iff, configValid_iff]

/-! ### Before INITIALIZE -/

/-- Settles O38: each of these operations runs under `whenInited` (R195). -/
theorem controllerRefusedBeforeInitialize : Obligations.ControllerRefusedBeforeInitialize := by
  intro s hv hi
  exact ⟨fun _ _ => whenInited_of_not_inited hv hi _, fun _ _ => whenInited_of_not_inited hv hi _,
    fun _ _ => whenInited_of_not_inited hv hi _, fun _ _ => whenInited_of_not_inited hv hi _,
    fun _ _ => whenInited_of_not_inited hv hi _, fun _ _ => whenInited_of_not_inited hv hi _,
    whenInited_of_not_inited hv hi _, fun _ _ => whenInited_of_not_inited hv hi _⟩

/-! ### The step -/

theorem step_of_waiting {s : State} (h : s.wait ≠ .none) : step s = .fault (.hang s) := by
  simp [step, accepting, h]

theorem step_of_command {s : State} {i : Instr} {rest : List Byte} (hw : s.wait = .none) (hs : s.seq = none)
    (hd : decode s.command = .command i rest) : step s = exec i { s with command := rest } := by
  simp [step, accepting, hw, hs, fetch, hd]

/-- Settles O6. -/
theorem stepRunsTheCommand : Obligations.StepRunsTheCommand :=
  ⟨fun _ _ _ hw hs hd => step_of_command hw hs hd, fun _ h => step_of_waiting h⟩

/-! ### The reset -/

/-- Settles O58: at reset the map is empty, nothing is pending, `inited` is false and both corrections are 0. -/
theorem resetMeetsTheInvariant : Obligations.ResetMeetsTheInvariant := by
  refine ⟨memWf_reset, rfl, rfl, by decide, fun _ => rfl, ?inited, fun _ => ⟨rfl, rfl⟩, ?paired⟩
  case inited =>
    intro h
    cases h
  case paired => decide

/-- Settles O59. -/
theorem resetValues : Obligations.ResetValues := by
  refine ⟨rfl, rfl, rfl, rfl, rfl, rfl, fun x => ?_⟩
  cases x <;> exact ⟨rfl, rfl⟩

theorem resetBlock_answers (s : State) :
    (resetBlock s).line.answers = if s.wait = .none then s.line.answers else s.line.answers.tail := by
  simp only [resetBlock]
  split <;> rfl

/-- Settles O60. -/
theorem resetDoesNotReachTheChip : Obligations.ResetDoesNotReachTheChip := by
  intro s
  refine ⟨⟨fun a => by rw [resetBlock_rm], resetBlock_rp s⟩, ⟨rfl, rfl, rfl, rfl⟩, rfl, rfl, fun x => ?_, rfl,
    resetBlock_answers s⟩
  cases x <;> rfl

end Sys2Proof.Machine
end

section
/-! Proofs about the Frequency Planner (`spec/40_planner.md`): the packing, PLAN_PLL. -/

namespace Sys2Proof.Machine

/-! ### The packing (R119, R120) -/

/-- R120 (b): the integer part and the quotient of the fraction read back from `p1`. -/
theorem packFields_p1_add {a b c : Nat} (h : 4 ≤ a ∧ a ≤ 2051 ∧ 1 ≤ c ∧ c ≤ 1048575 ∧ b < c) :
    (packFields a b c).p1.toNat + 512 = 128 * a + fracQuotient b c := by
  rw [(packFields_toNat h).1]
  omega

/-- R120 (b): what `p2` leaves of the numerator. -/
theorem packFields_p2_add {a b c : Nat} (h : 4 ≤ a ∧ a ≤ 2051 ∧ 1 ≤ c ∧ c ≤ 1048575 ∧ b < c) :
    c * fracQuotient b c + (packFields a b c).p2.toNat = 128 * b := by
  have hm := mul_fracQuotient_add_mod b c
  rw [(packFields_toNat h).2.1]
  omega

/-- R120 (d): `p2` is a remainder by `c`. -/
theorem packFields_p2_lt {a b c : Nat} (h : 4 ≤ a ∧ a ≤ 2051 ∧ 1 ≤ c ∧ c ≤ 1048575 ∧ b < c) :
    (packFields a b c).p2.toNat < c := by
  have hm := mul_fracQuotient_add_mod b c
  have hl := Nat.mod_lt (128 * b) (show 0 < c by omega)
  rw [(packFields_toNat h).2.1]
  omega

theorem packFields_p1_div {a b c : Nat} (h : 4 ≤ a ∧ a ≤ 2051 ∧ 1 ≤ c ∧ c ≤ 1048575 ∧ b < c) :
    ((packFields a b c).p1.toNat + 512) / 128 = a ∧ ((packFields a b c).p1.toNat + 512) % 128 = fracQuotient b c := by
  have hq := fracQuotient_le h.2.2.2.2
  rw [packFields_p1_add h]
  omega

/-- R120 (a): the exact identity of the packing. -/
theorem packFields_identity {a b c : Nat} (h : 4 ≤ a ∧ a ≤ 2051 ∧ 1 ≤ c ∧ c ≤ 1048575 ∧ b < c) :
    ((packFields a b c).p1.toNat + 512) * (packFields a b c).p3.toNat + (packFields a b c).p2.toNat =
      128 * (a * c + b) := by
  have h2 := packFields_p2_add h
  rw [packFields_p1_add h, (packFields_toNat h).2.2]
  calc (128 * a + fracQuotient b c) * c + (packFields a b c).p2.toNat
      = 128 * (a * c) + (c * fracQuotient b c + (packFields a b c).p2.toNat) := by ring
    _ = 128 * (a * c + b) := by rw [h2]; ring

/-- R120 (b): the fields determine the divider. -/
theorem packFields_injective {a b c a' b' c' : Nat} (h : 4 ≤ a ∧ a ≤ 2051 ∧ 1 ≤ c ∧ c ≤ 1048575 ∧ b < c)
    (h' : 4 ≤ a' ∧ a' ≤ 2051 ∧ 1 ≤ c' ∧ c' ≤ 1048575 ∧ b' < c') (he : packFields a b c = packFields a' b' c') :
    a' = a ∧ b' = b ∧ c' = c := by
  have hc : c' = c := by rw [← (packFields_toNat h).2.2, he, (packFields_toNat h').2.2]
  have ha : a' = a := by rw [← (packFields_p1_div h).1, he, (packFields_p1_div h').1]
  have hq : fracQuotient b' c' = fracQuotient b c := by rw [← (packFields_p1_div h).2, he, (packFields_p1_div h').2]
  have hb := packFields_p2_add h
  have hb' := packFields_p2_add h'
  rw [← he, hq, hc, hb] at hb'
  exact ⟨ha, by omega, hc⟩

/-- R120 (c): `p1` is in its 18 bits exactly for an integer part of 4 to 2051. -/
theorem p1_range_iff {a b c : Nat} (h : b < c) :
    (0 ≤ ((128 * a + 128 * b / c : Nat) : Int) - 512 ∧ ((128 * a + 128 * b / c : Nat) : Int) - 512 ≤ 262143) ↔
      4 ≤ a ∧ a ≤ 2051 := by
  have hq : 128 * b / c ≤ 127 := fracQuotient_le h
  generalize 128 * b / c = q at *
  omega

/-- Settles O29, by the identities of the packing on its domain. -/
theorem fieldIdentities : Obligations.FieldIdentities := by
  refine ⟨fun a b c ha4 ha hc1 hc hb => ?domain, fun a b c _ h => p1_range_iff h, ?widest⟩
  case domain =>
    have h : 4 ≤ a ∧ a ≤ 2051 ∧ 1 ≤ c ∧ c ≤ 1048575 ∧ b < c := ⟨ha4, ha, hc1, hc, hb⟩
    have hp3 := (packFields_toNat h).2.2
    have hp2 := packFields_p2_lt h
    have hdiv := packFields_p1_div h
    refine ⟨packFields a b c, encodeFields_of_domain h, packFields_identity h, hp3, ?_, hdiv.1.symm, ?_, by omega,
      by omega, by omega, by omega⟩
    · rw [hdiv.2, Nat.mul_comm (fracQuotient b c), packFields_p2_add h]
    · intro a' b' c' he
      obtain ⟨h', hf⟩ := encodeFields_eq_ok he
      exact packFields_injective h h' hf
  case widest =>
    have h : 4 ≤ 2051 ∧ 2051 ≤ 2051 ∧ 1 ≤ 1048575 ∧ 1048575 ≤ 1048575 ∧ 1048574 < 1048575 := by decide
    exact ⟨_, encodeFields_of_domain h, (packFields_toNat h).1⟩

/-! ### The plan of PLAN_PLL -/

/-- The fraction of a plan is 0 over 1, or over 1000000 (R106). -/
theorem pllFraction_cases (rem ref1 : Nat) :
    (rem = 0 ∧ pllFraction rem ref1 = (0, 1)) ∨ (rem ≠ 0 ∧ pllFraction rem ref1 = (rem * 1000000 / ref1, 1000000)) := by
  by_cases h : rem = 0
  · exact .inl ⟨h, if_pos h⟩
  · exact .inr ⟨h, if_neg h⟩

/-- What a plan for a corrected reference is made of: the ratio and the adjusted target after both clamps, and the fraction of
its remainder (R103 to R107). -/
structure PlannedAt (c : Config) (target ref1 : Nat) (p : PllPlan) : Prop where
  ratio : (p.a, p.target) = pllRatio (vcoClamp c target) ref1
  fraction : (p.b, p.c) = pllFraction (p.target % ref1) ref1
  fields : p.fields = packFields p.a p.b p.c
  achieved : p.achieved = ref1 * p.a + ref1 * p.b / p.c

theorem planPllAt_eq_ok_iff {c : Config} {target ref1 : Nat} (h : 1 ≤ ref1) {p : PllPlan} :
    planPllAt c target ref1 = .ok p ↔ PlannedAt c target ref1 p := by
  rw [planPllAt_eq_ok c target h]
  constructor
  · intro he
    cases he
    exact ⟨rfl, rfl, rfl, rfl⟩
  · rintro ⟨hr, hf, hp, ha⟩
    obtain ⟨a, b, d, fields, t, achieved⟩ := p
    simp only at hr hf hp ha
    simp only [← hr, ← hf, hp, ha]

section
variable {c : Config} {target ref1 : Nat} {p : PllPlan}

namespace PlannedAt

theorem a_eq (h : PlannedAt c target ref1 p) : p.a = clampNat (vcoClamp c target / ref1) 15 90 :=
  congrArg Prod.fst h.ratio

theorem target_eq (h : PlannedAt c target ref1 p) :
    p.target = if p.a = vcoClamp c target / ref1 then vcoClamp c target else ref1 * p.a := by
  have ht : p.target = _ := congrArg Prod.snd h.ratio
  rw [ht, h.a_eq]
  rfl

theorem a_range (h : PlannedAt c target ref1 p) : 15 ≤ p.a ∧ p.a ≤ 90 := by
  rw [h.a_eq]
  exact ⟨le_clampNat (by omega), clampNat_le (by omega)⟩

theorem target_div (h : PlannedAt c target ref1 p) (h1 : 1 ≤ ref1) : p.target / ref1 = p.a := by
  have ht : p.target = _ := congrArg Prod.snd h.ratio
  have ha : p.a = _ := congrArg Prod.fst h.ratio
  rw [ht, ha, pllRatio_div h1]

theorem fraction_cases (h : PlannedAt c target ref1 p) :
    (p.target % ref1 = 0 ∧ p.b = 0 ∧ p.c = 1) ∨
      (p.target % ref1 ≠ 0 ∧ p.b = p.target % ref1 * 1000000 / ref1 ∧ p.c = 1000000) := by
  have hf := h.fraction
  obtain ⟨hr, he⟩ | ⟨hr, he⟩ := pllFraction_cases (p.target % ref1) ref1
  · rw [he, Prod.mk.injEq] at hf
    exact .inl ⟨hr, hf⟩
  · rw [he, Prod.mk.injEq] at hf
    exact .inr ⟨hr, hf⟩

theorem fraction_lt (h : PlannedAt c target ref1 p) (h1 : 1 ≤ ref1) : p.b < p.c ∧ 1 ≤ p.c ∧ p.c ≤ 1000000 := by
  have hb := congrArg Prod.fst h.fraction
  have hc := congrArg Prod.snd h.fraction
  simp only at hb hc
  rw [hb, hc]
  exact pllFraction_lt (Nat.mod_lt _ h1)

/-- A plan's divider is on the domain of the packing. -/
theorem domain (h : PlannedAt c target ref1 p) (h1 : 1 ≤ ref1) :
    4 ≤ p.a ∧ p.a ≤ 2051 ∧ 1 ≤ p.c ∧ p.c ≤ 1048575 ∧ p.b < p.c := by
  obtain ⟨hlo, hhi⟩ := h.a_range
  obtain ⟨hb, hc1, hc⟩ := h.fraction_lt h1
  omega

/-- R108 (b): the ranges of the fields. -/
theorem fields_range (h : PlannedAt c target ref1 p) (h1 : 1 ≤ ref1) :
    1408 ≤ p.fields.p1.toNat ∧ p.fields.p1.toNat ≤ 11135 ∧ p.fields.p2.toNat ≤ 999999 ∧
      (p.fields.p3.toNat = 1 ∨ p.fields.p3.toNat = 1000000) := by
  obtain ⟨hlo, hhi⟩ := h.a_range
  have hd := h.domain h1
  obtain ⟨hb, _, hc⟩ := h.fraction_lt h1
  have hp1 := packFields_p1_add hd
  have hp2 := packFields_p2_lt hd
  have hp3 := (packFields_toNat hd).2.2
  have hq := fracQuotient_le hb
  rw [h.fields]
  refine ⟨by omega, by omega, by omega, ?_⟩
  rw [hp3]
  obtain ⟨-, -, h3⟩ | ⟨-, -, h3⟩ := h.fraction_cases
  · exact .inl h3
  · exact .inr h3

/-- The adjusted target as ratio and remainder. -/
theorem target_split (h : PlannedAt c target ref1 p) (h1 : 1 ≤ ref1) :
    p.target = ref1 * p.a + p.target % ref1 := by
  rw [← h.target_div h1]
  exact (Nat.div_add_mod _ _).symm

/-- R108 (d): with no remainder the plan is exact. -/
theorem achieved_of_no_remainder (h : PlannedAt c target ref1 p) (h1 : 1 ≤ ref1) (hr : p.target % ref1 = 0) :
    p.achieved = p.target := by
  obtain ⟨-, hb, hc⟩ | ⟨hne, -⟩ := h.fraction_cases
  · rw [h.achieved, h.target_split h1, hr, hb]
    simp
  · exact absurd hr hne

/-- R108 (c): the plan falls short of its target by less than the step of the fraction. -/
theorem achieved_bounds (h : PlannedAt c target ref1 p) (h1 : 1 ≤ ref1) :
    p.achieved ≤ p.target ∧ (p.target - p.achieved) * 1000000 < ref1 + 1000000 := by
  obtain ⟨hr, -⟩ | ⟨-, hb, hc⟩ := h.fraction_cases
  · rw [h.achieved_of_no_remainder h1 hr]
    omega
  · have hs := h.target_split h1
    have hn := Nat.div_add_mod (p.target % ref1 * 1000000) ref1
    have hl := Nat.mod_lt (p.target % ref1 * 1000000) h1
    have hd := Nat.div_add_mod (ref1 * p.b) 1000000
    have hm := Nat.mod_lt (ref1 * p.b) (show 0 < 1000000 by omega)
    rw [← hb] at hn
    rw [h.achieved, hc]
    omega

/-- R108 (e): the achieved frequency, read off the fields. -/
theorem achieved_of_fields (h : PlannedAt c target ref1 p) (h1 : 1 ≤ ref1) :
    p.achieved =
      ref1 * ((p.fields.p1.toNat + 512) * p.fields.p3.toNat + p.fields.p2.toNat) / (128 * p.fields.p3.toNat) := by
  have hd := h.domain h1
  have hpos : 0 < p.c := by omega
  rw [h.fields, packFields_identity hd, (packFields_toNat hd).2.2, h.achieved,
    show ref1 * (128 * (p.a * p.c + p.b)) = 128 * (ref1 * p.b + ref1 * p.a * p.c) by ring,
    Nat.mul_div_mul_left _ _ (by omega), Nat.add_mul_div_right _ _ hpos, Nat.add_comm]

/-- R108 (g): the plan depends on the target through its VCO clamp only. -/
theorem congr_clamp (h : PlannedAt c target ref1 p) {target' : Nat} (he : vcoClamp c target' = vcoClamp c target) :
    PlannedAt c target' ref1 p :=
  ⟨he ▸ h.ratio, h.fraction, h.fields, h.achieved⟩

/-- R108 (g): a planned target that the VCO range contains is planned as it is. -/
theorem of_target (h : PlannedAt c target ref1 p) (h1 : 1 ≤ ref1) (he : vcoClamp c p.target = p.target) :
    PlannedAt c p.target ref1 p := by
  refine ⟨?_, h.fraction, h.fields, h.achieved⟩
  have ha : clampNat p.a 15 90 = p.a := by
    obtain ⟨hlo, hhi⟩ := h.a_range
    rw [clampNat, if_neg (by omega), if_neg (by omega)]
  simp only [pllRatio, he, h.target_div h1, ha, if_true]

end PlannedAt

/-- A plan of PLAN_PLL, for the corrected reference it is made from. -/
theorem planPll_planned {reference : Nat} {ppb : Int} (h : planPll c target reference ppb = .ok p) :
    reference < 2 ^ 44 ∧ 1 ≤ (correctedReference c reference ppb).toNat ∧
      PlannedAt c target (correctedReference c reference ppb).toNat p := by
  obtain ⟨hr, h1, hp⟩ := planPll_eq_ok h
  have h1' : 1 ≤ (correctedReference c reference ppb).toNat := by omega
  exact ⟨hr, h1', (planPllAt_eq_ok_iff h1').mp hp⟩

theorem planPll_of_planned {reference : Nat} {ppb : Int} (hr : reference < 2 ^ 44)
    (h1 : 1 ≤ (correctedReference c reference ppb).toNat)
    (h : PlannedAt c target (correctedReference c reference ppb).toNat p) : planPll c target reference ppb = .ok p := by
  rw [planPll_of_reference target hr (by omega), planPllAt_eq_ok_iff h1]
  exact h

theorem vcoClamp_eq_bounded (hK1 : ConstraintK1 c) (target : Nat) :
    vcoClamp c target = bounded target (c.vcoMin * 100) (c.vcoMax * 100) :=
  clampNat_eq_bounded (Nat.mul_le_mul_right 100 hK1.2.1)

theorem bounded_of_mem {x lo hi : Nat} (hlo : lo ≤ x) (hhi : x ≤ hi) : bounded x lo hi = x := by
  unfold bounded
  omega

end

/-- Settles O31, clause by clause, from what a plan is made of. -/
theorem planPllProperties : Obligations.PlanPllProperties := by
  intro c target reference ppb p hK1 hp ref1
  obtain ⟨hr, h1, h⟩ := planPll_planned hp
  refine ⟨⟨h.a_range.1, h.a_range.2, ?numerator, ?denominator, ?zero⟩, h.fields_range h1, h.achieved_bounds h1,
    ⟨h.achieved_of_no_remainder h1, ?clamped⟩, h.achieved_of_fields h1, ?reference, ?sameClamp, ?replan⟩
  case numerator =>
    obtain ⟨hb, -, hc⟩ := h.fraction_lt h1
    omega
  case denominator =>
    obtain ⟨-, -, hc⟩ | ⟨-, -, hc⟩ := h.fraction_cases
    · exact .inl hc
    · exact .inr hc
  case zero =>
    obtain ⟨-, hb, -⟩ | ⟨-, -, hc⟩ := h.fraction_cases
    · exact fun _ => hb
    · omega
  case clamped =>
    intro hne
    rw [← vcoClamp_eq_bounded hK1] at hne
    refine h.achieved_of_no_remainder h1 ?_
    rw [h.target_eq, if_neg hne]
    exact Nat.mul_mod_right _ _
  case reference =>
    intro reference' ppb' q he hq
    obtain ⟨-, -, h'⟩ := planPll_planned hq
    rw [he] at h'
    have hqp := (planPllAt_eq_ok_iff h1).mpr h'
    rw [(planPllAt_eq_ok_iff h1).mpr h] at hqp
    exact (Except.ok.inj hqp).symm
  case sameClamp =>
    intro target' he
    rw [← vcoClamp_eq_bounded hK1, ← vcoClamp_eq_bounded hK1] at he
    exact planPll_of_planned hr h1 (h.congr_clamp he)
  case replan =>
    intro hlo hhi
    refine planPll_of_planned hr h1 (h.of_target h1 ?_)
    rw [vcoClamp_eq_bounded hK1, bounded_of_mem hlo hhi]

/-! ### PLAN_PLL -/

/-- The response of a planner operation, from its divider (R72, R73). -/
theorem plannerResponse_of_domain {a b c : Nat} (h : 4 ≤ a ∧ a ≤ 2051 ∧ 1 ≤ c ∧ c ≤ 1048575 ∧ b < c) (freq : Nat) :
    fieldsBytes (packFields a b c) ++ beBytes 8 freq = plannerResponse a b c freq := by
  rw [fieldsBytes_packFields h, plannerResponse]

theorem execPlanPll_of_error {s : State} {target reference : U64} {ppb : BitVec 32} {r : Refusal}
    (hv : configValid s.cfg = true) (h : planPll s.cfg target.toNat reference.toNat ppb.toInt = .error r) :
    execPlanPll target reference ppb s = .refused r := by
  rw [execPlanPll, whenConfigured_of_valid hv, h]

theorem execPlanPll_of_ok {s : State} {target reference : U64} {ppb : BitVec 32} {p : PllPlan}
    (hv : configValid s.cfg = true) (h : planPll s.cfg target.toNat reference.toNat ppb.toInt = .ok p) :
    execPlanPll target reference ppb s = .next { s with response := plannerResponse p.a p.b p.c p.achieved } := by
  obtain ⟨-, h1, hp⟩ := planPll_planned h
  rw [execPlanPll, whenConfigured_of_valid hv, h]
  simp only [hp.fields, plannerResponse_of_domain (hp.domain h1)]
  rfl

/-- D11: the two roundings of the correction. -/
theorem correctedReference_eq (c : Config) (reference : Nat) (ppb : Int) :
    correctedReference c reference ppb = reference +
      (if c.corrRounding = .towardZero then ((reference : Int) * ppb).tdiv 1000000000
       else ((reference : Int) * ppb).fdiv 1000000000) := by
  unfold correctedReference correctionQuotient
  cases c.corrRounding <;> rfl

theorem configValid_K1 {c : Config} (hv : configValid c = true) : ConstraintK1 c := ((configValid_iff c).mp hv).1

theorem configValid_K2 {c : Config} (hv : configValid c = true) : ConstraintK2 c := ((configValid_iff c).mp hv).2.1

theorem configValid_K3to5 {c : Config} (hv : configValid c = true) : ConstraintsK3to5 c :=
  ((configValid_iff c).mp hv).2.2.1

/-- R103 to R107 in their order, with the clamps written as bounds. -/
theorem plannedAt_of_constraintK1 {c : Config} (hK1 : ConstraintK1 c) (target ref1 : Nat) :
    let t1 := bounded target (c.vcoMin * 100) (c.vcoMax * 100)
    let a := bounded (t1 / ref1) 15 90
    let t2 := if a = t1 / ref1 then t1 else ref1 * a
    let rem := t2 % ref1
    let d := if rem = 0 then 1 else 1000000
    let b := if rem = 0 then 0 else rem * 1000000 / ref1
    PlannedAt c target ref1
      { a := a, b := b, c := d, fields := packFields a b d, target := t2, achieved := ref1 * a + ref1 * b / d } := by
  intro t1 a t2 rem d b
  have ht1 : vcoClamp c target = t1 := vcoClamp_eq_bounded hK1 _
  have ha : clampNat (t1 / ref1) 15 90 = a := clampNat_eq_bounded (by omega)
  refine ⟨by simp only [pllRatio, ht1, ha, t2], ?fraction, rfl, rfl⟩
  case fraction =>
    show (b, d) = pllFraction rem ref1
    obtain ⟨hr, hf⟩ | ⟨hr, hf⟩ := pllFraction_cases rem ref1
    · simp only [hf, b, d, if_pos hr]
    · simp only [hf, b, d, if_neg hr]

/-- Settles O30: the two refusals in their order, and the plan's parts as R103 to R107 work them out. -/
theorem planPllOperation : Obligations.PlanPllOperation := by
  intro s target reference ppb hv product corrected
  have hK1 := configValid_K1 hv
  have hcor : correctedReference s.cfg reference.toNat ppb.toInt = corrected := correctedReference_eq _ _ _
  rw [exec_planPll]
  refine ⟨fun hbig => ?large, fun hsmall hlow => ?low, fun ref1 hsmall h1 he => ?plan⟩
  case large => exact execPlanPll_of_error hv (by rw [planPll, if_pos hbig])
  case low =>
    refine execPlanPll_of_error hv ?_
    rw [planPll, if_neg (by omega), if_pos (by rw [hcor]; exact hlow)]
  case plan =>
    obtain rfl : ref1 = (correctedReference s.cfg reference.toNat ppb.toInt).toNat := by omega
    have hplan := planPll_of_planned hsmall h1 (plannedAt_of_constraintK1 hK1 target.toNat _)
    rw [execPlanPll_of_ok hv hplan]

/-- Settles O34: truncation toward zero is odd. -/
theorem correctionIsSymmetric : Obligations.CorrectionIsSymmetric := by
  intro c reference ppb hc
  simp only [correctedReference_eq, hc, if_true, Int.mul_neg, Int.neg_tdiv, Int.mul_zero, Int.zero_tdiv]
  omega

end Sys2Proof.Machine
end

section
/-! Proofs about the Frequency Planner (`spec/40_planner.md`), PLAN_MULTISYNTH and the widths of every result, and about the
R-Divider Selector (`spec/41_rdiv.md`). -/

namespace Sys2Proof.Machine

/-! ### The three modes of PLAN_MULTISYNTH -/

theorem msClamp_eq_bounded {c : Config} (hK2 : ConstraintK2 c) (target : Nat) :
    msClamp c target = bounded target (c.multisynthMin * 100) (c.multisynthMax * 100) :=
  clampNat_eq_bounded (Nat.mul_le_mul_right 100 hK2.2.1)

/-- The clamped target lies in the multisynth range. -/
theorem msClamp_range {c : Config} (hK2 : ConstraintK2 c) (target : Nat) :
    c.multisynthMin * 100 ≤ msClamp c target ∧ msClamp c target ≤ c.multisynthMax * 100 :=
  ⟨le_clampNat (Nat.mul_le_mul_right 100 hK2.2.1), clampNat_le (Nat.mul_le_mul_right 100 hK2.2.1)⟩

section
variable {c : Config} {target : Nat} (pll : Nat)

theorem planMultisynthExact_of_divBy4 (h : c.divBy4Threshold * 100 ≤ msClamp c target) (fixed : Bool) :
    planMultisynthExact c target pll fixed = .ok (planDivBy4 (msClamp c target) fixed) := if_pos h

theorem planMultisynthExact_of_fixed (h : msClamp c target < c.divBy4Threshold * 100) :
    planMultisynthExact c target pll true = planFixed (msClamp c target) pll :=
  if_neg (Nat.not_le.mpr h)

theorem planMultisynthExact_of_autoSize (h : msClamp c target < c.divBy4Threshold * 100) :
    planMultisynthExact c target pll false = planAutoSize c (msClamp c target) :=
  if_neg (Nat.not_le.mpr h)

end

theorem planMultisynth_of_fits {c : Config} {target pll : Nat} {fixed : Bool}
    (h : ∀ p, planMultisynthExact c target pll fixed = .ok p → p.resulting < 2 ^ 64) :
    planMultisynth c target pll fixed = planMultisynthExact c target pll fixed := by
  unfold planMultisynth
  split
  · next r hr => exact hr.symm
  · next p hp => rw [if_neg (Nat.not_le.mpr (h p hp)), hp]

theorem planMultisynth_of_too_wide {c : Config} {target pll : Nat} {fixed : Bool} {p : MsPlan}
    (h : planMultisynthExact c target pll fixed = .ok p) (hw : 2 ^ 64 ≤ p.resulting) :
    planMultisynth c target pll fixed = .error .resultTooWide := by
  rw [planMultisynth, h]
  exact if_pos hw

/-! ### Divide-by-4 mode (R111) -/

theorem planDivBy4_fields (t1 : Nat) (fixed : Bool) : (planDivBy4 t1 fixed).fields = packFields 4 0 1 := rfl

theorem planDivBy4_resulting_free (t1 : Nat) : (planDivBy4 t1 false).resulting = 4 * t1 := rfl

theorem domain_divBy4 : 4 ≤ 4 ∧ 4 ≤ 2051 ∧ 1 ≤ 1 ∧ 1 ≤ 1048575 ∧ 0 < 1 := by decide

/-! ### Auto-size mode (R112, R113) -/

theorem substituteRatio_eq (a : Nat) : substituteRatio a = if a = 5 then 4 else if a = 7 then 6 else a := by
  unfold substituteRatio
  split <;> simp

theorem substituteRatio_le (a : Nat) : substituteRatio a ≤ a := by
  rw [substituteRatio_eq]
  split <;> (try split) <;> omega

theorem substituteRatio_range {a : Nat} (hlo : 4 ≤ a) (hhi : a ≤ 2051) :
    4 ≤ substituteRatio a ∧ substituteRatio a ≤ 2051 ∧ substituteRatio a ≠ 5 ∧ substituteRatio a ≠ 7 := by
  rw [substituteRatio_eq]
  split <;> (try split) <;> omega

/-- What a plan of auto-size mode is, if there is one. -/
theorem planAutoSize_eq_ok {c : Config} {t1 : Nat} {p : MsPlan} (h : planAutoSize c t1 = .ok p) :
    p = { fields := packFields (substituteRatio (c.vcoMax * 100 / t1)) 0 1,
          resulting := substituteRatio (c.vcoMax * 100 / t1) * t1, divby4 := false } := by
  simp only [planAutoSize] at h
  split at h
  · cases h
  · next f hf =>
    obtain ⟨-, rfl⟩ := encodeFields_eq_ok hf
    exact (Except.ok.inj h).symm

/-- K3 to K5 keep the ratio of auto-size mode in the range of the packing. -/
theorem autoSize_ratio_range {c : Config} {t1 : Nat} (hK2 : ConstraintK2 c) (hK : ConstraintsK3to5 c)
    (hlo : c.multisynthMin * 100 ≤ t1) (hhi : t1 < c.divBy4Threshold * 100) :
    4 ≤ c.vcoMax * 100 / t1 ∧ c.vcoMax * 100 / t1 ≤ 2051 := by
  obtain ⟨hmin, -, -⟩ := hK2
  obtain ⟨-, h4, hmax⟩ := hK
  refine ⟨(Nat.le_div_iff_mul_le (by omega)).mpr (by omega), ?_⟩
  calc c.vcoMax * 100 / t1
      ≤ c.vcoMax * 100 / (c.multisynthMin * 100) := Nat.div_le_div_left hlo (by omega)
    _ = c.vcoMax / c.multisynthMin := Nat.mul_div_mul_right _ _ (by omega)
    _ ≤ 2051 := hmax

theorem domain_of_integer {a : Nat} (hlo : 4 ≤ a) (hhi : a ≤ 2051) : 4 ≤ a ∧ a ≤ 2051 ∧ 1 ≤ 1 ∧ 1 ≤ 1048575 ∧ 0 < 1 :=
  ⟨hlo, hhi, le_refl 1, by omega, by omega⟩

theorem planAutoSize_of_range {c : Config} {t1 : Nat} (hlo : 4 ≤ c.vcoMax * 100 / t1) (hhi : c.vcoMax * 100 / t1 ≤ 2051) :
    planAutoSize c t1 = .ok
      { fields := packFields (substituteRatio (c.vcoMax * 100 / t1)) 0 1,
        resulting := substituteRatio (c.vcoMax * 100 / t1) * t1, divby4 := false } := by
  obtain ⟨h4, hm, -⟩ := substituteRatio_range hlo hhi
  have he : encodeFields (substituteRatio (c.vcoMax * freqMult / t1)) 0 1 = _ :=
    encodeFields_of_domain (domain_of_integer h4 hm)
  simp only [planAutoSize, he]
  rfl

/-- The PLL frequency that auto-size mode asks for is in the VCO range from above. -/
theorem autoSize_resulting_le (c : Config) (t1 : Nat) :
    substituteRatio (c.vcoMax * 100 / t1) * t1 ≤ c.vcoMax * 100 :=
  (Nat.mul_le_mul_right t1 (substituteRatio_le _)).trans (Nat.div_mul_le_self _ _)

/-! ### Fixed-PLL mode (R114 to R116) -/

theorem msRatio_eq (t1 pll : Nat) :
    msRatio t1 pll =
      (bounded (pll / t1) 6 1800, if bounded (pll / t1) 6 1800 = pll / t1 then t1 else pll / bounded (pll / t1) 6 1800) := by
  simp only [msRatio, clampNat_eq_bounded (show 6 ≤ 1800 by omega)]

theorem bounded_range {lo hi : Nat} (h : lo ≤ hi) (x : Nat) : lo ≤ bounded x lo hi ∧ bounded x lo hi ≤ hi := by
  unfold bounded
  omega

/-- The divider of fixed-PLL mode is on the domain of the packing. -/
theorem domain_fixed {t2 pll a : Nat} (h0 : t2 ≠ 0) (hlo : 6 ≤ a) (hhi : a ≤ 1800) :
    4 ≤ a ∧ a ≤ 2051 ∧ 1 ≤ cDenom ∧ cDenom ≤ 1048575 ∧ pll % t2 * cDenom / t2 < cDenom := by
  have hr := Nat.mod_lt pll (Nat.pos_of_ne_zero h0)
  refine ⟨by omega, by omega, by decide, by decide, ?_⟩
  exact (Nat.div_lt_iff_lt_mul (Nat.pos_of_ne_zero h0)).mpr
    (by rw [Nat.mul_comm cDenom]; exact Nat.mul_lt_mul_of_pos_right hr (by decide))

theorem planFixed_of_too_small {t1 pll : Nat}
    (h : (msRatio t1 pll).2 = 0 ∨ pll / (msRatio t1 pll).2 ≠ (msRatio t1 pll).1) :
    planFixed t1 pll = .error .pllFreqTooSmall := if_pos h

theorem msRatio_fst_range (t1 pll : Nat) : 6 ≤ (msRatio t1 pll).1 ∧ (msRatio t1 pll).1 ≤ 1800 :=
  ⟨le_clampNat (by omega), clampNat_le (by omega)⟩

theorem planFixed_of_large {t1 pll : Nat} (h0 : (msRatio t1 pll).2 ≠ 0)
    (h : pll / (msRatio t1 pll).2 = (msRatio t1 pll).1) :
    planFixed t1 pll = .ok
      { fields := packFields (msRatio t1 pll).1 (pll % (msRatio t1 pll).2 * cDenom / (msRatio t1 pll).2) cDenom,
        resulting := (msRatio t1 pll).2, divby4 := false } := by
  obtain ⟨hlo, hhi⟩ := msRatio_fst_range t1 pll
  have he := encodeFields_of_domain (domain_fixed (pll := pll) h0 hlo hhi)
  simp only [planFixed]
  rw [if_neg (by simp [h0, h]), he]

/-- What a plan of fixed-PLL mode is, if there is one. -/
theorem planFixed_eq_ok {t1 pll : Nat} {p : MsPlan} (h : planFixed t1 pll = .ok p) :
    (msRatio t1 pll).2 ≠ 0 ∧ pll / (msRatio t1 pll).2 = (msRatio t1 pll).1 ∧
      p = { fields := packFields (msRatio t1 pll).1 (pll % (msRatio t1 pll).2 * cDenom / (msRatio t1 pll).2) cDenom,
            resulting := (msRatio t1 pll).2, divby4 := false } := by
  by_cases hsmall : (msRatio t1 pll).2 = 0 ∨ pll / (msRatio t1 pll).2 ≠ (msRatio t1 pll).1
  · rw [planFixed_of_too_small hsmall] at h
    cases h
  · obtain ⟨h0, hd⟩ := not_or.mp hsmall
    rw [ne_eq, not_not] at hd
    rw [planFixed_of_large h0 hd] at h
    exact ⟨h0, hd, (Except.ok.inj h).symm⟩

/-- The adjusted target is the clamped one, or a quotient of `pll_freq`. -/
theorem msRatio_snd_le (t1 pll : Nat) : (msRatio t1 pll).2 ≤ max t1 pll := by
  simp only [msRatio]
  split
  · exact le_max_left _ _
  · exact (Nat.div_le_self _ _).trans (le_max_right _ _)

/-- K8: from 1800 × 1800 up `pll_freq` is never too small for the ratio clamp (R114). -/
theorem planFixed_of_K8 {t1 pll : Nat} (ht : 1 ≤ t1) (hp : 3240000 ≤ pll) : ∃ p, planFixed t1 pll = .ok p := by
  obtain ⟨hlo, hhi⟩ := msRatio_fst_range t1 pll
  suffices h : (msRatio t1 pll).2 ≠ 0 ∧ pll / (msRatio t1 pll).2 = (msRatio t1 pll).1 from
    ⟨_, planFixed_of_large h.1 h.2⟩
  by_cases he : bounded (pll / t1) 6 1800 = pll / t1
  · rw [msRatio_eq, if_pos he]
    exact ⟨by omega, he.symm⟩
  · rw [msRatio_eq] at hlo hhi
    rw [msRatio_eq, if_neg he]
    generalize bounded (pll / t1) 6 1800 = a at hlo hhi
    simp only at hlo hhi ⊢
    have hq : a ≤ pll / a := (Nat.le_div_iff_mul_le (by omega)).mpr (by nlinarith)
    have hdm := Nat.div_add_mod pll a
    have hml := Nat.mod_lt pll (show 0 < a by omega)
    refine ⟨by omega, Nat.div_eq_of_lt_le ?_ ?_⟩
    · exact Nat.mul_div_le pll a
    · rw [Nat.add_mul, Nat.one_mul]
      omega

/-- A plan that is not refused, by its mode. -/
inductive MsPlanned (c : Config) (target pll : Nat) : Bool → MsPlan → Prop where
  | divBy4 (fixed : Bool) (h : c.divBy4Threshold * 100 ≤ msClamp c target) :
      MsPlanned c target pll fixed (planDivBy4 (msClamp c target) fixed)
  | autoSize {p : MsPlan} (h : msClamp c target < c.divBy4Threshold * 100)
      (hp : planAutoSize c (msClamp c target) = .ok p) : MsPlanned c target pll false p
  | fixed {p : MsPlan} (h : msClamp c target < c.divBy4Threshold * 100)
      (hp : planFixed (msClamp c target) pll = .ok p) : MsPlanned c target pll true p

theorem planMultisynthExact_planned {c : Config} {target pll : Nat} {fixed : Bool} {p : MsPlan}
    (h : planMultisynthExact c target pll fixed = .ok p) : MsPlanned c target pll fixed p := by
  obtain hlt | h4 := Nat.lt_or_ge (msClamp c target) (c.divBy4Threshold * 100)
  · cases fixed with
    | false => exact .autoSize hlt (planMultisynthExact_of_autoSize pll hlt ▸ h)
    | true => exact .fixed hlt (planMultisynthExact_of_fixed pll hlt ▸ h)
  · rw [planMultisynthExact_of_divBy4 pll h4] at h
    cases h
    exact .divBy4 fixed h4

/-! ### Where the result fits its port -/

/-- With a PLL frequency of 64 bits a plan of fixed-PLL mode is never too wide. -/
theorem planMultisynth_fixed_eq_exact {c : Config} (hK2 : ConstraintK2 c) (target : Nat) {pll : Nat} (hpll : pll < 2 ^ 64) :
    planMultisynth c target pll true = planMultisynthExact c target pll true := by
  have hwide : msClamp c target < 2 ^ 64 := (msClamp_range hK2 target).2.trans_lt hK2.2.2
  refine planMultisynth_of_fits fun p hp => ?_
  cases planMultisynthExact_planned hp with
  | divBy4 => exact hwide
  | fixed hlt hq =>
    rw [(planFixed_eq_ok hq).2.2]
    exact (msRatio_snd_le _ _).trans_lt (max_lt hwide hpll)

/-- A plan of auto-size mode is never too wide. -/
theorem planMultisynth_autoSize_eq_exact {c : Config} (hK1 : ConstraintK1 c) {target : Nat} (pll : Nat)
    (hlt : msClamp c target < c.divBy4Threshold * 100) :
    planMultisynth c target pll false = planMultisynthExact c target pll false := by
  refine planMultisynth_of_fits fun p hp => ?_
  cases planMultisynthExact_planned hp with
  | divBy4 _ h4 => exact absurd h4 (Nat.not_le.mpr hlt)
  | autoSize _ hq =>
    rw [planAutoSize_eq_ok hq]
    exact (autoSize_resulting_le c _).trans_lt hK1.2.2

/-! ### The operation -/

theorem execPlanMultisynth_of_error {s : State} {target pll : U64} {fixed : Bool} {r : Refusal}
    (hv : configValid s.cfg = true) (h : planMultisynth s.cfg target.toNat pll.toNat fixed = .error r) :
    execPlanMultisynth target pll fixed s = .refused r := by
  rw [execPlanMultisynth, whenConfigured_of_valid hv, h]

theorem execPlanMultisynth_of_ok {s : State} {target pll : U64} {fixed : Bool} {p : MsPlan} {a b c : Nat}
    (hv : configValid s.cfg = true) (h : planMultisynth s.cfg target.toNat pll.toNat fixed = .ok p)
    (hf : p.fields = packFields a b c) (hd : 4 ≤ a ∧ a ≤ 2051 ∧ 1 ≤ c ∧ c ≤ 1048575 ∧ b < c) :
    execPlanMultisynth target pll fixed s =
      .next { s with response := plannerResponse a b c p.resulting ++ [boolByte p.divby4] } := by
  rw [execPlanMultisynth, whenConfigured_of_valid hv, h]
  simp only [hf, plannerResponse_of_domain hd]
  rfl

/-- Settles O32, mode by mode. -/
theorem planMultisynthOperation : Obligations.PlanMultisynthOperation := by
  intro s target pll hv t1 d4
  have hK1 := configValid_K1 hv
  have hK2 := configValid_K2 hv
  have hK := configValid_K3to5 hv
  have ht1 : msClamp s.cfg target.toNat = t1 := msClamp_eq_bounded hK2 _
  have hmin := (msClamp_range hK2 target.toNat).1
  rw [ht1] at hmin
  rw [exec_planMultisynth, exec_planMultisynth]
  refine ⟨fun h4 => ⟨?divFixed, fun hfit => ?divFree, fun hw => ?divWide⟩, fun hlt => ?autoSize, fun hlt => ?fixedPll⟩
  case divFixed =>
    have he := planMultisynthExact_of_divBy4 pll.toNat (by rw [ht1]; exact h4) true
    have hp := (planMultisynth_fixed_eq_exact hK2 target.toNat pll.isLt).trans he
    rw [execPlanMultisynth_of_ok hv hp (planDivBy4_fields _ _) domain_divBy4, ht1]
    rfl
  case divFree =>
    have he := planMultisynthExact_of_divBy4 pll.toNat (by rw [ht1]; exact h4) false
    have hp := (planMultisynth_of_fits fun p hp => by
      rw [he] at hp; cases hp; rw [planDivBy4_resulting_free, ht1]; exact hfit).trans he
    rw [execPlanMultisynth_of_ok hv hp (planDivBy4_fields _ _) domain_divBy4, ht1]
    rfl
  case divWide =>
    refine execPlanMultisynth_of_error hv
      (planMultisynth_of_too_wide (planMultisynthExact_of_divBy4 pll.toNat (by rw [ht1]; exact h4) false) ?_)
    rw [planDivBy4_resulting_free, ht1]
    exact hw
  case autoSize =>
    intro a0 a
    have ha : substituteRatio (s.cfg.vcoMax * 100 / t1) = a := substituteRatio_eq _
    obtain ⟨h4, hhi⟩ := autoSize_ratio_range hK2 hK hmin hlt
    obtain ⟨hs4, hshi, -⟩ := substituteRatio_range h4 hhi
    rw [← ht1] at hlt
    have hp := ((planMultisynth_autoSize_eq_exact hK1 pll.toNat hlt).trans
      (planMultisynthExact_of_autoSize pll.toNat hlt))
    rw [ht1, planAutoSize_of_range h4 hhi, ha] at hp
    rw [ha] at hs4 hshi
    rw [execPlanMultisynth_of_ok hv hp rfl (domain_of_integer hs4 hshi)]
    rfl
  case fixedPll =>
    intro a t2
    have hr : msRatio t1 pll.toNat = (a, t2) := msRatio_eq _ _
    obtain ⟨hlo, hhi⟩ := msRatio_fst_range t1 pll.toNat
    rw [← ht1] at hlt
    have hp := ((planMultisynth_fixed_eq_exact hK2 target.toNat pll.isLt).trans
      (planMultisynthExact_of_fixed pll.toNat hlt))
    rw [ht1] at hp
    refine ⟨fun hsmall => ?small, fun ⟨h0, hd⟩ => ?large⟩
    case small =>
      rw [planFixed_of_too_small (by rw [hr]; exact hsmall)] at hp
      exact execPlanMultisynth_of_error hv hp
    case large =>
      rw [planFixed_of_large (by rw [hr]; exact h0) (by rw [hr]; exact hd), hr] at hp
      rw [hr] at hlo hhi
      rw [execPlanMultisynth_of_ok hv hp rfl (domain_fixed h0 hlo hhi)]
      rfl

/-- A clamped target is at or above the threshold if the target is (K3). -/
theorem le_msClamp {c : Config} (hK2 : ConstraintK2 c) (hK : ConstraintsK3to5 c) {target : Nat}
    (h : c.divBy4Threshold * 100 ≤ target) : c.divBy4Threshold * 100 ≤ msClamp c target := by
  have hK3 := hK.1
  rw [msClamp_eq_bounded hK2, bounded]
  omega

/-- Settles O33, clause by clause, from the mode of the plan. -/
theorem planMultisynthProperties : Obligations.PlanMultisynthProperties := by
  intro c target pll fixed p hK1 hK2 hK hp t1
  have ht1 : msClamp c target = t1 := msClamp_eq_bounded hK2 _
  obtain ⟨hmin, -⟩ := msClamp_range hK2 target
  rw [ht1] at hmin
  have hplan := planMultisynthExact_planned (planMultisynth_eq_ok hp).1
  refine ⟨?divBy4, ?autoSize, ?fixed, ?widths, ?above⟩
  case divBy4 =>
    intro hm
    cases hplan with
    | divBy4 => exact ⟨rfl, rfl, rfl⟩
    | autoSize _ hq => rw [planAutoSize_eq_ok hq] at hm; cases hm
    | fixed _ hq => rw [(planFixed_eq_ok hq).2.2] at hm; cases hm
  case autoSize =>
    intro hm hfixed
    cases hplan with
    | divBy4 => cases hm
    | fixed => cases hfixed
    | autoSize hlt hq =>
      rw [ht1] at hlt hq
      obtain ⟨h4, hhi⟩ := autoSize_ratio_range hK2 hK hmin hlt
      obtain ⟨hs4, hshi, h5, h7⟩ := substituteRatio_range h4 hhi
      obtain ⟨hp1, hp2, hp3⟩ := packFields_toNat (domain_of_integer hs4 hshi)
      rw [planAutoSize_eq_ok hq]
      exact ⟨_, hs4, hshi, h5, h7, hp1, hp2, hp3, rfl⟩
  case fixed =>
    intro hm hfixed
    cases hplan with
    | divBy4 => cases hm
    | autoSize => cases hfixed
    | fixed hlt hq =>
      obtain ⟨h0, -, he⟩ := planFixed_eq_ok hq
      obtain ⟨hlo, hhi⟩ := msRatio_fst_range (msClamp c target) pll
      have hd := domain_fixed (pll := pll) h0 hlo hhi
      have hdiv := (packFields_p1_div hd).1
      have hp1 := packFields_p1_add hd
      have hq := fracQuotient_le hd.2.2.2.2
      have hp2 := packFields_p2_lt hd
      have hc : cDenom = 1000000 := rfl
      rw [he]
      dsimp only
      exact ⟨_, hlo, hhi, hdiv.symm, by omega, by omega, by omega, (packFields_toNat hd).2.2⟩
  case widths =>
    have h1 := p.fields.p1.isLt
    have h2 := p.fields.p2.isLt
    have h3 := p.fields.p3.isLt
    refine ⟨by omega, by omega, ?_, by omega⟩
    cases hplan with
    | divBy4 => exact le_refl 1
    | autoSize hlt hq =>
      rw [ht1] at hlt hq
      obtain ⟨h4, hhi⟩ := autoSize_ratio_range hK2 hK hmin hlt
      obtain ⟨hs4, hshi, -⟩ := substituteRatio_range h4 hhi
      rw [planAutoSize_eq_ok hq, (packFields_toNat (domain_of_integer hs4 hshi)).2.2]
    | fixed hlt hq =>
      obtain ⟨h0, -, he⟩ := planFixed_eq_ok hq
      obtain ⟨hlo, hhi⟩ := msRatio_fst_range (msClamp c target) pll
      rw [he, (packFields_toNat (domain_fixed (pll := pll) h0 hlo hhi)).2.2]
      decide
  case above =>
    intro h4 pll' fixed' q hq
    have h4' := le_msClamp hK2 hK h4
    have hp' := (planMultisynth_eq_ok hp).1
    have hq' := (planMultisynth_eq_ok hq).1
    rw [planMultisynthExact_of_divBy4 _ h4'] at hp' hq'
    cases hp'
    cases hq'
    rfl

/-! ### The R-divider (R144) -/

theorem leastExponent_antitone {d f g : Nat} (h : f ≤ g) : leastExponent g d ≤ leastExponent f d := by
  obtain ⟨hf1, -, hreach, -⟩ := leastExponent_spec f d
  obtain ⟨-, hg7, -, hleast⟩ := leastExponent_spec g d
  by_contra hlt
  have hbelow := hleast (leastExponent f d) hf1 (by omega)
  have habove := hreach (.inl (by omega))
  have := Nat.mul_le_mul_right (2 ^ leastExponent f d) h
  omega

theorem selectRDivider_fst_eq_zero_iff (c : Config) (freq : Nat) :
    (selectRDivider c freq).1 = 0 ↔ directMin c ≤ freq := by
  obtain hbelow | hdirect := Nat.lt_or_ge freq (directMin c)
  · have h1 := (leastExponent_spec freq (directMin c)).1
    rw [selectRDivider_of_lt hbelow]
    simp only
    omega
  · simp [selectRDivider_of_direct hdirect, hdirect]

/-- Settles O37, clause by clause. -/
theorem selectRDividerProperties : Obligations.SelectRDividerProperties := by
  intro c
  refine ⟨fun freq => ⟨selectRDivider_fst_eq_zero_iff c freq, ?exponentZero, selectRDivider_snd c freq, ?reached, ?missed⟩,
    ?antitone⟩
  case exponentZero =>
    intro h
    rw [selectRDivider_snd, h, pow_zero, mul_one]
  case reached =>
    intro hm
    have hreach : directMin c ≤ (selectRDivider c freq).2 := by
      obtain hbelow | hdirect := Nat.lt_or_ge freq (directMin c)
      · rw [selectRDivider_of_lt hbelow]
        exact le_mul_two_pow_leastExponent hm
      · rw [selectRDivider_of_direct hdirect]
        exact hdirect
    exact ⟨hreach, selectRDivider_of_direct hreach⟩
  case missed =>
    intro hm
    have hmiss : (selectRDivider c freq).2 < directMin c := by
      rw [directMin_eq, selectRDivider_of_lt (by rw [directMin_eq]; omega), directMin_eq]
      simp only [leastExponent_eq_seven hm]
      omega
    exact ⟨hmiss, fun h0 => absurd ((selectRDivider_fst_eq_zero_iff c _).mp h0) (Nat.not_le.mpr hmiss)⟩
  case antitone =>
    intro f g h
    obtain hg | hg := Nat.lt_or_ge g (directMin c)
    · rw [selectRDivider_of_lt hg, selectRDivider_of_lt (h.trans_lt hg)]
      exact leastExponent_antitone h
    · rw [selectRDivider_of_direct hg]
      exact Nat.zero_le _

/-! ### The widths of the results (R32, R122) -/

theorem tdiv_le_of_le_mul {x n d : Int} (hd : 0 < d) (hn : 0 ≤ n) (h : x ≤ n * d) : x.tdiv d ≤ n := by
  obtain hx | hx := le_or_gt 0 x
  · rw [Int.tdiv_eq_ediv_of_nonneg hx]
    exact Int.ediv_le_of_le_mul hd h
  · have hneg := Int.tdiv_nonneg (show 0 ≤ -x by omega) hd.le
    rw [Int.neg_tdiv] at hneg
    omega

theorem fdiv_le_of_le_mul {x n d : Int} (hd : 0 < d) (h : x ≤ n * d) : x.fdiv d ≤ n := by
  rw [Int.fdiv_eq_ediv_of_nonneg _ hd.le]
  exact Int.ediv_le_of_le_mul hd h

/-- With K9 and a correction of 32 bits the corrected reference stays below 2^46. -/
theorem correctedReference_lt (c : Config) {reference : Nat} (hr : reference < 2 ^ 44) (ppb : BitVec 32) :
    correctedReference c reference ppb.toInt < 2 ^ 46 := by
  have hp : ppb.toInt ≤ 2 ^ 31 := by have := @BitVec.toInt_lt 32 ppb; omega
  have hprod : (reference : Int) * ppb.toInt ≤ 37778931862958 * 1000000000 :=
    calc (reference : Int) * ppb.toInt
        ≤ reference * 2 ^ 31 := Int.mul_le_mul_of_nonneg_left hp (by omega)
      _ ≤ 37778931862958 * 1000000000 := by omega
  have ht := tdiv_le_of_le_mul (by omega) (by omega) hprod
  have hf := fdiv_le_of_le_mul (by omega) hprod
  rw [correctedReference_eq]
  split <;> omega

theorem clampNat_cases (x lo hi : Nat) :
    (x < lo ∧ clampNat x lo hi = lo) ∨ (lo ≤ x ∧ hi < x ∧ clampNat x lo hi = hi) ∨
      (lo ≤ x ∧ x ≤ hi ∧ clampNat x lo hi = x) := by
  unfold clampNat
  split <;> (try split) <;> omega

/-- R103, R105: the adjusted target of a plan is the target after both clamps. -/
theorem PlannedAt.target_eq_clampedTarget {c : Config} {target ref1 : Nat} {p : PllPlan}
    (h : PlannedAt c target ref1 p) (hK1 : ConstraintK1 c) : p.target = clampedTarget c target ref1 := by
  have ht1 : vcoClamp c target = bounded target (c.vcoMin * freqMult) (c.vcoMax * freqMult) := vcoClamp_eq_bounded hK1 target
  simp only [clampedTarget, ← ht1]
  rw [h.target_eq, h.a_eq]
  obtain ⟨hlo, he⟩ | ⟨hlo, hhi, he⟩ | ⟨hlo, hhi, he⟩ := clampNat_cases (vcoClamp c target / ref1) 15 90
  · rw [he, if_neg (by omega), if_pos hlo, Nat.mul_comm]
  · rw [he, if_neg (by omega), if_neg (by omega), if_pos hhi, Nat.mul_comm]
  · rw [he, if_pos rfl, if_neg (by omega), if_neg (by omega)]

/-- The target after both clamps fits its port: it is at most the VCO maximum, or 15 times the corrected reference. -/
theorem clampedTarget_lt {c : Config} (hK1 : ConstraintK1 c) (target : Nat) {ref1 : Nat} (hr : ref1 < 2 ^ 46) :
    clampedTarget c target ref1 < 2 ^ 64 := by
  have hmax := hK1.2.2
  have ht1 := (bounded_range (Nat.mul_le_mul_right freqMult hK1.2.1) target).2
  simp only [clampedTarget]
  generalize bounded target (c.vcoMin * freqMult) (c.vcoMax * freqMult) = t1 at ht1 ⊢
  split
  · omega
  split
  · next h90 =>
    have hdm := Nat.div_mul_le_self t1 ref1
    have := Nat.mul_le_mul_right ref1 h90
    omega
  · omega

theorem planPll_target_lt {c : Config} (hK1 : ConstraintK1 c) {target reference : Nat} {ppb : BitVec 32} {p : PllPlan}
    (h : planPll c target reference ppb.toInt = .ok p) : p.target < 2 ^ 64 := by
  obtain ⟨hr, -, hp⟩ := planPll_planned h
  have hlt := correctedReference_lt c hr ppb
  rw [hp.target_eq_clampedTarget hK1]
  exact clampedTarget_lt hK1 target (by omega)

/-- Settles O35, planner by planner. -/
theorem plannerResultsFitTheirPorts : Obligations.PlannerResultsFitTheirPorts := by
  intro c hK1 hK2 hK6
  refine ⟨?pll, fun freq hf => ⟨selectRDivider_snd_lt hK6 hf, selectRDivider_fst_le c freq⟩,
    fun target pll fixed p h => (planMultisynth_eq_ok h).2,
    fun target pll hpll => planMultisynth_fixed_eq_exact hK2 target hpll,
    fun target pll hlt => planMultisynth_autoSize_eq_exact hK1 pll (msClamp_eq_bounded hK2 target ▸ hlt)⟩
  case pll =>
    intro target reference ppb p h
    obtain ⟨-, h1, hp⟩ := planPll_planned h
    have ht := planPll_target_lt hK1 h
    exact ⟨(hp.achieved_bounds h1).1.trans_lt ht, ht⟩

end Sys2Proof.Machine
end

section
/-! Proofs about the Bus Transport (`spec/42_bus_transport.md`): the five operations, answered and not answered. -/

namespace Sys2Proof.Machine

/-! ### What a call keeps, step by step -/

section
variable (a : BusAction) (hs : HwStatus) (s : State) (cause : Cause)

@[simp] theorem afterReaction_tstat : (afterReaction cause s).tstat = s.tstat := by cases cause <;> rfl

@[simp] theorem afterReaction_freeIndex : (afterReaction cause s).freeIndex = s.freeIndex := by cases cause <;> rfl

@[simp] theorem afterReaction_rm : (afterReaction cause s).line.rm = s.line.rm := by cases cause <;> rfl

@[simp] theorem afterReaction_rp : (afterReaction cause s).line.rp = s.line.rp := by cases cause <;> rfl

/-- A fault reaction only adds to what stands on the lines. -/
theorem events_prefix_afterReaction : s.line.events <+: (afterReaction cause s).line.events := by
  cases cause with
  | nack => exact List.prefix_append _ [LineEvent.stop]
  | arbitrationLoss | busFault => exact List.prefix_append _ [LineEvent.release]
  | protocolViolation => exact List.prefix_refl _

theorem answered_callFrame : CallFrame s (answered a hs s) := ⟨⟨rfl, rfl, rfl, rfl, rfl, rfl, rfl⟩, rfl, rfl, rfl, rfl⟩

theorem nextAnswer_answered : nextAnswer (answered a hs s).line = s.line.answers.tail.headD .asChip := by
  simp [nextAnswer]

end

theorem CallFrame.afterReaction {s t : State} (h : CallFrame s t) (cause : Cause) : CallFrame s (afterReaction cause t) := by
  obtain ⟨hm, hseq, hra, hcmd, hw⟩ := h
  cases cause with
  | nack | arbitrationLoss | busFault => exact ⟨hm, hseq, hra, hcmd, rfl⟩
  | protocolViolation => exact ⟨hm, hseq, hra, hcmd, hw⟩

theorem ChipKept.afterReaction {s t : State} (h : ChipKept s t) (cause : Cause) : ChipKept s (afterReaction cause t) := by
  obtain ⟨hm, hp⟩ := h
  exact ⟨fun a => by rw [afterReaction_rm]; exact hm a, by rw [afterReaction_rp]; exact hp⟩

theorem chipKept_of_eq {s t : State} (hm : t.line.rm = s.line.rm) (hp : t.line.rp = s.line.rp) : ChipKept s t :=
  ⟨fun _ => by rw [hm], hp⟩

/-! ### START -/

/-- What START's answer does to the lines: open after a success, closed after a failure (R54, log 28). -/
theorem chipReact_start (c : Config) (l : LineEnv) (cls : HsClass) :
    chipReact c l .start cls =
      { l with busOpen := decide (startFault cls = none), mode := .none } := by
  cases cls <;> rfl

theorem startFault_ne_nack (cls : HsClass) : startFault cls ≠ some .nack := by
  cases cls <;> simp [startFault]

theorem takeFault_of_not_nack {cause : Cause} (h : cause ≠ .nack) (hs : HwStatus) (s : State) :
    takeFault cause hs s = .done (.fault cause hs) (afterReaction cause s) := by
  cases cause with
  | nack => exact absurd rfl h
  | arbitrationLoss | busFault | protocolViolation => rfl

/-- An answered START returns: no reaction to its faults waits for anything. -/
theorem callStart_of_reply {s : State} {hs : HwStatus} (hr : reply s.cfg s.line .start = some hs) :
    callStart s = .done (startAfter hs s).1 (startAfter hs s).2 := by
  unfold callStart startAfter
  rw [ask_of_reply hr]
  cases hf : startFault hs.cls with
  | none => simp [hf]
  | some cause =>
    have hne : cause ≠ .nack := fun h => startFault_ne_nack hs.cls (h ▸ hf)
    simp [hf, takeFault_of_not_nack hne]

theorem startAfter_of_success {hs : HwStatus} (h : startFault hs.cls = none) (s : State) :
    startAfter hs s = (.ok, { answered .start hs s with ps := .started, dir := .none }) := by
  simp only [startAfter, h]

theorem startAfter_of_fault {hs : HwStatus} {cause : Cause} (h : startFault hs.cls = some cause) (s : State) :
    startAfter hs s = (.fault cause hs, afterReaction cause (answered .start hs s)) := by
  simp only [startAfter, h]

section
variable (hs : HwStatus) (s : State)

theorem startAfter_callFrame : CallFrame s (startAfter hs s).2 := by
  have h := answered_callFrame .start hs s
  cases hf : startFault hs.cls with
  | none => rw [startAfter_of_success hf]; exact h
  | some cause => rw [startAfter_of_fault hf]; exact h.afterReaction cause

theorem startAfter_chipKept : ChipKept s (startAfter hs s).2 := by
  have h : ChipKept s (answered .start hs s) :=
    chipKept_of_eq (by simp [chipReact_start]) (by simp [chipReact_start])
  cases hf : startFault hs.cls with
  | none => rw [startAfter_of_success hf]; exact h
  | some cause => rw [startAfter_of_fault hf]; exact h.afterReaction cause

theorem startAfter_tstat : (startAfter hs s).2.tstat = hs := by
  cases hf : startFault hs.cls with
  | none => rw [startAfter_of_success hf]; rfl
  | some cause => rw [startAfter_of_fault hf, afterReaction_tstat]; rfl

theorem startAfter_freeIndex : (startAfter hs s).2.freeIndex = s.freeIndex := by
  cases hf : startFault hs.cls with
  | none => rw [startAfter_of_success hf]; rfl
  | some cause => rw [startAfter_of_fault hf, afterReaction_freeIndex]; rfl

end

theorem execStart_of_reply {s : State} {hs : HwStatus} (hv : configValid s.cfg = true)
    (hr : reply s.cfg s.line .start = some hs) :
    execStart s = .next (respond [statusByte (startAfter hs s).1] (startAfter hs s).2) := by
  rw [execStart, whenConfigured_of_valid hv, callStart_of_reply hr]
  rfl

theorem execStart_of_no_reply {s : State} (hv : configValid s.cfg = true) (hr : reply s.cfg s.line .start = none) :
    execStart s = .fault (.hang (issued .start s)) := by
  rw [execStart, whenConfigured_of_valid hv, callStart, ask_of_no_reply hr]
  rfl

theorem startFault_eq_none_iff (cls : HsClass) : startFault cls = none ↔ cls = .start ∨ cls = .repStart := by
  cases cls <;> simp [startFault]

theorem startFault_of_other {cls : HsClass} (h : cls ≠ .start ∧ cls ≠ .repStart ∧ cls ≠ .arbLost) :
    startFault cls = some .protocolViolation := by
  obtain ⟨h1, h2, h3⟩ := h
  cases cls <;> simp_all [startFault]

/-- Settles O7, by the class of the answer. -/
theorem startOutcome : Obligations.StartOutcome := by
  refine ⟨rfl, fun s hv => ⟨fun hs hr => ?answered, fun hr => ?unanswered⟩⟩
  case unanswered =>
    rw [exec_start, execStart_of_no_reply hv hr]
    rfl
  case answered =>
    refine ⟨_, execStart_of_reply hv hr, startAfter_callFrame hs s, startAfter_chipKept hs s, startAfter_tstat hs s,
      startAfter_freeIndex hs s, fun hc => ?success, fun hc => ?lost, fun hc => ?other⟩
    case success =>
      have hf := (startFault_eq_none_iff hs.cls).mpr hc
      rw [startAfter_of_success hf]
      simp [statusByte, chipReact_start, hf]
    case lost =>
      have hf : startFault hs.cls = some .arbitrationLoss := by rw [hc]; rfl
      rw [startAfter_of_fault hf]
      exact ⟨rfl, rfl, rfl, ⟨rfl, rfl⟩, by simp [afterReaction]⟩
    case other =>
      have hf := startFault_of_other hc
      rw [startAfter_of_fault hf]
      exact ⟨rfl, rfl, rfl, by simp [LinesClosed, afterReaction, chipReact_start, hf], by simp [afterReaction]⟩

/-! ### SEND_ADDRESS -/

section
variable {read : Bool} {cls : HsClass}

theorem addressFault_of_ack (h : cls = if read then .slaRAck else .slaWAck) : addressFault read cls = none := if_pos h

theorem addressFault_of_nack (h : cls = if read then .slaRNack else .slaWNack) :
    addressFault read cls = some .nack := by
  subst h
  cases read <;> rfl

theorem addressFault_of_other
    (h : cls ≠ (if read then .slaRAck else .slaWAck) ∧ cls ≠ (if read then .slaRNack else .slaWNack)) :
    addressFault read cls = some .busFault := by
  rw [addressFault, if_neg h.1, if_neg h.2]

theorem addressFault_cause {cause : Cause} (h : addressFault read cls = some cause) : cause = .nack ∨ cause = .busFault := by
  by_cases hack : cls = if read then .slaRAck else .slaWAck
  · rw [addressFault_of_ack hack] at h
    cases h
  by_cases hnack : cls = if read then .slaRNack else .slaWNack
  · rw [addressFault_of_nack hnack] at h
    exact .inl (Option.some.inj h).symm
  · rw [addressFault_of_other ⟨hack, hnack⟩] at h
    exact .inr (Option.some.inj h).symm

end

theorem callAddress_of_reply {s : State} {addr7 : BitVec 7} {read : Bool} {hs : HwStatus}
    (hr : reply s.cfg s.line (.address (addressByte s.cfg addr7 read)) = some hs)
    (hn : s.line.answers.tail.headD .asChip ≠ .never) :
    callAddress addr7 read s = .done (addressAfter addr7 read hs s).1 (addressAfter addr7 read hs s).2 := by
  unfold callAddress addressAfter
  rw [ask_of_reply hr]
  rw [← nextAnswer_answered (.address (addressByte s.cfg addr7 read)) hs s] at hn
  cases hf : addressFault read hs.cls <;> simp [takeFault_of_answer hn, hf]

section
variable (addr7 : BitVec 7) (read : Bool) {hs : HwStatus} (s : State)

theorem addressAfter_of_success (h : addressFault read hs.cls = none) :
    addressAfter addr7 read hs s =
      (.ok, { answered (.address (addressByte s.cfg addr7 read)) hs s with
        ps := .addressed, dir := if read then .read else .write }) := by
  simp only [addressAfter, h]

theorem addressAfter_of_fault {cause : Cause} (h : addressFault read hs.cls = some cause) :
    addressAfter addr7 read hs s =
      (.fault cause hs, afterReaction cause (answered (.address (addressByte s.cfg addr7 read)) hs s)) := by
  simp only [addressAfter, h]

variable (hs)

theorem addressAfter_callFrame : CallFrame s (addressAfter addr7 read hs s).2 := by
  have h := answered_callFrame (.address (addressByte s.cfg addr7 read)) hs s
  cases hf : addressFault read hs.cls with
  | none => rw [addressAfter_of_success _ _ _ hf]; exact h
  | some cause => rw [addressAfter_of_fault _ _ _ hf]; exact h.afterReaction cause

theorem chipReact_address_kept (c : Config) (l : LineEnv) (ab : Byte) (cls : HsClass) :
    (chipReact c l (.address ab) cls).rm = l.rm ∧ (chipReact c l (.address ab) cls).rp = l.rp ∧
      (chipReact c l (.address ab) cls).busOpen = l.busOpen := by
  cases cls <;> exact ⟨rfl, rfl, rfl⟩

theorem addressAfter_chipKept : ChipKept s (addressAfter addr7 read hs s).2 := by
  obtain ⟨hrm, hrp, -⟩ := chipReact_address_kept s.cfg
    (popAnswer (emit (.action (.address (addressByte s.cfg addr7 read))) s.line)) (addressByte s.cfg addr7 read) hs.cls
  have h : ChipKept s (answered (.address (addressByte s.cfg addr7 read)) hs s) := chipKept_of_eq hrm hrp
  cases hf : addressFault read hs.cls with
  | none => rw [addressAfter_of_success _ _ _ hf]; exact h
  | some cause => rw [addressAfter_of_fault _ _ _ hf]; exact h.afterReaction cause

theorem addressAfter_tstat : (addressAfter addr7 read hs s).2.tstat = hs := by
  cases hf : addressFault read hs.cls with
  | none => rw [addressAfter_of_success _ _ _ hf]; rfl
  | some cause => rw [addressAfter_of_fault _ _ _ hf, afterReaction_tstat]; rfl

theorem addressAfter_freeIndex : (addressAfter addr7 read hs s).2.freeIndex = s.freeIndex := by
  cases hf : addressFault read hs.cls with
  | none => rw [addressAfter_of_success _ _ _ hf]; rfl
  | some cause => rw [addressAfter_of_fault _ _ _ hf, afterReaction_freeIndex]; rfl

/-- The address byte is the first thing that SEND_ADDRESS puts on the lines. -/
theorem addressAfter_events :
    s.line.events ++ [.action (.address (addressByte s.cfg addr7 read))] <+: (addressAfter addr7 read hs s).2.line.events := by
  have h : (answered (.address (addressByte s.cfg addr7 read)) hs s).line.events =
      s.line.events ++ [.action (.address (addressByte s.cfg addr7 read))] := by simp
  rw [← h]
  cases hf : addressFault read hs.cls with
  | none => rw [addressAfter_of_success _ _ _ hf]
  | some cause => rw [addressAfter_of_fault _ _ _ hf]; exact events_prefix_afterReaction _ _

end

/-- What an acknowledged address byte makes the chip expect (R53, D29). -/
theorem chipReact_address_ack (c : Config) (l : LineEnv) (addr7 : BitVec 7) (read : Bool) :
    chipReact c l (.address (addressByte c addr7 read)) (if read then .slaRAck else .slaWAck) =
      { l with mode := if l.busOpen = true ∧ addr7 = c.chipAddr then (if read then .read else .wFirst) else .none } := by
  cases read <;> simp [chipReact, modeAfterAck_addressByte]

theorem execSendAddress_of_reply {s : State} {addr7 : BitVec 7} {read : Bool} {hs : HwStatus}
    (hv : configValid s.cfg = true) (hr : reply s.cfg s.line (.address (addressByte s.cfg addr7 read)) = some hs)
    (hn : s.line.answers.tail.headD .asChip ≠ .never) :
    execSendAddress addr7 read s =
      .next (respond [statusByte (addressAfter addr7 read hs s).1] (addressAfter addr7 read hs s).2) := by
  rw [execSendAddress, whenConfigured_of_valid hv, callAddress_of_reply hr hn]
  rfl

/-- Settles O8, by the class of the answer. -/
theorem sendAddressOutcome : Obligations.SendAddressOutcome := by
  intro s addr7 read hs hv hr hn
  refine ⟨_, execSendAddress_of_reply hv hr hn, addressAfter_callFrame _ _ hs s, addressAfter_chipKept _ _ hs s,
    addressAfter_tstat _ _ hs s, addressAfter_freeIndex _ _ hs s, fun hc => ?ack, fun hc => ?nack, fun hc => ?other⟩
  case ack =>
    have hline := chipReact_address_ack s.cfg
      (popAnswer (emit (.action (.address (addressByte s.cfg addr7 read))) s.line)) addr7 read
    rw [← hc, ← answered_line] at hline
    rw [addressAfter_of_success _ _ _ (addressFault_of_ack hc), respond_line]
    dsimp only
    rw [hline]
    exact ⟨rfl, rfl, rfl, rfl, rfl, rfl⟩
  case nack =>
    rw [addressAfter_of_fault _ _ _ (addressFault_of_nack hc)]
    exact ⟨rfl, rfl, rfl, ⟨rfl, rfl⟩, by simp [afterReaction]⟩
  case other =>
    rw [addressAfter_of_fault _ _ _ (addressFault_of_other hc)]
    exact ⟨rfl, rfl, rfl, ⟨rfl, rfl⟩, by simp [afterReaction]⟩

/-- Settles O15: the byte is the address and the read bit side by side, and it is the first thing on the lines. -/
theorem addressByteOnTheBus : Obligations.AddressByteOnTheBus := by
  intro s addr7 read
  refine ⟨fun hread => ⟨?number, ?bit⟩, deviceOf_addressByte _ _ _, addressByte_bit0 _ _ _, fun hv hresp => ?bus⟩
  case number =>
    rw [addressByte, toNat_append_eq, rwBit, hread]
    cases read <;> rfl
  case bit =>
    rw [addressByte_bit0, hread, beq_true]
  case bus =>
    obtain ⟨hs, -, he⟩ := callAddress_of_responsive hresp addr7 read
    refine ⟨respond [statusByte (addressAfter addr7 read hs s).1] (addressAfter addr7 read hs s).2, ?_,
      addressAfter_events addr7 read hs s⟩
    rw [exec_sendAddress, execSendAddress, whenConfigured_of_valid hv, he]
    rfl

/-! ### SEND_BYTE -/

theorem callSend_of_reply {s : State} {b : Byte} {hs : HwStatus} (hr : reply s.cfg s.line (.tx b) = some hs)
    (hn : s.line.answers.tail.headD .asChip ≠ .never) :
    callSend b s = .done (sendAfter b hs s).1 (sendAfter b hs s).2 := by
  unfold callSend sendAfter
  rw [ask_of_reply hr]
  rw [← nextAnswer_answered (.tx b) hs s] at hn
  cases hf : txFault hs.cls <;> simp [takeFault_of_answer hn, hf]

theorem txFault_eq_none_iff (cls : HsClass) : txFault cls = none ↔ cls = .txAck := by
  cases cls <;> simp [txFault]

theorem txFault_of_other {cls : HsClass} (h : cls ≠ .txAck ∧ cls ≠ .txNack) : txFault cls = some .busFault := by
  obtain ⟨h1, h2⟩ := h
  cases cls <;> simp_all [txFault]

theorem txFault_cause {cls : HsClass} {cause : Cause} (h : txFault cls = some cause) : cause = .nack ∨ cause = .busFault := by
  unfold txFault at h
  split at h
  · cases h
  · exact .inl (Option.some.inj h).symm
  · exact .inr (Option.some.inj h).symm

/-- A byte that is not acknowledged does not reach the chip (R54). -/
theorem chipReact_tx_of_fault (c : Config) (l : LineEnv) (b : Byte) {cls : HsClass} (h : cls ≠ .txAck) :
    chipReact c l (.tx b) cls = l := by
  cases cls <;> first | rfl | exact absurd rfl h

section
variable (b : Byte) {hs : HwStatus} (s : State)

theorem sendAfter_of_success (h : txFault hs.cls = none) :
    sendAfter b hs s = (.ok, { answered (.tx b) hs s with ps := .data }) := by
  simp only [sendAfter, h]

theorem sendAfter_of_fault {cause : Cause} (h : txFault hs.cls = some cause) :
    sendAfter b hs s = (.fault cause hs, afterReaction cause (answered (.tx b) hs s)) := by
  simp only [sendAfter, h]

theorem sendAfter_chipKept_of_fault (h : hs.cls ≠ .txAck) : ChipKept s (sendAfter b hs s).2 := by
  cases hf : txFault hs.cls with
  | none => exact absurd ((txFault_eq_none_iff _).mp hf) h
  | some cause =>
    rw [sendAfter_of_fault _ _ hf]
    exact (chipKept_of_eq (by simp [chipReact_tx_of_fault _ _ _ h]) (by simp [chipReact_tx_of_fault _ _ _ h])).afterReaction
      cause

variable (hs)

theorem sendAfter_callFrame : CallFrame s (sendAfter b hs s).2 := by
  have h := answered_callFrame (.tx b) hs s
  cases hf : txFault hs.cls with
  | none => rw [sendAfter_of_success _ _ hf]; exact h
  | some cause => rw [sendAfter_of_fault _ _ hf]; exact h.afterReaction cause

theorem sendAfter_tstat : (sendAfter b hs s).2.tstat = hs := by
  cases hf : txFault hs.cls with
  | none => rw [sendAfter_of_success _ _ hf]; rfl
  | some cause => rw [sendAfter_of_fault _ _ hf, afterReaction_tstat]; rfl

theorem sendAfter_freeIndex : (sendAfter b hs s).2.freeIndex = s.freeIndex := by
  cases hf : txFault hs.cls with
  | none => rw [sendAfter_of_success _ _ hf]; rfl
  | some cause => rw [sendAfter_of_fault _ _ hf, afterReaction_freeIndex]; rfl

end

/-- An acknowledged byte is the pointer, a byte of the map, or not the chip's, as the chip expects (R53, D29). -/
theorem chipReact_tx_ack (c : Config) (l : LineEnv) (b : Byte) :
    chipReact c l (.tx b) .txAck =
      match l.mode with
      | .wFirst => { l with rp := b, mode := .wData }
      | .wData => { l with rm := writeMem l.rm l.rp.toNat b, rp := l.rp + 1#8 }
      | .none => l
      | .read => l := rfl

theorem execSendByte_of_reply {s : State} {b : Byte} {hs : HwStatus} (hv : configValid s.cfg = true)
    (hr : reply s.cfg s.line (.tx b) = some hs) (hn : s.line.answers.tail.headD .asChip ≠ .never) :
    execSendByte b s = .next (respond [statusByte (sendAfter b hs s).1] (sendAfter b hs s).2) := by
  rw [execSendByte, whenConfigured_of_valid hv, callSend_of_reply hr hn]
  rfl

/-- Settles O9, by the class of the answer, and for an acknowledge by what the chip expects. -/
theorem sendByteOutcome : Obligations.SendByteOutcome := by
  intro s b hs hv hm hr hn
  refine ⟨_, execSendByte_of_reply hv hr hn, sendAfter_callFrame _ hs s, sendAfter_tstat _ hs s,
    sendAfter_freeIndex _ hs s, fun hc => ?ack, fun hc => ?nack, fun hc => ?other⟩
  case ack =>
    have hline := chipReact_tx_ack s.cfg (popAnswer (emit (.action (.tx b)) s.line)) b
    rw [← hc, ← answered_line] at hline
    rw [sendAfter_of_success _ _ ((txFault_eq_none_iff _).mpr hc), respond_line]
    dsimp only
    cases hmode : s.line.mode with
    | wFirst =>
      simp only [popAnswer_mode, emit_mode, hmode] at hline
      rw [hline]
      exact ⟨rfl, rfl, rfl, rfl, rfl, rfl, fun _ => ⟨fun _ => rfl, rfl⟩, nofun, fun h => absurd rfl h⟩
    | wData =>
      simp only [popAnswer_mode, emit_mode, hmode] at hline
      rw [hline]
      exact ⟨rfl, rfl, rfl, rfl, rfl, rfl, nofun, fun _ => ⟨readMem_writeMem_same hm _ _,
        fun a ha => readMem_writeMem_other _ (by simpa using ha) _, rfl⟩, fun _ h => absurd rfl h⟩
    | none | read =>
      simp only [popAnswer_mode, emit_mode, hmode] at hline
      rw [hline]
      exact ⟨rfl, rfl, rfl, rfl, hmode, rfl, nofun, nofun, fun _ _ => ⟨fun _ => rfl, rfl⟩⟩
  case nack =>
    have hkept := sendAfter_chipKept_of_fault b s (hs := hs) (by rw [hc]; decide)
    have hf : txFault hs.cls = some .nack := by rw [hc]; rfl
    rw [sendAfter_of_fault _ _ hf] at hkept ⊢
    exact ⟨rfl, rfl, rfl, hkept, ⟨rfl, rfl⟩, by simp [afterReaction]⟩
  case other =>
    have hkept := sendAfter_chipKept_of_fault b s hc.1
    rw [sendAfter_of_fault _ _ (txFault_of_other hc)] at hkept ⊢
    exact ⟨rfl, rfl, rfl, hkept, ⟨rfl, rfl⟩, by simp [afterReaction]⟩

/-! ### RECEIVE_BYTE -/

theorem nextAnswer_drawByte (s : State) : nextAnswer (drawByte s).2.line = nextAnswer s.line := rfl

theorem callReceive_of_reply {s : State} {hs : HwStatus} (hr : reply s.cfg s.line .rx = some hs)
    (hn : s.line.answers.tail.headD .asChip ≠ .never) :
    callReceive s = .done (receiveAfter hs s).1 (receiveAfter hs s).2 := by
  unfold callReceive receiveAfter
  rw [ask_of_reply hr]
  rw [← nextAnswer_answered .rx hs s, ← nextAnswer_drawByte] at hn
  cases hf : rxOutcome hs.cls with
  | ok v => simp [hf]
  | error cause => simp [takeFault_of_answer hn, hf]; rfl

theorem rxOutcome_eq_ok_iff (cls : HsClass) (v : Byte) : rxOutcome cls = .ok v ↔ cls = .rxDone v := by
  cases cls <;> simp [rxOutcome]

theorem rxOutcome_of_other {cls : HsClass} (h : (∀ v, cls ≠ .rxDone v) ∧ cls ≠ .rxNack) :
    rxOutcome cls = .error .busFault := by
  obtain ⟨h1, h2⟩ := h
  cases cls <;> simp_all [rxOutcome]

theorem rxOutcome_cause {cls : HsClass} {cause : Cause} (h : rxOutcome cls = .error cause) :
    cause = .nack ∨ cause = .busFault := by
  unfold rxOutcome at h
  split at h
  · cases h
  · exact .inl (Except.error.inj h).symm
  · exact .inr (Except.error.inj h).symm

/-- A receive that ends in a fault leaves the chip as it is (log 33). -/
theorem chipReact_rx_of_fault (c : Config) (l : LineEnv) {cls : HsClass} (h : ∀ v, cls ≠ .rxDone v) :
    chipReact c l .rx cls = l := by
  cases cls <;> first | rfl | exact absurd rfl (h _)

section
variable {hs : HwStatus} (s : State)

theorem receiveAfter_of_success {v : Byte} (h : rxOutcome hs.cls = .ok v) :
    receiveAfter hs s = ((v, .ok), { answered .rx hs s with ps := .data }) := by
  simp only [receiveAfter, h]

theorem receiveAfter_of_fault {cause : Cause} (h : rxOutcome hs.cls = .error cause) :
    receiveAfter hs s =
      ((Config.anyByte s.freeIndex, .fault cause hs), afterReaction cause (drawByte (answered .rx hs s)).2) := by
  simp only [receiveAfter, h]

theorem receiveAfter_chipKept_of_fault (h : ∀ v, hs.cls ≠ .rxDone v) : ChipKept s (receiveAfter hs s).2 := by
  cases hf : rxOutcome hs.cls with
  | ok v => exact absurd ((rxOutcome_eq_ok_iff _ v).mp hf) (h v)
  | error cause =>
    rw [receiveAfter_of_fault _ hf]
    exact (chipKept_of_eq (by simp [chipReact_rx_of_fault _ _ h]) (by simp [chipReact_rx_of_fault _ _ h])).afterReaction
      cause

variable (hs)

theorem receiveAfter_callFrame : CallFrame s (receiveAfter hs s).2 := by
  have h := answered_callFrame .rx hs s
  cases hf : rxOutcome hs.cls with
  | ok v => rw [receiveAfter_of_success _ hf]; exact h
  | error cause =>
    rw [receiveAfter_of_fault _ hf]
    exact CallFrame.afterReaction (t := (drawByte (answered .rx hs s)).2) h cause

theorem receiveAfter_tstat : (receiveAfter hs s).2.tstat = hs := by
  cases hf : rxOutcome hs.cls with
  | ok v => rw [receiveAfter_of_success _ hf]; rfl
  | error cause => rw [receiveAfter_of_fault _ hf, afterReaction_tstat]; rfl

end

/-- A byte the chip sends is the byte its map holds at the pointer, which advances (R53, log 9). -/
theorem chipReact_rx_done (c : Config) (l : LineEnv) (v : Byte) :
    chipReact c l .rx (.rxDone v) =
      match l.mode with
      | .read => { l with rm := writeMem l.rm l.rp.toNat v, rp := l.rp + 1#8, mode := .none }
      | .none => l
      | .wFirst => l
      | .wData => l := rfl

theorem execReceiveByte_of_reply {s : State} {hs : HwStatus} (hv : configValid s.cfg = true)
    (hr : reply s.cfg s.line .rx = some hs) (hn : s.line.answers.tail.headD .asChip ≠ .never) :
    execReceiveByte s =
      .next (respond [(receiveAfter hs s).1.1, statusByte (receiveAfter hs s).1.2] (receiveAfter hs s).2) := by
  rw [execReceiveByte, whenConfigured_of_valid hv, callReceive_of_reply hr hn]
  rfl

/-- Settles O10, by the class of the answer, and for a received byte by what the chip expects. -/
theorem receiveByteOutcome : Obligations.ReceiveByteOutcome := by
  intro s hs hv hm hr hn
  refine ⟨_, execReceiveByte_of_reply hv hr hn, receiveAfter_callFrame hs s, receiveAfter_tstat hs s,
    fun v hc => ?done, fun hc => ?nack, fun hc => ?other⟩
  case done =>
    have hline := chipReact_rx_done s.cfg (popAnswer (emit (.action .rx) s.line)) v
    rw [← hc, ← answered_line] at hline
    rw [receiveAfter_of_success _ ((rxOutcome_eq_ok_iff _ v).mpr hc), respond_line]
    dsimp only
    cases hmode : s.line.mode with
    | read =>
      simp only [popAnswer_mode, emit_mode, hmode] at hline
      rw [hline]
      exact ⟨rfl, rfl, rfl, rfl, rfl, rfl, rfl, fun _ => ⟨readMem_writeMem_same hm _ _,
        fun a ha => readMem_writeMem_other _ (by simpa using ha) _, rfl⟩, fun h => absurd rfl h⟩
    | none | wFirst | wData =>
      simp only [popAnswer_mode, emit_mode, hmode] at hline
      rw [hline]
      exact ⟨rfl, rfl, rfl, rfl, rfl, hmode, rfl, nofun, fun _ => ⟨fun _ => rfl, rfl⟩⟩
  case nack =>
    have hkept := receiveAfter_chipKept_of_fault s (hs := hs) (by rw [hc]; intro v; simp)
    have hf : rxOutcome hs.cls = .error .nack := by rw [hc]; rfl
    rw [receiveAfter_of_fault _ hf] at hkept ⊢
    exact ⟨rfl, rfl, rfl, rfl, hkept, ⟨rfl, rfl⟩, by simp [afterReaction]⟩
  case other =>
    have hkept := receiveAfter_chipKept_of_fault s hc.1
    rw [receiveAfter_of_fault _ (rxOutcome_of_other hc)] at hkept ⊢
    exact ⟨rfl, rfl, rfl, rfl, hkept, ⟨rfl, rfl⟩, by simp [afterReaction]⟩

/-! ### STOP -/

theorem execStop_of_answer {s : State} (hv : configValid s.cfg = true) (hn : nextAnswer s.line ≠ .never) :
    execStop s = .next (respond [] (stopDone s)) := by
  rw [execStop, whenConfigured_of_valid hv, callStop_of_answer hn]
  rfl

/-- Settles O11. -/
theorem stopOutcome : Obligations.StopOutcome := by
  intro s hv hn
  refine ⟨_, execStop_of_answer hv hn, ⟨⟨rfl, rfl, rfl, rfl, rfl, rfl, rfl⟩, rfl, rfl, rfl, rfl⟩, ⟨fun _ => rfl, rfl⟩,
    ⟨rfl, rfl⟩, rfl, rfl, rfl, rfl, rfl, rfl⟩

/-! ### Not answered -/

theorem reply_of_never {c : Config} {l : LineEnv} (h : nextAnswer l = .never) (a : BusAction) : reply c l a = none := by
  simp [reply, h]

theorem Run.finish_eq_fault {α : Type} {r : Run α} {k : α → State → State} {u : State}
    (h : r.finish k = .fault (.hang u)) : r = .hang u := by
  cases r <;> cases h
  rfl

theorem whenConfigured_eq_fault {s : State} {r : Result} {u : State} (h : whenConfigured s r = .fault (.hang u)) :
    r = .fault (.hang u) := by
  unfold whenConfigured at h
  split at h
  · exact h
  · cases h

theorem whenInited_eq_fault {s : State} {r : Result} {u : State} (h : whenInited s r = .fault (.hang u)) :
    r = .fault (.hang u) := by
  have h := whenConfigured_eq_fault h
  split at h
  · exact h
  · cases h

/-- The bus work of `set_correction` is two writes of 8 bytes (R205). -/
theorem runCorrection_uses (ppb : BitVec 32) (pa pb : PllPlan) (s : State) : Uses 24 s (runCorrection ppb pa pb s) := by
  refine Uses.bind (n := 12) (m := 12) ((doSetPll_uses .a pa _).after ⟨rfl, rfl, rfl, rfl, rfl, rfl, rfl⟩ rfl) fun _ t _ => ?_
  exact (doSetPll_uses .b pb t).bind (m := 0) fun _ u _ => Uses.done_of _ (PortsKept.refl u) rfl

/-- A procedure in two parts, the last of which writes the mirrors: it hangs in one of the parts. -/
theorem runInit_parts (pa pb : PllPlan) (s : State) :
    runInit pa pb s =
      ((runRaOps (initHeadOps s.cfg) s).bind fun _ s => (doSetPll .a pa s).bind fun _ s => (doSetPll .b pb s).bind fun _ s =>
        runRaOps (initTailOps s.cfg) s).bind fun _ s => .done () (initMirrors s) := by
  unfold runInit
  cases runRaOps (initHeadOps s.cfg) s with
  | hang => rfl
  | done _ s =>
    simp only [Run.bind_done]
    cases doSetPll .a pa s with
    | hang => rfl
    | done _ s =>
      simp only [Run.bind_done]
      cases doSetPll .b pb s <;> rfl

/-- The number of calls of INITIALIZE (R211). -/
def initCalls (c : Config) : Nat :=
  5 * (c.regDisableState.length + c.regVcxo.length + 3) + 60

theorem calls_map_write (as : List Byte) (v : Byte) :
    ((as.map fun a => RaOp.write a [v]).map RaOp.calls).sum = 5 * as.length := by
  induction as with
  | nil => rfl
  | cons a as ih =>
    simp only [List.map_cons, List.sum_cons, ih, RaOp.calls, List.length_cons, List.length_nil]
    omega

/-- The bus work of INITIALIZE, before the mirrors are written. -/
theorem initBus_uses (pa pb : PllPlan) (s : State) :
    Uses (initCalls s.cfg) s
      ((runRaOps (initHeadOps s.cfg) s).bind fun _ s => (doSetPll .a pa s).bind fun _ s => (doSetPll .b pb s).bind fun _ s =>
        runRaOps (initTailOps s.cfg) s) := by
  have hhead : ((initHeadOps s.cfg).map RaOp.calls).sum = 5 * s.cfg.regDisableState.length + 10 := by
    simp only [initHeadOps, List.map_append, List.sum_append, calls_map_write, List.map_cons, List.map_nil,
      List.sum_cons, List.sum_nil, RaOp.calls, List.length_cons, List.length_nil]
    omega
  have htail : ((initTailOps s.cfg).map RaOp.calls).sum = 5 * s.cfg.regVcxo.length + 41 := by
    simp only [initTailOps, initChannelOp, List.map_append, List.sum_append, calls_map_write, List.map_cons, List.map_nil,
      List.sum_cons, List.sum_nil, RaOp.calls, List.length_cons, List.length_nil]
    omega
  refine Uses.mono ((runRaOps_uses (initHeadOps s.cfg) s).bind fun _ t ht => (doSetPll_uses .a pa t).bind fun _ u hu =>
    (doSetPll_uses .b pb u).bind fun _ v hw => ?_) (show _ ≤ _ + (12 + (12 + (5 * s.cfg.regVcxo.length + 41))) by
      rw [hhead, initCalls]; omega)
  have hcfg : v.cfg = s.cfg :=
    (((doSetPll_uses .b pb u).done _ _ hw).1.cfg.trans ((doSetPll_uses .a pa t).done _ _ hu).1.cfg).trans
      ((runRaOps_uses _ s).done _ _ ht).1.cfg
  have h := runRaOps_uses (initTailOps v.cfg) v
  rw [hcfg, htail] at h
  rwa [hcfg]

theorem Run.bind_done_eq_hang {α β : Type} {r : Run α} {f : α → State → β} {g : α → State → State} {u : State}
    (h : (r.bind fun a s => .done (f a s) (g a s)) = .hang u) : r = .hang u := by
  cases r <;> cases h
  rfl

/-- A state that an operation is stuck in has an action pending (R238). -/
theorem wait_ne_none_of_hang {i : Instr} {s u : State} (h : exec i s = .fault (.hang u)) : u.wait ≠ .none := by
  cases i with
  | start => exact ((callStart_uses s).hang u (Run.finish_eq_fault (whenConfigured_eq_fault h))).1
  | sendAddress a r => exact ((callAddress_uses a r s).hang u (Run.finish_eq_fault (whenConfigured_eq_fault h))).1
  | sendByte b => exact ((callSend_uses b s).hang u (Run.finish_eq_fault (whenConfigured_eq_fault h))).1
  | receiveByte => exact ((callReceive_uses s).hang u (Run.finish_eq_fault (whenConfigured_eq_fault h))).1
  | stop => exact ((callStop_uses s).hang u (Run.finish_eq_fault (whenConfigured_eq_fault h))).1
  | readReg a => exact ((readReg_uses a s).hang u (Run.finish_eq_fault (whenConfigured_eq_fault h))).1
  | writeReg a v => exact ((writeRegs_uses a [v] s).hang u (Run.finish_eq_fault (whenConfigured_eq_fault h))).1
  | writeBulk a vs =>
    have h := whenConfigured_eq_fault h
    split at h
    · cases h
    · exact ((writeRegs_uses a vs s).hang u (Run.finish_eq_fault h)).1
  | updateReg a m v => exact ((updateReg_uses a m v s).hang u (Run.finish_eq_fault (whenConfigured_eq_fault h))).1
  | planPll | planMultisynth | encodeFields =>
    have h := whenConfigured_eq_fault h
    split at h <;> cases h
  | selectRDivider => cases whenConfigured_eq_fault h
  | initializeAll =>
    have h := whenConfigured_eq_fault h
    split at h
    · next pa pb _ _ =>
      have h := Run.finish_eq_fault h
      rw [runInit_parts] at h
      exact ((initBus_uses pa pb s).hang u (Run.bind_done_eq_hang h)).1
    · cases h
    · cases h
  | setFrequency i f =>
    have h := whenInited_eq_fault h
    dsimp only at h
    split at h
    · cases h
    · exact ((runRaOps_uses _ s).hang u (Run.finish_eq_fault h)).1
  | setPll f x =>
    have h := whenInited_eq_fault h
    split at h
    · cases h
    · exact ((doSetPll_uses x _ s).hang u (Run.finish_eq_fault h)).1
  | setCorrection ppb r =>
    have h := whenInited_eq_fault h
    split at h
    · exact ((runCorrection_uses ppb _ _ s).hang u (Run.finish_eq_fault h)).1
    · cases h
    · cases h
  | outputEnable | driveStrength | setClockPower | powerDown | setPllAssignment =>
    exact ((runRaOps_uses _ s).hang u (Run.finish_eq_fault (whenInited_eq_fault h))).1

theorem ask_of_never {s : State} (h : nextAnswer s.line = .never) (a : BusAction) : ask a s = .hang (issued a s) :=
  ask_of_no_reply (reply_of_never h a)

/-- Settles O12: the question hangs, and a state with an action pending takes no step. -/
theorem unansweredActionHangs : Obligations.UnansweredActionHangs := by
  intro s hv hn
  refine ⟨?_, fun addr7 read => ?_, fun b => ?_, ?_, ?_, fun i u h => step_of_waiting (wait_ne_none_of_hang h)⟩
  · rw [exec_start, execStart, whenConfigured_of_valid hv, callStart, ask_of_never hn]
    rfl
  · rw [exec_sendAddress, execSendAddress, whenConfigured_of_valid hv, callAddress, ask_of_never hn]
    rfl
  · rw [exec_sendByte, execSendByte, whenConfigured_of_valid hv, callSend, ask_of_never hn]
    rfl
  · rw [exec_receiveByte, execReceiveByte, whenConfigured_of_valid hv, callReceive, ask_of_never hn]
    rfl
  · rw [exec_stop, execStop, whenConfigured_of_valid hv, callStop_of_never hn]
    rfl

/-- The stop of a NACK that is never confirmed (R155 to R158). -/
theorem takeFault_nack_of_never {s : State} (h : nextAnswer s.line = .never) (hs : HwStatus) :
    takeFault .nack hs s = .hang (stopping s) := by
  rw [takeFault, callStop_of_never h, Run.bind_hang]

/-- The state that an operation is stuck in when its action has been answered and its stop is not. -/
theorem stuck_after_nack (a : BusAction) (hs : HwStatus) (s : State) :
    (stopping (answered a hs s)).line.events = s.line.events ++ [.action a, .stop] := by
  simp

/-- Settles O13. -/
theorem unansweredStopAfterNackHangs : Obligations.UnansweredStopAfterNackHangs := by
  intro s hs hv hn
  refine ⟨fun addr7 read hr hc => ?address, fun b hr hc => ?send, fun hr hc => ?receive⟩
  case address =>
    rw [← nextAnswer_answered (.address (addressByte s.cfg addr7 read)) hs s] at hn
    refine ⟨stopping (answered (.address (addressByte s.cfg addr7 read)) hs s), ?_, rfl, rfl, rfl, rfl,
      stuck_after_nack _ hs s⟩
    rw [exec_sendAddress, execSendAddress, whenConfigured_of_valid hv, callAddress, ask_of_reply hr, Run.bind_done,
      addressFault_of_nack hc]
    simp only [takeFault_nack_of_never hn, Run.finish_hang]
  case send =>
    rw [← nextAnswer_answered (.tx b) hs s] at hn
    refine ⟨stopping (answered (.tx b) hs s), ?_, rfl, rfl, rfl, rfl, stuck_after_nack _ hs s⟩
    rw [exec_sendByte, execSendByte, whenConfigured_of_valid hv, callSend, ask_of_reply hr, Run.bind_done,
      show txFault hs.cls = some .nack by rw [hc]; rfl]
    simp only [takeFault_nack_of_never hn, Run.finish_hang]
  case receive =>
    rw [← nextAnswer_answered .rx hs s, ← nextAnswer_drawByte] at hn
    refine ⟨stopping (drawByte (answered .rx hs s)).2, ?_, rfl, rfl, rfl, rfl, stuck_after_nack .rx hs s⟩
    rw [exec_receiveByte, execReceiveByte, whenConfigured_of_valid hv, callReceive, ask_of_reply hr, Run.bind_done,
      show rxOutcome hs.cls = .error .nack by rw [hc]; rfl]
    simp only [takeFault_nack_of_never hn, Run.bind_hang, Run.finish_hang]

/-! ### What every call guarantees (R162) -/

theorem afterReaction_idle {cause : Cause} (h : cause = .nack ∨ cause = .busFault) (s : State) :
    (afterReaction cause s).wait = .none ∧ (afterReaction cause s).ps = .idle := by
  obtain rfl | rfl := h <;> exact ⟨rfl, rfl⟩

/-- The three calls inside a transaction guarantee the same: the state of their success, or IDLE after a fault. -/
def CallGuarantee (success : ProtState) (st : Status) (t : State) : Prop :=
  t.wait = .none ∧ (st = .ok → t.ps = success) ∧
    ∀ cause hs, st = .fault cause hs → (cause = .nack ∨ cause = .busFault) ∧ t.ps = .idle

theorem callGuarantee_ok {success : ProtState} {t : State} (hw : t.wait = .none) (hp : t.ps = success) :
    CallGuarantee success .ok t := ⟨hw, fun _ => hp, fun _ _ h => by cases h⟩

theorem callGuarantee_fault {success : ProtState} {cause : Cause} (h : cause = .nack ∨ cause = .busFault) (hs : HwStatus)
    (s : State) : CallGuarantee success (.fault cause hs) (afterReaction cause s) :=
  ⟨(afterReaction_idle h s).1, fun he => (by cases he), fun _ _ he => by cases he; exact ⟨h, (afterReaction_idle h s).2⟩⟩

theorem addressAfter_guarantee (addr7 : BitVec 7) (read : Bool) (hs : HwStatus) (s : State) :
    CallGuarantee .addressed (addressAfter addr7 read hs s).1 (addressAfter addr7 read hs s).2 := by
  cases hf : addressFault read hs.cls with
  | none => rw [addressAfter_of_success _ _ _ hf]; exact callGuarantee_ok rfl rfl
  | some cause => rw [addressAfter_of_fault _ _ _ hf]; exact callGuarantee_fault (addressFault_cause hf) hs _

theorem sendAfter_guarantee (b : Byte) (hs : HwStatus) (s : State) :
    CallGuarantee .data (sendAfter b hs s).1 (sendAfter b hs s).2 := by
  cases hf : txFault hs.cls with
  | none => rw [sendAfter_of_success _ _ hf]; exact callGuarantee_ok rfl rfl
  | some cause => rw [sendAfter_of_fault _ _ hf]; exact callGuarantee_fault (txFault_cause hf) hs _

theorem receiveAfter_guarantee (hs : HwStatus) (s : State) :
    CallGuarantee .data (receiveAfter hs s).1.2 (receiveAfter hs s).2 := by
  cases hf : rxOutcome hs.cls with
  | ok v => rw [receiveAfter_of_success _ hf]; exact callGuarantee_ok rfl rfl
  | error cause => rw [receiveAfter_of_fault _ hf]; exact callGuarantee_fault (rxOutcome_cause hf) hs _

theorem startFault_cause {cls : HsClass} {cause : Cause} (h : startFault cls = some cause) :
    cause = .arbitrationLoss ∨ cause = .protocolViolation := by
  unfold startFault at h
  split at h
  · cases h
  · cases h
  · exact .inl (Option.some.inj h).symm
  · exact .inr (Option.some.inj h).symm

/-- Settles O14, call by call. -/
theorem transportGuarantees : Obligations.TransportGuarantees := by
  refine ⟨?start, ?address, ?send, ?receive, ?stop, fun s => ⟨rfl, rfl⟩, ?again⟩
  case start =>
    intro s st t h
    obtain ⟨hs, -, he⟩ := callStart_eq_done h
    cases hf : startFault hs.cls with
    | none =>
      rw [startAfter_of_success hf, Prod.mk.injEq] at he
      obtain ⟨rfl, rfl⟩ := he
      exact ⟨rfl, fun _ => rfl, fun _ _ h => by cases h⟩
    | some cause =>
      rw [startAfter_of_fault hf, Prod.mk.injEq] at he
      obtain ⟨rfl, rfl⟩ := he
      obtain rfl | rfl := startFault_cause hf
      · exact ⟨rfl, nofun, fun _ _ h => by cases h; exact .inl ⟨rfl, rfl⟩⟩
      · exact ⟨rfl, nofun, fun _ _ h => by cases h; exact .inr ⟨rfl, rfl⟩⟩
  case address =>
    intro addr7 read s st t h
    obtain ⟨hs, -, he⟩ := callAddress_eq_done h
    have hg := addressAfter_guarantee addr7 read hs s
    rw [← he] at hg
    exact hg
  case send =>
    intro b s st t h
    obtain ⟨hs, -, he⟩ := callSend_eq_done h
    have hg := sendAfter_guarantee b hs s
    rw [← he] at hg
    exact hg
  case receive =>
    intro s v st t h
    obtain ⟨hs, -, he⟩ := callReceive_eq_done h
    have hg := receiveAfter_guarantee hs s
    rw [← he] at hg
    exact hg
  case stop =>
    intro s t h
    obtain ⟨-, rfl⟩ := callStop_eq_done h
    exact ⟨rfl, rfl⟩
  case again =>
    intro s hs _ hc hr
    have h := callStart_of_reply hr
    rw [startAfter_of_success ((startFault_eq_none_iff _).mpr hc)] at h
    exact ⟨_, h, rfl⟩

/-! ### The status (R89) -/

theorem rawCode_byte_toNat (x : RawCode) : x.byte.toNat = x.idx.val + 1 := by
  have h := x.idx.isLt
  rw [RawCode.byte, BitVec.toNat_ofNat]
  omega

/-- R89: no code is 0. -/
theorem rawCode_byte_ne_zero (x : RawCode) : x.byte ≠ 0x00#8 := by
  intro h
  have := rawCode_byte_toNat x
  rw [h] at this
  simp at this

theorem rawCode_byte_injective {x y : RawCode} (h : x.byte = y.byte) : x = y := by
  have hx := rawCode_byte_toNat x
  rw [h, rawCode_byte_toNat y] at hx
  obtain ⟨i⟩ := x
  obtain ⟨j⟩ := y
  simp only [RawCode.mk.injEq]
  exact Fin.ext (by simp only at hx; omega)

theorem statusByte_eq_zero_iff (st : Status) : statusByte st = 0x00#8 ↔ st = .ok := by
  cases st with
  | ok => simp [statusByte]
  | fault cause hs => simp [statusByte, rawCode_byte_ne_zero]

/-- A status that the environment prescribes is answered with its raw code and, when a byte was received, with its byte. -/
theorem reply_of_status {c : Config} {l : LineEnv} {code : RawCode} {data : Byte}
    (h : nextAnswer l = .status code data) (a : BusAction) : reply c l a = some (hwStatus c code data) := by
  simp [reply, h]

theorem hwStatus_data {c : Config} {code : RawCode} {data v : Byte} (h : (hwStatus c code data).cls = .rxDone v) :
    v = data := by
  simp only [hwStatus] at h
  unfold hsClassOf at h
  split at h <;> cases h
  rfl

/-- Settles O17: the code determines the class in the table, and a call's status is its answer. -/
theorem statusIsClassAndRawCode : Obligations.StatusIsClassAndRawCode := by
  refine ⟨statusByte_eq_zero_iff, ?paired, ?prescribed, ?start, ?address, ?send, ?receive⟩
  case paired =>
    intro c l a hs hr
    refine ⟨reply_paired hr, fun m b hs' hr' he => ?_⟩
    rw [← reply_paired hr, ← reply_paired hr', rawCode_byte_injective he]
  case prescribed =>
    intro c l a code data h
    exact ⟨_, reply_of_status h a, rfl, fun v hv => hwStatus_data hv⟩
  case start =>
    intro s cause hs t h
    obtain ⟨hs', hr, he⟩ := callStart_eq_done h
    have ht := startAfter_tstat hs' s
    rw [← he] at ht
    cases hf : startFault hs'.cls with
    | none => rw [startAfter_of_success hf] at he; cases he
    | some _ => rw [startAfter_of_fault hf] at he; cases he; exact ⟨hr, ht⟩
  case address =>
    intro addr7 read s cause hs t h
    obtain ⟨hs', hr, he⟩ := callAddress_eq_done h
    have ht := addressAfter_tstat addr7 read hs' s
    rw [← he] at ht
    cases hf : addressFault read hs'.cls with
    | none => rw [addressAfter_of_success _ _ _ hf] at he; cases he
    | some _ => rw [addressAfter_of_fault _ _ _ hf] at he; cases he; exact ⟨hr, ht⟩
  case send =>
    intro b s cause hs t h
    obtain ⟨hs', hr, he⟩ := callSend_eq_done h
    have ht := sendAfter_tstat b hs' s
    rw [← he] at ht
    cases hf : txFault hs'.cls with
    | none => rw [sendAfter_of_success _ _ hf] at he; cases he
    | some _ => rw [sendAfter_of_fault _ _ hf] at he; cases he; exact ⟨hr, ht⟩
  case receive =>
    intro s v cause hs t h
    obtain ⟨hs', hr, he⟩ := callReceive_eq_done h
    have ht := receiveAfter_tstat hs' s
    rw [← he] at ht
    cases hf : rxOutcome hs'.cls with
    | ok _ => rw [receiveAfter_of_success _ hf] at he; cases he
    | error _ => rw [receiveAfter_of_fault _ hf] at he; cases he; exact ⟨hr, ht⟩

end Sys2Proof.Machine
end

section
/-! Proofs about the Register Access Layer (`spec/43_register_access.md`): what its operations return, what they put on the
lines, and what their fault bit is, in every environment. -/

namespace Sys2Proof.Machine

/-! ### The operations, by their procedures -/

theorem whenConfigured_eq_next_iff {s : State} {r : Result} {t : State} :
    whenConfigured s r = .next t ↔ configValid s.cfg = true ∧ r = .next t :=
  ⟨whenConfigured_eq_next, fun ⟨hv, h⟩ => (whenConfigured_of_valid hv r).trans h⟩

theorem execReadReg_eq_next_iff {addr : Byte} {s t : State} :
    execReadReg addr s = .next t ↔
      configValid s.cfg = true ∧ ∃ v u, readReg addr s = .done v u ∧ t = respond [v, boolByte u.raFault] u := by
  rw [execReadReg, whenConfigured_eq_next_iff, Run.finish_eq_next_iff]

theorem execWriteReg_eq_next_iff {addr value : Byte} {s t : State} :
    execWriteReg addr value s = .next t ↔
      configValid s.cfg = true ∧ ∃ u, writeRegs addr [value] s = .done () u ∧ t = respond [boolByte u.raFault] u := by
  rw [execWriteReg, whenConfigured_eq_next_iff, Run.finish_eq_next_iff]
  exact and_congr_right fun _ => ⟨fun ⟨_, u, h⟩ => ⟨u, h⟩, fun ⟨u, h⟩ => ⟨(), u, h⟩⟩

theorem execWriteBulk_of_values {addr : Byte} {values : List Byte} (h : values ≠ []) (s : State) :
    execWriteBulk addr values s =
      whenConfigured s ((writeRegs addr values s).finish fun _ t => respond [boolByte t.raFault] t) := by
  rw [execWriteBulk, if_neg h]

theorem execWriteBulk_eq_next_iff {addr : Byte} {values : List Byte} {s t : State} :
    execWriteBulk addr values s = .next t ↔
      configValid s.cfg = true ∧ values ≠ [] ∧
        ∃ u, writeRegs addr values s = .done () u ∧ t = respond [boolByte u.raFault] u := by
  by_cases hne : values = []
  · simp [execWriteBulk, hne, whenConfigured_eq_next_iff]
  · rw [execWriteBulk_of_values hne, whenConfigured_eq_next_iff, Run.finish_eq_next_iff]
    refine and_congr_right fun _ => ?_
    exact ⟨fun ⟨_, u, h⟩ => ⟨hne, u, h⟩, fun ⟨_, u, h⟩ => ⟨(), u, h⟩⟩

/-- WRITE_REG is WRITE_BULK of one value (R183, R184). -/
theorem execWriteReg_eq_execWriteBulk (addr value : Byte) (s : State) :
    execWriteReg addr value s = execWriteBulk addr [value] s := by
  rw [execWriteBulk_of_values (List.cons_ne_nil _ _), execWriteReg]

/-- The parts of a read that ends (R181). -/
theorem readReg_eq_done {addr v : Byte} {s t : State} (h : readReg addr s = .done v t) :
    ∃ u r w x, runCalls (readCalls addr) (raBegin s) = .done () u ∧ callReceive u = .done r w ∧
      runCalls [.stop] (latch r.2 w) = .done () x ∧ v = (readValue r x).1 ∧ t = raEnd (readValue r x).2 := by
  obtain ⟨_, u, hu, h⟩ := Run.bind_eq_done h
  obtain ⟨r, w, hw, h⟩ := Run.bind_eq_done h
  obtain ⟨_, x, hx, h⟩ := Run.bind_eq_done h
  cases h
  exact ⟨u, r, w, x, hu, hw, hx, rfl, rfl⟩

/-- The parts of a write that ends (R183, R184). -/
theorem writeRegs_eq_done {addr : Byte} {values : List Byte} {s t : State} (h : writeRegs addr values s = .done () t) :
    ∃ u, runCalls (writeCalls addr values) (raBegin s) = .done () u ∧ t = raEnd u := by
  obtain ⟨_, u, hu, h⟩ := Run.bind_eq_done h
  cases h
  exact ⟨u, hu, rfl⟩

/-- A masked update ends exactly when its read and then its write do (R186). -/
theorem updateReg_eq_done_iff {addr mask value : Byte} {s t : State} :
    updateReg addr mask value s = .done () t ↔
      ∃ old u w, readReg addr s = .done old u ∧ writeRegs addr [mergeMasked old mask value] u = .done () w ∧
        t = { w with raFault := u.raFault || w.raFault } := by
  constructor
  · intro h
    obtain ⟨old, u, hu, h⟩ := Run.bind_eq_done h
    obtain ⟨_, w, hw, h⟩ := Run.bind_eq_done h
    cases h
    exact ⟨old, u, w, hu, hw, rfl⟩
  · rintro ⟨old, u, w, hu, hw, rfl⟩
    rw [updateReg, hu]
    simp only [Run.bind_done]
    rw [hw]
    rfl

/-! ### R187 (a): every operation returns -/

theorem layerFrame_of_frame {s t : State} (h : BusOnly s t ∧ TransportIdle t ∧ LinesClosed t) : LayerFrame s t :=
  ⟨h.1.mirrorsKept, h.1.command, h.2.1, h.2.2⟩

theorem LayerFrame.respond {s t : State} (h : LayerFrame s t) (bs : List Byte) : LayerFrame s (respond bs t) := h

/-- Settles O18: the procedures end when the environment answers, and leave all but the bus alone. -/
theorem registerOperationsReturn : Obligations.RegisterOperationsReturn := by
  intro s hv hresp
  refine ⟨fun addr => ?read, fun addr value => ?write, fun addr values hne => ?bulk, fun addr mask value => ?update,
    fun addr => ?empty⟩
  case read =>
    obtain ⟨v, u, hu⟩ := readReg_of_responsive hresp addr
    exact ⟨v, _, execReadReg_eq_next_iff.mpr ⟨hv, v, u, hu, rfl⟩, rfl, (layerFrame_of_frame (readReg_frame hu)).respond _⟩
  case write =>
    obtain ⟨u, hu⟩ := writeRegs_of_responsive hresp addr [value]
    exact ⟨_, execWriteReg_eq_next_iff.mpr ⟨hv, u, hu, rfl⟩, rfl, (layerFrame_of_frame (writeRegs_frame hu)).respond _⟩
  case bulk =>
    obtain ⟨u, hu⟩ := writeRegs_of_responsive hresp addr values
    exact ⟨_, execWriteBulk_eq_next_iff.mpr ⟨hv, hne, u, hu, rfl⟩, rfl, (layerFrame_of_frame (writeRegs_frame hu)).respond _⟩
  case update =>
    obtain ⟨u, hu⟩ := updateReg_of_responsive hresp addr mask value
    exact ⟨_, (execUpdateReg_eq_next_iff hv).mpr ⟨u, hu, rfl⟩, rfl, (layerFrame_of_frame (updateReg_frame hu)).respond _⟩
  case empty =>
    rw [exec_writeBulk, execWriteBulk, whenConfigured_of_valid hv, if_pos rfl]

/-! ### What a procedure puts on the lines -/

theorem busActions_append (es fs : List LineEvent) : busActions (es ++ fs) = busActions es ++ busActions fs :=
  List.filterMap_append

/-- From `s` to `t` the block has put something on the lines, with these bus actions in it. -/
def Issues (as : List BusAction) (s t : State) : Prop :=
  ∃ es, t.line.events = s.line.events ++ es ∧ busActions es = as

theorem Issues.nothing {s t : State} (h : t.line.events = s.line.events) : Issues [] s t :=
  ⟨[], by simpa using h, rfl⟩

theorem Issues.trans {as bs : List BusAction} {s t u : State} (h : Issues as s t) (k : Issues bs t u) :
    Issues (as ++ bs) s u := by
  obtain ⟨es, ht, he⟩ := h
  obtain ⟨fs, hu, hf⟩ := k
  exact ⟨es ++ fs, by rw [hu, ht, List.append_assoc], by rw [busActions_append, he, hf]⟩

theorem Issues.busActions_eq {as : List BusAction} {s t : State} (h : Issues as s t) :
    busActions t.line.events = busActions s.line.events ++ as := by
  obtain ⟨es, ht, he⟩ := h
  rw [ht, busActions_append, he]

theorem Issues.events_isPrefix {as : List BusAction} {s t : State} (h : Issues as s t) : s.line.events <+: t.line.events := by
  obtain ⟨es, ht, -⟩ := h
  exact ⟨es, ht.symm⟩

theorem answered_issues (a : BusAction) (hs : HwStatus) (s : State) : Issues [a] s (answered a hs s) :=
  ⟨[.action a], by simp, rfl⟩

/-- The reaction to a fault puts no bus action on the lines. -/
theorem afterReaction_issues (cause : Cause) (s : State) : Issues [] s (afterReaction cause s) := by
  cases cause with
  | nack => exact ⟨[.stop], rfl, rfl⟩
  | arbitrationLoss | busFault => exact ⟨[.release], rfl, rfl⟩
  | protocolViolation => exact Issues.nothing rfl

theorem startAfter_issues (hs : HwStatus) (s : State) : Issues [.start] s (startAfter hs s).2 := by
  have h := answered_issues .start hs s
  cases hf : startFault hs.cls with
  | none => rw [startAfter_of_success hf]; exact h
  | some cause => rw [startAfter_of_fault hf]; exact h.trans (afterReaction_issues cause _)

theorem addressAfter_issues (addr7 : BitVec 7) (read : Bool) (hs : HwStatus) (s : State) :
    Issues [.address (addressByte s.cfg addr7 read)] s (addressAfter addr7 read hs s).2 := by
  have h := answered_issues (.address (addressByte s.cfg addr7 read)) hs s
  cases hf : addressFault read hs.cls with
  | none => rw [addressAfter_of_success _ _ _ hf]; exact h
  | some cause => rw [addressAfter_of_fault _ _ _ hf]; exact h.trans (afterReaction_issues cause _)

theorem sendAfter_issues (b : Byte) (hs : HwStatus) (s : State) : Issues [.tx b] s (sendAfter b hs s).2 := by
  have h := answered_issues (.tx b) hs s
  cases hf : txFault hs.cls with
  | none => rw [sendAfter_of_success _ _ hf]; exact h
  | some cause => rw [sendAfter_of_fault _ _ hf]; exact h.trans (afterReaction_issues cause _)

theorem receiveAfter_issues (hs : HwStatus) (s : State) : Issues [.rx] s (receiveAfter hs s).2 := by
  have h := answered_issues .rx hs s
  cases hf : rxOutcome hs.cls with
  | ok v => rw [receiveAfter_of_success _ hf]; exact h
  | error cause =>
    have hd : Issues [.rx] s (drawByte (answered .rx hs s)).2 := h
    rw [receiveAfter_of_fault _ hf]
    exact hd.trans (afterReaction_issues cause _)

/-- The bus actions of one call of the layer's lists (R77, R79). -/
def callActions (c : Config) : TransportCall → List BusAction
  | .start => [.start]
  | .address read => [.address (addressByte c c.chipAddr read)]
  | .byte b => [.tx b]
  | .stop => []

theorem runCall_issues {c : TransportCall} {s : State} {st : Status} {t : State} (h : runCall c s = .done st t) :
    Issues (callActions s.cfg c) s t := by
  cases c with
  | start =>
    obtain ⟨hs, -, he⟩ := callStart_eq_done h
    rw [show t = (startAfter hs s).2 from congrArg Prod.snd he]
    exact startAfter_issues hs s
  | address read =>
    obtain ⟨hs, -, he⟩ := callAddress_eq_done h
    rw [show t = (addressAfter s.cfg.chipAddr read hs s).2 from congrArg Prod.snd he]
    exact addressAfter_issues _ _ hs s
  | byte b =>
    obtain ⟨hs, -, he⟩ := callSend_eq_done h
    rw [show t = (sendAfter b hs s).2 from congrArg Prod.snd he]
    exact sendAfter_issues b hs s
  | stop =>
    obtain ⟨_, u, hu, h⟩ := Run.bind_eq_done h
    obtain ⟨-, rfl⟩ := callStop_eq_done hu
    cases h
    exact ⟨[.stop], rfl, rfl⟩

/-- R180 (b): the actions of a list of calls, none skipped, repeated or left out. -/
theorem runCalls_issues {cs : List TransportCall} {s t : State} (h : runCalls cs s = .done () t) :
    Issues (cs.flatMap (callActions s.cfg)) s t := by
  induction cs generalizing s with
  | nil => cases h; exact Issues.nothing rfl
  | cons c cs ih =>
    obtain ⟨st, u, hu, h⟩ := Run.bind_eq_done h
    have hcfg : (latch st u).cfg = s.cfg := (runCall_busOnly hu).cfg
    have hl : Issues (callActions s.cfg c) s u := runCall_issues hu
    have hrest : Issues (cs.flatMap (callActions (latch st u).cfg)) u t := ih (s := latch st u) h
    rw [hcfg] at hrest
    exact hl.trans hrest

/-- What a list of calls that ends with `stop` put on the lines last. -/
theorem runCalls_stop_getLast {cs : List TransportCall} {s t : State} (h : runCalls (cs ++ [.stop]) s = .done () t) :
    t.line.events.getLast? = some .stop := by
  rw [runCalls_append] at h
  obtain ⟨_, u, -, h⟩ := Run.bind_eq_done h
  obtain ⟨st, v, hv, h⟩ := Run.bind_eq_done h
  obtain ⟨_, w, hw, hv⟩ := Run.bind_eq_done hv
  obtain ⟨-, rfl⟩ := callStop_eq_done hw
  cases hv
  cases h
  simp

theorem flatMap_callActions_bytes (c : Config) (values : List Byte) :
    (values.map TransportCall.byte).flatMap (callActions c) = values.map .tx := by
  induction values with
  | nil => rfl
  | cons v vs ih => simp only [List.map_cons, List.flatMap_cons, ih, callActions, List.singleton_append]

theorem busActions_bytes (values : List Byte) :
    busActions (values.map fun v => .action (.tx v)) = values.map .tx := by
  induction values with
  | nil => rfl
  | cons v vs ih =>
    simp only [busActions, List.map_cons, List.filterMap_cons] at ih ⊢
    rw [ih]

/-- The calls of a write are those of its frame (R79, R184). -/
theorem flatMap_callActions_writeCalls (c : Config) (addr : Byte) (values : List Byte) :
    (writeCalls addr values).flatMap (callActions c) = busActions (writeFrame c addr values) := by
  rw [writeCalls, writeFrame, List.flatMap_append, List.flatMap_append, flatMap_callActions_bytes, busActions_append,
    busActions_append, busActions_bytes]
  rfl

theorem writeRegs_issues {addr : Byte} {values : List Byte} {s t : State} (h : writeRegs addr values s = .done () t) :
    Issues (busActions (writeFrame s.cfg addr values)) s t ∧ t.line.events.getLast? = some .stop := by
  obtain ⟨u, hu, rfl⟩ := writeRegs_eq_done h
  have hi := runCalls_issues hu
  rw [raBegin_cfg, flatMap_callActions_writeCalls] at hi
  have hlast : u.line.events.getLast? = some .stop := runCalls_stop_getLast hu
  exact ⟨hi, hlast⟩

theorem readValue_line (r : Byte × Status) (s : State) : (readValue r s).2.line = s.line := by
  obtain h | h := readValue_snd r s <;> rw [h]
  rfl

theorem callReceive_issues {s : State} {r : Byte × Status} {t : State} (h : callReceive s = .done r t) :
    Issues [.rx] s t := by
  obtain ⟨hs, -, he⟩ := callReceive_eq_done h
  rw [show t = (receiveAfter hs s).2 from congrArg Prod.snd he]
  exact receiveAfter_issues hs s

theorem readReg_issues {addr v : Byte} {s t : State} (h : readReg addr s = .done v t) :
    Issues (busActions (readFrame s.cfg addr)) s t ∧ t.line.events.getLast? = some .stop := by
  obtain ⟨u, r, w, x, hu, hw, hx, rfl, rfl⟩ := readReg_eq_done h
  have hcalls : Issues ((readCalls addr).flatMap (callActions s.cfg)) s u :=
    runCalls_issues (s := raBegin s) hu
  have hstop : Issues [] w x := runCalls_issues hx
  have hx' : Issues [] x (raEnd (readValue r x).2) := Issues.nothing (congrArg LineEnv.events (readValue_line r x))
  refine ⟨hcalls.trans ((callReceive_issues hw).trans (hstop.trans hx')), ?_⟩
  rw [raEnd_line, readValue_line]
  exact runCalls_stop_getLast (cs := []) hx

/-- Settles O19: each list puts exactly its own actions on the lines, and ends with `stop`. -/
theorem everyCallIssuedWhateverTheStatus : Obligations.EveryCallIssuedWhateverTheStatus := by
  intro s t
  refine ⟨fun addr h => ?read, fun addr value h => ?write, fun addr values h => ?bulk, fun addr mask value h => ?update⟩
  case read =>
    obtain ⟨-, v, u, hu, rfl⟩ := execReadReg_eq_next_iff.mp h
    exact ⟨(readReg_issues hu).1.busActions_eq, (readReg_issues hu).2⟩
  case write =>
    obtain ⟨-, u, hu, rfl⟩ := execWriteReg_eq_next_iff.mp h
    exact ⟨(writeRegs_issues hu).1.busActions_eq, (writeRegs_issues hu).2⟩
  case bulk =>
    obtain ⟨-, -, u, hu, rfl⟩ := execWriteBulk_eq_next_iff.mp h
    exact ⟨(writeRegs_issues hu).1.busActions_eq, (writeRegs_issues hu).2⟩
  case update =>
    obtain ⟨hv, -⟩ := whenConfigured_eq_next h
    obtain ⟨w, hw, rfl⟩ := (execUpdateReg_eq_next_iff hv).mp h
    obtain ⟨old, u, x, hu, hx, rfl⟩ := updateReg_eq_done_iff.mp hw
    obtain ⟨hread, -⟩ := readReg_issues hu
    obtain ⟨hwrite, hlast⟩ := writeRegs_issues hx
    have hcfg : u.cfg = s.cfg := (readReg_frame hu).1.cfg
    rw [hcfg] at hwrite
    refine ⟨old, _, execReadReg_eq_next_iff.mpr ⟨hv, old, u, hu, rfl⟩, rfl, ?_, hwrite.events_isPrefix, hlast⟩
    rw [List.append_assoc]
    exact (hread.trans hwrite).busActions_eq

/-! ### The fault bit and `seq` (R180, R187) -/

/-- A call leaves the layer's own bits alone. -/
theorem runCall_raFault_seq {c : TransportCall} {s : State} {st : Status} {t : State} (h : runCall c s = .done st t) :
    t.raFault = s.raFault ∧ t.seq = s.seq := by
  cases c with
  | start =>
    obtain ⟨hs, -, he⟩ := callStart_eq_done h
    obtain ⟨-, hseq, hra, -⟩ := startAfter_callFrame hs s
    rw [← he] at hseq hra
    exact ⟨hra, hseq⟩
  | address read =>
    obtain ⟨hs, -, he⟩ := callAddress_eq_done h
    obtain ⟨-, hseq, hra, -⟩ := addressAfter_callFrame s.cfg.chipAddr read hs s
    rw [← he] at hseq hra
    exact ⟨hra, hseq⟩
  | byte b =>
    obtain ⟨hs, -, he⟩ := callSend_eq_done h
    obtain ⟨-, hseq, hra, -⟩ := sendAfter_callFrame b hs s
    rw [← he] at hseq hra
    exact ⟨hra, hseq⟩
  | stop =>
    obtain ⟨_, u, hu, h⟩ := Run.bind_eq_done h
    obtain ⟨-, rfl⟩ := callStop_eq_done hu
    cases h
    exact ⟨rfl, rfl⟩

theorem callReceive_raFault_seq {s : State} {r : Byte × Status} {t : State} (h : callReceive s = .done r t) :
    t.raFault = s.raFault ∧ t.seq = s.seq := by
  obtain ⟨hs, -, he⟩ := callReceive_eq_done h
  obtain ⟨-, hseq, hra, -⟩ := receiveAfter_callFrame hs s
  rw [← he] at hseq hra
  exact ⟨hra, hseq⟩

theorem callStatuses_cons {c : TransportCall} {cs : List TransportCall} {s : State} {st : Status} {t : State}
    (h : runCall c s = .done st t) : callStatuses (c :: cs) s = st :: callStatuses cs (latch st t) := by
  simp only [callStatuses, h]

/-- R180 (c): a list of calls latches the OR of its faults and advances `seq` once per call. -/
theorem runCalls_latches {cs : List TransportCall} {s t : State} (h : runCalls cs s = .done () t) :
    (callStatuses cs s).length = cs.length ∧ t.raFault = (s.raFault || (callStatuses cs s).any (· != .ok)) ∧
      t.seq = s.seq.map (· + cs.length) := by
  induction cs generalizing s with
  | nil =>
    cases h
    exact ⟨rfl, (Bool.or_false _).symm, by cases t.seq <;> rfl⟩
  | cons c cs ih =>
    obtain ⟨st, u, hu, h⟩ := Run.bind_eq_done h
    obtain ⟨hra, hseq⟩ := runCall_raFault_seq hu
    obtain ⟨hlen, hor, hcount⟩ := ih h
    rw [callStatuses_cons hu]
    refine ⟨by rw [List.length_cons, hlen, List.length_cons], ?_, ?_⟩
    · rw [hor, latch_raFault, hra, List.any_cons, Bool.or_assoc]
    · rw [hcount, latch_seq, hseq, Option.map_map]
      congr 1
      funext n
      simp only [Function.comp_apply, List.length_cons]
      omega

theorem readStatuses_eq {addr : Byte} {s u w : State} {r : Byte × Status}
    (hu : runCalls (readCalls addr) (raBegin s) = .done () u) (hw : callReceive u = .done r w) :
    readStatuses addr s = callStatuses (readCalls addr) (raBegin s) ++ r.2 :: callStatuses [.stop] (latch r.2 w) := by
  simp only [readStatuses, hu, hw]

theorem readValue_raFault (r : Byte × Status) (s : State) : (readValue r s).2.raFault = s.raFault := by
  obtain h | h := readValue_snd r s <;> rw [h]
  rfl

/-- R187 (b), (d) for a read: seven calls, and the OR of their faults. -/
theorem readReg_latches {addr v : Byte} {s t : State} (h : readReg addr s = .done v t) :
    (readStatuses addr s).length = 7 ∧ t.raFault = (readStatuses addr s).any (· != .ok) := by
  obtain ⟨u, r, w, x, hu, hw, hx, -, rfl⟩ := readReg_eq_done h
  obtain ⟨hlen, hor, -⟩ := runCalls_latches hu
  obtain ⟨hlen', hor', -⟩ := runCalls_latches hx
  rw [readStatuses_eq hu hw]
  refine ⟨by rw [List.length_append, List.length_cons, hlen, hlen']; rfl, ?_⟩
  rw [raEnd_raFault, readValue_raFault, hor', latch_raFault, (callReceive_raFault_seq hw).1, hor, raBegin_raFault,
    List.any_append, List.any_cons, Bool.false_or, Bool.or_assoc]

/-- R187 (b), (d) for a write of `n` values: `4 + n` calls, and the OR of their faults. -/
theorem writeRegs_latches {addr : Byte} {values : List Byte} {s t : State} (h : writeRegs addr values s = .done () t) :
    (writeStatuses addr values s).length = 4 + values.length ∧
      t.raFault = (writeStatuses addr values s).any (· != .ok) := by
  obtain ⟨u, hu, rfl⟩ := writeRegs_eq_done h
  obtain ⟨hlen, hor, -⟩ := runCalls_latches hu
  refine ⟨?_, by rw [raEnd_raFault, hor, raBegin_raFault, Bool.false_or]; rfl⟩
  rw [writeStatuses, hlen]
  simp only [writeCalls, List.length_append, List.length_cons, List.length_nil, List.length_map]
  omega

/-! ### No procedure looks at the response port -/

/-- A procedure's end or hang, in a state that is written over. -/
def Run.mapState {α : Type} (f : State → State) : Run α → Run α
  | .done a s => .done a (f s)
  | .hang s => .hang (f s)

theorem Run.bind_mapState {α β : Type} {f : State → State} (r : Run α) {k : α → State → Run β}
    (h : ∀ a s, k a (f s) = (k a s).mapState f) : (r.mapState f).bind k = (r.bind k).mapState f := by
  cases r with
  | done a s => exact h a s
  | hang s => rfl

section
variable (bs : List Byte)

theorem ask_respond (a : BusAction) (s : State) : ask a (respond bs s) = (ask a s).mapState (respond bs) := by
  unfold ask
  rw [respond_cfg, respond_line]
  cases reply s.cfg s.line a <;> rfl

theorem callStop_respond (s : State) : callStop (respond bs s) = (callStop s).mapState (respond bs) := by
  unfold callStop
  rw [respond_line]
  split <;> rfl

theorem takeFault_respond (cause : Cause) (hs : HwStatus) (s : State) :
    takeFault cause hs (respond bs s) = (takeFault cause hs s).mapState (respond bs) := by
  cases cause with
  | nack =>
    simp only [takeFault]
    rw [callStop_respond, Run.bind_mapState]
    exact fun _ _ => rfl
  | arbitrationLoss | busFault | protocolViolation => rfl

theorem callStart_respond (s : State) : callStart (respond bs s) = (callStart s).mapState (respond bs) := by
  unfold callStart
  rw [ask_respond, Run.bind_mapState]
  intro hs s
  cases startFault hs.cls with
  | none => rfl
  | some cause => exact takeFault_respond bs cause hs s

theorem callAddress_respond (addr7 : BitVec 7) (read : Bool) (s : State) :
    callAddress addr7 read (respond bs s) = (callAddress addr7 read s).mapState (respond bs) := by
  unfold callAddress
  rw [ask_respond, respond_cfg, Run.bind_mapState]
  intro hs s
  cases addressFault read hs.cls with
  | none => rfl
  | some cause => exact takeFault_respond bs cause hs s

theorem callSend_respond (b : Byte) (s : State) : callSend b (respond bs s) = (callSend b s).mapState (respond bs) := by
  unfold callSend
  rw [ask_respond, Run.bind_mapState]
  intro hs s
  cases txFault hs.cls with
  | none => rfl
  | some cause => exact takeFault_respond bs cause hs s

theorem runCall_respond (c : TransportCall) (s : State) :
    runCall c (respond bs s) = (runCall c s).mapState (respond bs) := by
  cases c with
  | start => exact callStart_respond bs s
  | address read => exact callAddress_respond bs s.cfg.chipAddr read s
  | byte b => exact callSend_respond bs b s
  | stop =>
    simp only [runCall]
    rw [callStop_respond, Run.bind_mapState]
    exact fun _ _ => rfl

theorem runCalls_respond (cs : List TransportCall) (s : State) :
    runCalls cs (respond bs s) = (runCalls cs s).mapState (respond bs) := by
  induction cs generalizing s with
  | nil => rfl
  | cons c cs ih =>
    rw [runCalls_cons, runCalls_cons, runCall_respond, Run.bind_mapState]
    exact fun st t => ih (latch st t)

theorem writeRegs_respond (addr : Byte) (values : List Byte) (s : State) :
    writeRegs addr values (respond bs s) = (writeRegs addr values s).mapState (respond bs) := by
  unfold writeRegs
  have h : raBegin (respond bs s) = respond bs (raBegin s) := rfl
  rw [h, runCalls_respond, Run.bind_mapState]
  exact fun _ _ => rfl

theorem callStatuses_respond (cs : List TransportCall) (s : State) :
    callStatuses cs (respond bs s) = callStatuses cs s := by
  induction cs generalizing s with
  | nil => rfl
  | cons c cs ih =>
    unfold callStatuses
    rw [runCall_respond]
    cases runCall c s with
    | done st t => exact congrArg (st :: ·) (ih (latch st t))
    | hang t => rfl

theorem writeStatuses_respond (addr : Byte) (values : List Byte) (s : State) :
    writeStatuses addr values (respond bs s) = writeStatuses addr values s :=
  callStatuses_respond bs (writeCalls addr values) (raBegin s)

end

theorem writeRegs_respond_eq_done_iff {bs : List Byte} {addr : Byte} {values : List Byte} {s t : State} :
    writeRegs addr values (respond bs s) = .done () t ↔ ∃ w, writeRegs addr values s = .done () w ∧ t = respond bs w := by
  rw [writeRegs_respond]
  cases writeRegs addr values s with
  | done _ w =>
    constructor
    · intro h
      cases h
      exact ⟨w, rfl, rfl⟩
    · rintro ⟨_, h, rfl⟩
      cases h
      rfl
  | hang w =>
    constructor
    · intro h
      cases h
    · rintro ⟨_, h, -⟩
      cases h

/-- Settles O20: the lists latch the OR of their faults, and no call looks at the response port. -/
theorem faultLatchIsOrOfStatuses : Obligations.FaultLatchIsOrOfStatuses := by
  refine ⟨fun cs s t h => runCalls_latches h, fun s t => ⟨fun addr h => ?read, fun addr value h => ?write,
    fun addr values h => ?bulk, fun addr mask value h => ?update⟩⟩
  case read =>
    obtain ⟨-, v, u, hu, rfl⟩ := execReadReg_eq_next_iff.mp h
    exact ⟨(readReg_latches hu).1, (readReg_latches hu).2, v, rfl⟩
  case write =>
    obtain ⟨-, u, hu, rfl⟩ := execWriteReg_eq_next_iff.mp h
    exact ⟨(writeRegs_latches hu).1, (writeRegs_latches hu).2, rfl⟩
  case bulk =>
    obtain ⟨-, -, u, hu, rfl⟩ := execWriteBulk_eq_next_iff.mp h
    exact ⟨(writeRegs_latches hu).1, (writeRegs_latches hu).2, rfl⟩
  case update =>
    obtain ⟨hv, -⟩ := whenConfigured_eq_next h
    obtain ⟨w, hw, rfl⟩ := (execUpdateReg_eq_next_iff hv).mp h
    obtain ⟨old, u, x, hu, hx, rfl⟩ := updateReg_eq_done_iff.mp hw
    refine ⟨old, _, execReadReg_eq_next_iff.mpr ⟨hv, old, u, hu, rfl⟩, rfl, ?_, rfl⟩
    rw [writeStatuses_respond, ← (readReg_latches hu).2]
    exact congrArg (u.raFault || ·) (writeRegs_latches hx).2

/-- Settles O21: the update's procedure is the read and then the write from the state after it; the response in between is
written over. -/
theorem updateIsReadThenWrite : Obligations.UpdateIsReadThenWrite := by
  intro s t addr mask value
  constructor
  · intro h
    obtain ⟨hv, -⟩ := whenConfigured_eq_next h
    obtain ⟨_, hx, rfl⟩ := (execUpdateReg_eq_next_iff hv).mp h
    obtain ⟨old, u, w, hu, hw, rfl⟩ := updateReg_eq_done_iff.mp hx
    have hv' : configValid u.cfg = true := by rw [(readReg_frame hu).1.cfg]; exact hv
    exact ⟨old, _, _, execReadReg_eq_next_iff.mpr ⟨hv, old, u, hu, rfl⟩, rfl,
      execWriteReg_eq_next_iff.mpr ⟨hv', _, writeRegs_respond_eq_done_iff.mpr ⟨w, hw, rfl⟩, rfl⟩, rfl⟩
  · rintro ⟨old, _, _, hread, hold, hwrite, rfl⟩
    obtain ⟨hv, v, u, hu, rfl⟩ := execReadReg_eq_next_iff.mp hread
    obtain ⟨-, _, hx, rfl⟩ := execWriteReg_eq_next_iff.mp hwrite
    obtain ⟨w, hw, rfl⟩ := writeRegs_respond_eq_done_iff.mp hx
    simp only [respond_response, List.cons.injEq] at hold
    obtain ⟨rfl, -⟩ := hold
    exact (execUpdateReg_eq_next_iff hv).mpr ⟨_, updateReg_eq_done_iff.mpr ⟨v, u, w, hu, hw, rfl⟩, rfl⟩

end Sys2Proof.Machine
end

section
/-! Proofs about the Register Access Layer (`spec/43_register_access.md`) and the remote chip (`spec/20_memory.md`): what the
chip holds after its operations, on the plain chip of D29, after a fault and after a recovery. -/

namespace Sys2Proof.Machine

/-! ### The chip as a call sees it -/

/-- The part of the lines that the remote chip's reactions are about (R50, R53, D29). -/
structure ChipView where
  rm : Memory
  rp : Byte
  busOpen : Bool
  mode : ChipMode

def chipView (l : LineEnv) : ChipView := { rm := l.rm, rp := l.rp, busOpen := l.busOpen, mode := l.mode }

/-- What a call that succeeds does to the chip (R53, R54, D29). -/
def okView : TransportCall → ChipView → ChipView
  | .start, v => { v with busOpen := true, mode := .none }
  | .address read, v => { v with mode := if v.busOpen = true then (if read then .read else .wFirst) else .none }
  | .byte b, v =>
    match v.mode with
    | .wFirst => { v with rp := b, mode := .wData }
    | .wData => { v with rm := writeMem v.rm v.rp.toNat b, rp := v.rp + 1#8 }
    | .none => v
    | .read => v
  | .stop, v => { v with busOpen := false, mode := .none }

/-- What a call that faults does to the chip: it ends the transaction and touches neither map nor pointer (R54, log 28). -/
def closedView (v : ChipView) : ChipView := { v with busOpen := false, mode := .none }

theorem chipView_afterReaction {cause : Cause} (h : cause ≠ .protocolViolation) (s : State) :
    chipView (afterReaction cause s).line = closedView (chipView s.line) := by
  cases cause with
  | nack | arbitrationLoss | busFault => rfl
  | protocolViolation => exact absurd rfl h

theorem ne_protocolViolation {cause : Cause} (h : cause = .nack ∨ cause = .busFault) : cause ≠ .protocolViolation := by
  obtain rfl | rfl := h <;> decide

/-- The effect of a call on the chip, by its status. -/
def statusView (c : TransportCall) (st : Status) (v : ChipView) : ChipView :=
  match st with
  | .ok => okView c v
  | .fault _ _ => closedView v

theorem startAfter_view (hs : HwStatus) (s : State) :
    chipView (startAfter hs s).2.line = statusView .start (startAfter hs s).1 (chipView s.line) := by
  cases hf : startFault hs.cls with
  | none =>
    rw [startAfter_of_success hf]
    simp [chipView, statusView, okView, chipReact_start, hf]
  | some cause =>
    rw [startAfter_of_fault hf]
    obtain rfl | rfl := startFault_cause hf
    · simp [chipView, statusView, closedView, afterReaction, chipReact_start]
    · simp [chipView, statusView, closedView, afterReaction, chipReact_start, hf]

theorem addressFault_eq_none {read : Bool} {cls : HsClass} (h : addressFault read cls = none) :
    cls = if read then .slaRAck else .slaWAck := by
  by_contra hack
  by_cases hnack : cls = if read then .slaRNack else .slaWNack
  · rw [addressFault_of_nack hnack] at h
    cases h
  · rw [addressFault_of_other ⟨hack, hnack⟩] at h
    cases h

theorem addressAfter_view (read : Bool) (hs : HwStatus) (s : State) :
    chipView (addressAfter s.cfg.chipAddr read hs s).2.line =
      statusView (.address read) (addressAfter s.cfg.chipAddr read hs s).1 (chipView s.line) := by
  cases hf : addressFault read hs.cls with
  | none =>
    have hack := addressFault_eq_none hf
    have hline := chipReact_address_ack s.cfg
      (popAnswer (emit (.action (.address (addressByte s.cfg s.cfg.chipAddr read))) s.line)) s.cfg.chipAddr read
    rw [← hack, ← answered_line] at hline
    rw [addressAfter_of_success _ _ _ hf]
    dsimp only
    rw [hline]
    simp only [chipView, statusView, okView, popAnswer_rm, emit_rm, popAnswer_rp, emit_rp, popAnswer_busOpen, emit_busOpen,
      and_true]
    rfl
  | some cause =>
    obtain ⟨hrm, hrp, -⟩ := chipReact_address_kept s.cfg
      (popAnswer (emit (.action (.address (addressByte s.cfg s.cfg.chipAddr read))) s.line))
      (addressByte s.cfg s.cfg.chipAddr read) hs.cls
    rw [addressAfter_of_fault _ _ _ hf]
    dsimp only
    rw [chipView_afterReaction (ne_protocolViolation (addressFault_cause hf))]
    simp [chipView, statusView, closedView, hrm, hrp]

theorem sendAfter_view (b : Byte) (hs : HwStatus) (s : State) :
    chipView (sendAfter b hs s).2.line = statusView (.byte b) (sendAfter b hs s).1 (chipView s.line) := by
  cases hf : txFault hs.cls with
  | none =>
    rw [sendAfter_of_success _ _ hf]
    have hline := chipReact_tx_ack s.cfg (popAnswer (emit (.action (.tx b)) s.line)) b
    rw [← (txFault_eq_none_iff _).mp hf, ← answered_line] at hline
    dsimp only
    cases hm : s.line.mode <;>
      (simp only [popAnswer_mode, emit_mode, hm] at hline; rw [hline]; simp [chipView, statusView, okView, hm])
  | some cause =>
    have hne : hs.cls ≠ .txAck := fun h => by rw [(txFault_eq_none_iff _).mpr h] at hf; cases hf
    rw [sendAfter_of_fault _ _ hf]
    dsimp only
    rw [chipView_afterReaction (ne_protocolViolation (txFault_cause hf))]
    simp [chipView, statusView, closedView, chipReact_tx_of_fault _ _ _ hne]

/-- What a call of the layer's lists does to the chip, whoever answers it. -/
theorem runCall_view {c : TransportCall} {s : State} {st : Status} {t : State} (h : runCall c s = .done st t) :
    chipView t.line = statusView c st (chipView s.line) := by
  cases c with
  | start =>
    obtain ⟨hs, -, he⟩ := callStart_eq_done h
    have hview := startAfter_view hs s
    rwa [← he] at hview
  | address read =>
    obtain ⟨hs, -, he⟩ := callAddress_eq_done h
    have hview := addressAfter_view read hs s
    rwa [← he] at hview
  | byte b =>
    obtain ⟨hs, -, he⟩ := callSend_eq_done h
    have hview := sendAfter_view b hs s
    rwa [← he] at hview
  | stop =>
    obtain ⟨_, u, hu, h⟩ := Run.bind_eq_done h
    obtain ⟨-, rfl⟩ := callStop_eq_done hu
    cases h
    rfl

/-- What a list of calls that all succeed does to the chip. -/
def okViews (cs : List TransportCall) (v : ChipView) : ChipView := cs.foldl (fun v c => okView c v) v

theorem runCalls_cons_eq_done {c : TransportCall} {cs : List TransportCall} {s t : State}
    (h : runCalls (c :: cs) s = .done () t) :
    ∃ st u, runCall c s = .done st u ∧ runCalls cs (latch st u) = .done () t := Run.bind_eq_done h

theorem runCalls_append_eq_done {cs ds : List TransportCall} {s t : State} (h : runCalls (cs ++ ds) s = .done () t) :
    ∃ u, runCalls cs s = .done () u ∧ runCalls ds u = .done () t := by
  rw [runCalls_append] at h
  obtain ⟨_, u, hu, h⟩ := Run.bind_eq_done h
  exact ⟨u, hu, h⟩

/-- The latch is never cleared inside an operation (R180). -/
theorem runCalls_raFault_mono {cs : List TransportCall} {s t : State} (h : runCalls cs s = .done () t)
    (hs : s.raFault = true) : t.raFault = true := by
  rw [(runCalls_latches h).2.1, hs, Bool.true_or]

theorem runCalls_view_of_no_fault {cs : List TransportCall} {s t : State} (h : runCalls cs s = .done () t)
    (hf : t.raFault = false) : chipView t.line = okViews cs (chipView s.line) := by
  induction cs generalizing s with
  | nil => cases h; rfl
  | cons c cs ih =>
    obtain ⟨st, u, hu, hrest⟩ := runCalls_cons_eq_done h
    have hl : (latch st u).raFault = false := by
      by_contra hne
      rw [runCalls_raFault_mono hrest ((Bool.not_eq_false _).mp hne)] at hf
      cases hf
    have hst : st = .ok := by
      rw [latch_raFault] at hl
      simpa using (Bool.or_eq_false_iff.mp hl).2
    have hview := runCall_view hu
    rw [hst] at hview
    rw [ih hrest, latch_line, hview]
    rfl

/-! ### READ_REG in every environment (R181, R182) -/

theorem runCall_freeIndex {c : TransportCall} {s : State} {st : Status} {t : State} (h : runCall c s = .done st t) :
    t.freeIndex = s.freeIndex := by
  cases c with
  | start =>
    obtain ⟨hs, -, he⟩ := callStart_eq_done h
    have hfree := startAfter_freeIndex hs s
    rwa [← he] at hfree
  | address read =>
    obtain ⟨hs, -, he⟩ := callAddress_eq_done h
    have hfree := addressAfter_freeIndex s.cfg.chipAddr read hs s
    rwa [← he] at hfree
  | byte b =>
    obtain ⟨hs, -, he⟩ := callSend_eq_done h
    have hfree := sendAfter_freeIndex b hs s
    rwa [← he] at hfree
  | stop =>
    obtain ⟨_, u, hu, h⟩ := Run.bind_eq_done h
    obtain ⟨-, rfl⟩ := callStop_eq_done hu
    cases h
    rfl

theorem runCalls_freeIndex {cs : List TransportCall} {s t : State} (h : runCalls cs s = .done () t) :
    t.freeIndex = s.freeIndex := by
  induction cs generalizing s with
  | nil => cases h; rfl
  | cons c cs ih =>
    obtain ⟨st, u, hu, hrest⟩ := runCalls_cons_eq_done h
    rw [ih hrest, latch_freeIndex, runCall_freeIndex hu]

theorem runCalls_stop_eq_done {s t : State} (h : runCalls [.stop] s = .done () t) : t = latch .ok (stopDone s) := by
  obtain ⟨st, u, hu, hrest⟩ := runCalls_cons_eq_done h
  obtain ⟨_, v, hv, hu⟩ := Run.bind_eq_done hu
  obtain ⟨-, rfl⟩ := callStop_eq_done hv
  cases hu
  cases hrest
  rfl

/-- The chip before the receive of a read in which nothing has faulted: addressed for reading, its pointer at `addr`. -/
theorem okViews_readCalls (addr : Byte) (v : ChipView) :
    okViews (readCalls addr) v = { rm := v.rm, rp := addr, busOpen := true, mode := .read } := rfl

/-- A read in which nothing has faulted (R181): the byte received is the one the map holds at `addr`. -/
theorem readReg_of_no_fault {addr v : Byte} {s t : State} (h : readReg addr s = .done v t) (hf : t.raFault = false) :
    t.line.rm = writeMem s.line.rm addr.toNat v ∧ t.line.rp = addr + 1#8 ∧ t.tstat.cls = .rxDone v ∧
      t.freeIndex = s.freeIndex := by
  obtain ⟨u, r, w, x, hu, hw, hx, hv, rfl⟩ := readReg_eq_done h
  obtain rfl := runCalls_stop_eq_done hx
  rw [raEnd_raFault, readValue_raFault, latch_raFault, stopDone_raFault, latch_raFault,
    (callReceive_raFault_seq hw).1] at hf
  simp only [Bool.or_eq_false_iff] at hf
  obtain ⟨⟨huf, hrf⟩, -⟩ := hf
  have hr : r.2 = .ok := by simpa using hrf
  have hview := runCalls_view_of_no_fault hu huf
  rw [okViews_readCalls] at hview
  have hmode : u.line.mode = .read := congrArg ChipView.mode hview
  have hrm : u.line.rm = s.line.rm := congrArg ChipView.rm hview
  have hrp : u.line.rp = addr := congrArg ChipView.rp hview
  have hfree : u.freeIndex = s.freeIndex := runCalls_freeIndex (s := raBegin s) hu
  obtain ⟨hs, -, he⟩ := callReceive_eq_done hw
  cases hc : rxOutcome hs.cls with
  | error cause =>
    rw [receiveAfter_of_fault _ hc, Prod.mk.injEq] at he
    rw [he.1] at hr
    cases hr
  | ok b =>
    rw [receiveAfter_of_success _ hc, Prod.mk.injEq] at he
    obtain ⟨rfl, rfl⟩ := he
    have hdone := (rxOutcome_eq_ok_iff _ b).mp hc
    have hline := chipReact_rx_done u.cfg (popAnswer (emit (.action .rx) u.line)) b
    simp only [popAnswer_mode, emit_mode, hmode] at hline
    rw [← hdone, ← answered_line] at hline
    have hvalue : readValue (b, .ok) (latch .ok (stopDone (latch .ok { answered .rx hs u with ps := .data }))) =
        (b, latch .ok (stopDone (latch .ok { answered .rx hs u with ps := .data }))) := by
      simp [readValue, huf]
    rw [hvalue] at hv ⊢
    subst hv
    refine ⟨?_, ?_, hdone, hfree⟩
    · rw [← hrm, ← hrp]
      exact congrArg LineEnv.rm hline
    · rw [← hrp]
      exact congrArg LineEnv.rp hline

/-- A read in which something has faulted returns the next free byte (R182, log 29). -/
theorem readReg_of_fault {addr v : Byte} {s t : State} (h : readReg addr s = .done v t) (hf : t.raFault = true) :
    v = Config.anyByte s.freeIndex ∧ t.freeIndex = s.freeIndex + 1 := by
  obtain ⟨u, r, w, x, hu, hw, hx, rfl, rfl⟩ := readReg_eq_done h
  have hxfree : x.freeIndex = w.freeIndex := runCalls_freeIndex (s := latch r.2 w) hx
  rw [raEnd_raFault, readValue_raFault] at hf
  have hfree : u.freeIndex = s.freeIndex := runCalls_freeIndex (s := raBegin s) hu
  obtain ⟨hs, -, he⟩ := callReceive_eq_done hw
  cases hc : rxOutcome hs.cls with
  | error cause =>
    rw [receiveAfter_of_fault _ hc, Prod.mk.injEq] at he
    obtain ⟨rfl, rfl⟩ := he
    have hvalue : readValue (Config.anyByte u.freeIndex, .fault cause hs) x = (Config.anyByte u.freeIndex, x) := by
      simp [readValue]
    rw [hvalue, raEnd_freeIndex, hxfree, afterReaction_freeIndex, ← hfree]
    exact ⟨rfl, rfl⟩
  | ok b =>
    rw [receiveAfter_of_success _ hc, Prod.mk.injEq] at he
    obtain ⟨rfl, rfl⟩ := he
    have hvalue : readValue (b, .ok) x = drawByte x := by simp [readValue, hf]
    rw [hvalue, raEnd_freeIndex, drawByte_snd_freeIndex, hxfree, ← hfree]
    refine ⟨?_, rfl⟩
    rw [drawByte, hxfree]
    rfl

theorem execReadReg_plainChip {s : State} (hv : configValid s.cfg = true) (h : PlainChip s) (hm : memWf s.line.rm = true)
    (addr : Byte) :
    execReadReg addr s = .next (respond [readMem s.line.rm addr.toNat, 0x00#8] (afterRead addr s)) :=
  execReadReg_eq_next_iff.mpr ⟨hv, _, _, readReg_plainChip h hm addr, rfl⟩

theorem afterRead_layerFrame (addr : Byte) (s : State) : LayerFrame s (afterRead addr s) :=
  ⟨⟨rfl, rfl, rfl, rfl, rfl, rfl, rfl⟩, rfl, ⟨rfl, rfl, rfl, rfl⟩, ⟨rfl, rfl⟩⟩

/-- Settles O24: in every environment by the fault bit, and on the plain chip by the one state a read ends in. -/
theorem readReturnsTheByte : Obligations.ReadReturnsTheByte := by
  refine ⟨fun s t addr hm h => ?every, fun s addr hv hp hm => ?plain⟩
  case every =>
    obtain ⟨-, v, u, hu, rfl⟩ := execReadReg_eq_next_iff.mp h
    refine ⟨fun hf => ?done, fun hf => ?faulted⟩
    case done =>
      obtain ⟨hrm, hrp, hc, hfree⟩ := readReg_of_no_fault hu hf
      have hread : readMem u.line.rm addr.toNat = v := by rw [hrm]; exact readMem_writeMem_same hm _ _
      have hraf : u.raFault = false := hf
      rw [respond_line, hread]
      refine ⟨by rw [hraf]; rfl, hc, hfree, fun a ha => ?_, hrp⟩
      rw [respond_line, hrm]
      exact readMem_writeMem_other _ (by simpa using ha) _
    case faulted =>
      obtain ⟨rfl, hfree⟩ := readReg_of_fault hu hf
      have hraf : u.raFault = true := hf
      exact ⟨by rw [hraf]; rfl, hfree⟩
  case plain =>
    exact ⟨_, execReadReg_plainChip hv hp hm addr, rfl, rfl, afterRead_layerFrame addr s, fun _ => rfl, rfl, rfl⟩

/-! ### Writes to the plain chip (R183, R184, R186) -/

theorem execWriteBulk_plainChip {s : State} (hv : configValid s.cfg = true) (h : PlainChip s) (addr : Byte)
    {values : List Byte} (hne : values ≠ []) :
    execWriteBulk addr values s = .next (respond [0x00#8] (afterWrite addr values s)) :=
  execWriteBulk_eq_next_iff.mpr ⟨hv, hne, _, writeRegs_plainChip h addr values, rfl⟩

theorem afterWrite_layerFrame (addr : Byte) (values : List Byte) (s : State) : LayerFrame s (afterWrite addr values s) :=
  ⟨⟨rfl, rfl, rfl, rfl, rfl, rfl, rfl⟩, rfl, ⟨rfl, rfl, rfl, rfl⟩, ⟨rfl, rfl⟩⟩

theorem afterWrite_plainChip {s : State} (h : PlainChip s) (addr : Byte) (values : List Byte) :
    PlainChip (afterWrite addr values s) := ⟨rfl, h.2⟩

/-- Settles O23, by the one state a write to the plain chip ends in. -/
theorem writeStoresTheBytes : Obligations.WriteStoresTheBytes := by
  intro s hv hp hm
  refine ⟨fun addr values hne hl => ?bulk, fun addr value => execWriteReg_eq_execWriteBulk addr value s⟩
  exact ⟨_, execWriteBulk_plainChip hv hp addr hne, rfl, rfl, afterWrite_layerFrame addr values s,
    fun i hi => readMem_writeBytes_at hm addr values (by omega) i hi,
    fun a ha => readMem_writeBytes_other _ addr values ha, rfl, rfl⟩

/-- Settles O25, by the one state a masked update of the plain chip ends in. -/
theorem updateChangesTheMaskedBits : Obligations.UpdateChangesTheMaskedBits := by
  intro s addr mask value hv hp hm
  refine ⟨respond [0x00#8] (afterUpdate addr mask value s), mergeMasked (readMem s.line.rm addr.toNat) mask value, ?_, rfl,
    rfl, ⟨⟨rfl, rfl, rfl, rfl, rfl, rfl, rfl⟩, rfl, ⟨rfl, rfl, rfl, rfl⟩, ⟨rfl, rfl⟩⟩, ?_,
    fun j hj => mergeMasked_bit _ _ _ j hj, fun a ha => ?_, rfl⟩
  · exact (execUpdateReg_eq_next_iff hv).mpr ⟨_, updateReg_plainChip hp hm addr mask value, rfl⟩
  · exact readMem_writeMem_same hm _ _
  · exact readMem_writeMem_other _ (by simpa using ha) _

theorem toNat_add_ofNat (a : Byte) {i : Nat} (h : i < 256) : (a + BitVec.ofNat 8 i).toNat = (a.toNat + i) % 256 := by
  rw [BitVec.toNat_add, BitVec.toNat_ofNat, Nat.mod_eq_of_lt (show i < 2 ^ 8 by omega)]

/-- Settles O26: the read sees the map that the write left. -/
theorem writeThenReadReturnsTheByte : Obligations.WriteThenReadReturnsTheByte := by
  intro s addr values i hi hv hp hm hl
  have hne : values ≠ [] := List.ne_nil_of_length_pos (by omega)
  have hm' : memWf (afterWrite addr values s).line.rm = true := memWf_writeBytes hm addr values
  refine ⟨_, _, execWriteBulk_plainChip hv hp addr hne,
    execReadReg_plainChip (s := respond [0x00#8] (afterWrite addr values s)) hv (afterWrite_plainChip hp addr values) hm' _, ?_⟩
  have hat : readMem (writeBytes s.line.rm addr values) (addr + BitVec.ofNat 8 i).toNat = values[i] := by
    rw [toNat_add_ofNat addr (by omega)]
    exact readMem_writeBytes_at hm addr values (by omega) i hi
  exact congrArg (fun v => [v, 0x00#8]) hat

/-! ### A write with a fault in it (R54, R183, R184) -/

/-- On closed lines, with no start to come, no byte reaches the chip. -/
theorem runCalls_of_closed {cs : List TransportCall} (hcs : .start ∉ cs) {s t : State} (h : runCalls cs s = .done () t)
    (hc : chipView s.line = closedView (chipView s.line)) : chipView t.line = chipView s.line := by
  induction cs generalizing s with
  | nil => cases h; rfl
  | cons c cs ih =>
    obtain ⟨st, u, hu, hrest⟩ := runCalls_cons_eq_done h
    have hview : chipView u.line = chipView s.line := by
      rw [runCall_view hu]
      cases st with
      | fault => exact hc.symm
      | ok =>
        rw [hc]
        cases c with
        | start => exact absurd List.mem_cons_self hcs
        | address | byte | stop => rfl
    rw [ih (fun hmem => hcs (List.mem_cons_of_mem c hmem)) hrest (by rw [latch_line, hview]; exact hc), latch_line, hview]

/-- The calls that the plain chip answers with success, in a given state of the chip (D29). -/
def Accepts : TransportCall → ChipView → Prop
  | .start, _ => True
  | .address _, v => v.busOpen = true
  | .byte _, v => v.mode = .wFirst ∨ v.mode = .wData
  | .stop, _ => True

theorem reply_of_asChip {s : State} (hn : nextAnswer s.line = .asChip) (hc : ChipSpeaks s.cfg) (a : BusAction) :
    reply s.cfg s.line a =
      some ⟨chipAnswer s.cfg s.line a, chipCode s.cfg.statusCodes (chipAnswer s.cfg s.line a).name⟩ := by
  simp [reply, hn, chipStatus_of_speaks hc (chipAnswer_spoken s.cfg s.line a)]

/-- A call that the plain chip accepts succeeds. -/
theorem runCall_ok_of_asChip {c : TransportCall} {s : State} {st : Status} {t : State} (h : runCall c s = .done st t)
    (hn : nextAnswer s.line = .asChip) (hc : ChipSpeaks s.cfg) (ha : Accepts c (chipView s.line)) : st = .ok := by
  cases c with
  | start =>
    obtain ⟨hs, hr, he⟩ := callStart_eq_done h
    rw [reply_of_asChip hn hc] at hr
    cases hr
    have hf : startFault (chipAnswer s.cfg s.line .start) = none := by
      simp only [chipAnswer]
      split <;> rfl
    rw [startAfter_of_success hf] at he
    exact congrArg Prod.fst he
  | address read =>
    obtain ⟨hs, hr, he⟩ := callAddress_eq_done h
    rw [reply_of_asChip hn hc] at hr
    cases hr
    have hopen : s.line.busOpen = true := ha
    have hf : addressFault read (chipAnswer s.cfg s.line (.address (addressByte s.cfg s.cfg.chipAddr read))) = none := by
      simp [chipAnswer, hopen, deviceOf_addressByte, asksRead_addressByte, addressFault]
    rw [addressAfter_of_success _ _ _ hf] at he
    exact congrArg Prod.fst he
  | byte b =>
    obtain ⟨hs, hr, he⟩ := callSend_eq_done h
    rw [reply_of_asChip hn hc] at hr
    cases hr
    have hmode : s.line.mode = .wFirst ∨ s.line.mode = .wData := ha
    have hf : txFault (chipAnswer s.cfg s.line (.tx b)) = none := by
      obtain hm | hm := hmode <;> simp [chipAnswer, hm, txFault]
    rw [sendAfter_of_success _ _ hf] at he
    exact congrArg Prod.fst he
  | stop =>
    obtain ⟨_, u, hu, h⟩ := Run.bind_eq_done h
    cases h
    rfl

/-- A call that succeeds uses up one answer. -/
theorem runCall_answers_of_ok {c : TransportCall} {s t : State} (h : runCall c s = .done .ok t) :
    t.line.answers = s.line.answers.tail := by
  cases c with
  | start =>
    obtain ⟨hs, -, he⟩ := callStart_eq_done h
    cases hf : startFault hs.cls with
    | none => rw [startAfter_of_success hf] at he; cases he; simp
    | some cause => rw [startAfter_of_fault hf] at he; cases he
  | address read =>
    obtain ⟨hs, -, he⟩ := callAddress_eq_done h
    cases hf : addressFault read hs.cls with
    | none => rw [addressAfter_of_success _ _ _ hf] at he; cases he; simp
    | some cause => rw [addressAfter_of_fault _ _ _ hf] at he; cases he
  | byte b =>
    obtain ⟨hs, -, he⟩ := callSend_eq_done h
    cases hf : txFault hs.cls with
    | none => rw [sendAfter_of_success _ _ hf] at he; cases he; simp
    | some cause => rw [sendAfter_of_fault _ _ hf] at he; cases he
  | stop =>
    obtain ⟨_, u, hu, h⟩ := Run.bind_eq_done h
    obtain ⟨-, rfl⟩ := callStop_eq_done hu
    cases h
    rfl

/-- A list of calls each of which the plain chip accepts after the ones before it. -/
def AcceptsAll : List TransportCall → ChipView → Prop
  | [], _ => True
  | c :: cs, v => Accepts c v ∧ AcceptsAll cs (okView c v)

theorem runCalls_of_asChip {cs : List TransportCall} {s t : State} {rest : List LineAnswer}
    (h : runCalls cs s = .done () t) (hans : s.line.answers = List.replicate cs.length .asChip ++ rest)
    (hc : ChipSpeaks s.cfg) (ha : AcceptsAll cs (chipView s.line)) :
    t.line.answers = rest ∧ chipView t.line = okViews cs (chipView s.line) := by
  induction cs generalizing s with
  | nil => cases h; exact ⟨hans, rfl⟩
  | cons c cs ih =>
    obtain ⟨st, u, hu, hrest⟩ := runCalls_cons_eq_done h
    obtain ⟨hacc, hall⟩ := ha
    rw [List.length_cons, List.replicate_succ, List.cons_append] at hans
    obtain rfl := runCall_ok_of_asChip hu (by rw [nextAnswer, hans, List.headD_cons]) hc hacc
    have hview : chipView (latch .ok u).line = okView c (chipView s.line) := runCall_view hu
    have hans' : (latch .ok u).line.answers = List.replicate cs.length .asChip ++ rest := by
      rw [latch_line, runCall_answers_of_ok hu, hans, List.tail_cons]
    have hc' : ChipSpeaks (latch .ok u).cfg := by rw [latch_cfg, (runCall_busOnly hu).cfg]; exact hc
    obtain ⟨ht, hv⟩ := ih hrest hans' hc' (hview ▸ hall)
    exact ⟨ht, by rw [hv, hview]; rfl⟩

/-- The classes that are a call's success (R154 to R156). -/
def Succeeds : TransportCall → StatusClass → Prop
  | .start, k => k = .start ∨ k = .repStart
  | .address read, k => k = if read then .slaRAck else .slaWAck
  | .byte _, k => k = .txAck
  | .stop, _ => True

/-- A call that is answered with a raw code of another class than its success faults. -/
theorem runCall_ne_ok {c : TransportCall} {s : State} {st : Status} {t : State} {code : RawCode} {data : Byte}
    (h : runCall c s = .done st t) (hn : nextAnswer s.line = .status code data)
    (hf : ¬ Succeeds c (classOf s.cfg.statusCodes code)) : ∃ cause hs, st = .fault cause hs := by
  have hname := hwStatus_name s.cfg code data
  cases c with
  | start =>
    obtain ⟨hs, hr, he⟩ := callStart_eq_done h
    rw [reply_of_status hn] at hr
    cases hr
    cases hc : startFault (hwStatus s.cfg code data).cls with
    | none =>
      refine absurd ?_ hf
      obtain hcls | hcls := (startFault_eq_none_iff _).mp hc <;> rw [hcls] at hname
      · exact .inl hname.symm
      · exact .inr hname.symm
    | some cause => rw [startAfter_of_fault hc] at he; exact ⟨cause, _, congrArg Prod.fst he⟩
  | address read =>
    obtain ⟨hs, hr, he⟩ := callAddress_eq_done h
    rw [reply_of_status hn] at hr
    cases hr
    cases hc : addressFault read (hwStatus s.cfg code data).cls with
    | none =>
      refine absurd ?_ hf
      rw [addressFault_eq_none hc] at hname
      show _ = _
      rw [← hname]
      cases read <;> rfl
    | some cause => rw [addressAfter_of_fault _ _ _ hc] at he; exact ⟨cause, _, congrArg Prod.fst he⟩
  | byte b =>
    obtain ⟨hs, hr, he⟩ := callSend_eq_done h
    rw [reply_of_status hn] at hr
    cases hr
    cases hc : txFault (hwStatus s.cfg code data).cls with
    | none =>
      refine absurd ?_ hf
      rw [(txFault_eq_none_iff _).mp hc] at hname
      exact hname.symm
    | some cause => rw [sendAfter_of_fault _ _ hc] at he; exact ⟨cause, _, congrArg Prod.fst he⟩
  | stop => exact absurd trivial hf

/-- A write transaction with a fault in it: the calls before it have their effect on the chip, the fault and the calls after it
have none, whatever they are answered with. -/
theorem writeRegs_torn {addr : Byte} {values : List Byte} {s t : State} {pre post : List TransportCall}
    {c : TransportCall} {code : RawCode} {data : Byte} {later : List LineAnswer}
    (h : writeRegs addr values s = .done () t) (hcalls : writeCalls addr values = pre ++ c :: post)
    (hpost : .start ∉ post) (hacc : AcceptsAll pre (chipView s.line)) (hc : ChipSpeaks s.cfg)
    (hans : s.line.answers = List.replicate pre.length .asChip ++ .status code data :: later)
    (hf : ¬ Succeeds c (classOf s.cfg.statusCodes code)) :
    t.raFault = true ∧ chipView t.line = closedView (okViews pre (chipView s.line)) := by
  obtain ⟨u, hu, rfl⟩ := writeRegs_eq_done h
  rw [hcalls] at hu
  obtain ⟨v, hpre, hu⟩ := runCalls_append_eq_done hu
  obtain ⟨st, w, hw, hrest⟩ := runCalls_cons_eq_done hu
  obtain ⟨hrestAns, hview⟩ := runCalls_of_asChip hpre hans hc hacc
  have hcfg : v.cfg = s.cfg := (runCalls_busOnly hpre).cfg
  obtain ⟨cause, hs, rfl⟩ := runCall_ne_ok hw (by rw [nextAnswer, hrestAns, List.headD_cons]) (by rw [hcfg]; exact hf)
  have hfault : chipView w.line = closedView (chipView v.line) := runCall_view hw
  have hraf : u.raFault = true := runCalls_raFault_mono hrest (by rw [latch_raFault]; exact Bool.or_true _)
  refine ⟨hraf, ?_⟩
  rw [raEnd_line, runCalls_of_closed hpost hrest (by rw [latch_line, hfault]; rfl), latch_line, hfault, hview]
  rfl

/-- The chip in a write transaction after the register address and the first values. -/
theorem okViews_bytes (values : List Byte) (v : ChipView) (hm : v.mode = .wData) :
    okViews (values.map .byte) v =
      { v with rm := writeBytes v.rm v.rp values, rp := v.rp + BitVec.ofNat 8 values.length } := by
  induction values generalizing v with
  | nil => simp [okViews, writeBytes]
  | cons b bs ih =>
    have hstep : okView (.byte b) v = { v with rm := writeMem v.rm v.rp.toNat b, rp := v.rp + 1#8 } := by
      simp [okView, hm]
    have hlen : v.rp + 1#8 + BitVec.ofNat 8 bs.length = v.rp + BitVec.ofNat 8 (bs.length + 1) := by
      rw [Nat.add_comm, BitVec.ofNat_add, BitVec.add_assoc]
    have hcons : okViews ((b :: bs).map .byte) v = okViews (bs.map .byte) (okView (.byte b) v) := rfl
    rw [hcons, hstep, ih { v with rm := writeMem v.rm v.rp.toNat b, rp := v.rp + 1#8 } hm]
    simp only [writeBytes, List.length_cons, hlen]

theorem acceptsAll_bytes (values : List Byte) (v : ChipView) (hm : v.mode = .wData) : AcceptsAll (values.map .byte) v := by
  induction values generalizing v with
  | nil => trivial
  | cons b bs ih => exact ⟨.inr hm, ih _ (by simp [okView, hm])⟩

theorem acceptsAll_append {cs ds : List TransportCall} {v : ChipView} (h : AcceptsAll cs v)
    (k : AcceptsAll ds (okViews cs v)) : AcceptsAll (cs ++ ds) v := by
  induction cs generalizing v with
  | nil => exact k
  | cons c cs ih => exact ⟨h.1, ih h.2 k⟩

theorem okViews_append (cs ds : List TransportCall) (v : ChipView) : okViews (cs ++ ds) v = okViews ds (okViews cs v) :=
  List.foldl_append

/-- The calls of a write before action `k`: the first of its list. -/
def writeHead (addr : Byte) (values : List Byte) (k : Nat) : List TransportCall := (writeCalls addr values).take k

/-- A WRITE_BULK is torn at action `k`: what it does to the chip is what its first `k` calls do (R54). -/
theorem okViews_writeHead {addr : Byte} {values : List Byte} {k : Nat} (hk : k < 3 + values.length) (v : ChipView) :
    AcceptsAll (writeHead addr values k) v ∧
      (okViews (writeHead addr values k) v).rm = writeBytes v.rm addr (values.take (k - 3)) ∧
      (okViews (writeHead addr values k) v).rp = if k < 3 then v.rp else addr + BitVec.ofNat 8 (k - 3) := by
  match k, hk with
  | 0, _ => exact ⟨trivial, rfl, rfl⟩
  | 1, _ => exact ⟨⟨trivial, trivial⟩, rfl, rfl⟩
  | 2, _ => exact ⟨⟨trivial, rfl, trivial⟩, rfl, rfl⟩
  | j + 3, hk =>
    have hj : j ≤ values.length := by omega
    have hhead : writeHead addr values (j + 3) = [.start, .address false, .byte addr] ++ (values.take j).map .byte := by
      have hcalls : writeCalls addr values =
          .start :: .address false :: .byte addr :: (values.map .byte ++ [.stop]) := rfl
      rw [writeHead, hcalls, List.take_succ_cons, List.take_succ_cons, List.take_succ_cons,
        List.take_append_of_le_length (by simpa using hj), List.map_take]
      rfl
    have hstart : okViews [.start, .address false, .byte addr] v =
        { rm := v.rm, rp := addr, busOpen := true, mode := .wData } := rfl
    rw [hhead, okViews_append, hstart, okViews_bytes _ _ rfl, List.length_take_of_le hj, if_neg (by omega)]
    exact ⟨acceptsAll_append ⟨trivial, rfl, .inl rfl, trivial⟩ (acceptsAll_bytes _ _ rfl), rfl, rfl⟩

/-- The call at action `k` of a write, and the calls after it, none of which is a start. -/
theorem writeCalls_split {addr : Byte} {values : List Byte} {k : Nat} (hk : k < 3 + values.length) :
    ∃ c post, writeCalls addr values = writeHead addr values k ++ c :: post ∧ .start ∉ post ∧
      (writeHead addr values k).length = k ∧
      ∀ cls, Succeeds c cls → (k = 0 ∧ (cls = .start ∨ cls = .repStart)) ∨ (k = 1 ∧ cls = .slaWAck) ∨ (2 ≤ k ∧ cls = .txAck) := by
  have hlen : (writeCalls addr values).length = 4 + values.length := by
    simp only [writeCalls, List.length_append, List.length_cons, List.length_nil, List.length_map]
    omega
  have hbytes : ∀ n, TransportCall.start ∉ (values.map TransportCall.byte ++ [TransportCall.stop]).drop n := by
    intro n hmem
    have := List.mem_of_mem_drop hmem
    simp at this
  refine ⟨(writeCalls addr values)[k]'(by omega), (writeCalls addr values).drop (k + 1), ?_, ?_, ?_, ?_⟩
  · rw [writeHead, List.cons_getElem_drop_succ, List.take_append_drop]
  · match k with
    | 0 => exact fun h => by simp [writeCalls] at h
    | 1 => exact fun h => by simp [writeCalls] at h
    | j + 2 => exact hbytes j
  · rw [writeHead, List.length_take]
    omega
  · match k, hk with
    | 0, _ => exact fun cls h => .inl ⟨rfl, h⟩
    | 1, _ => exact fun cls h => .inr (.inl ⟨rfl, h⟩)
    | 2, _ => exact fun cls h => .inr (.inr ⟨le_refl 2, h⟩)
    | j + 3, hk =>
      intro cls h
      have hcall : (writeCalls addr values)[j + 3]'(by omega) = .byte (values[j]'(by omega)) := by
        have hcalls : writeCalls addr values =
          .start :: .address false :: .byte addr :: (values.map .byte ++ [.stop]) := rfl
        simp only [hcalls, List.getElem_cons_succ]
        rw [List.getElem_append_left (by simpa using (by omega : j < values.length)), List.getElem_map]
      rw [hcall] at h
      exact .inr (.inr ⟨by omega, h⟩)

/-- Settles O27: the fault is at action `k` of the list, and only the calls before it reach the chip. -/
theorem interruptedWriteIsTorn : Obligations.InterruptedWriteIsTorn := by
  intro s addr values k code data later cls hv hc hm hne hl hk h0 h1 h2 hnever hans
  have hresp : Responsive s := by
    intro hmem
    rw [hans, List.mem_append, List.mem_replicate, List.mem_cons] at hmem
    obtain ⟨-, h⟩ | h | h := hmem
    · cases h
    · cases h
    · exact hnever h
  obtain ⟨t, ht⟩ := writeRegs_of_responsive hresp addr values
  obtain ⟨c, post, hcalls, hpost, hlen, hsucc⟩ := writeCalls_split (addr := addr) hk
  obtain ⟨hacc, hrm, hrp⟩ := okViews_writeHead (addr := addr) hk (chipView s.line)
  have hf : ¬ Succeeds c cls := by
    intro h
    obtain ⟨hk0, h | h⟩ | ⟨hk1, h⟩ | ⟨hk2, h⟩ := hsucc _ h
    · exact (h0 hk0).1 h
    · exact (h0 hk0).2 h
    · exact h1 hk1 h
    · exact h2 hk2 h
  obtain ⟨hraf, hview⟩ := writeRegs_torn ht hcalls hpost hacc hc (by rw [hlen]; exact hans) hf
  have hmap : t.line.rm = writeBytes s.line.rm addr (values.take (k - 3)) := (congrArg ChipView.rm hview).trans hrm
  have hptr : t.line.rp = _ := (congrArg ChipView.rp hview).trans hrp
  have htake : (values.take (k - 3)).length = k - 3 := List.length_take_of_le (by omega)
  refine ⟨respond [0x01#8] t, execWriteBulk_eq_next_iff.mpr ⟨hv, hne, t, ht, by rw [hraf]; rfl⟩, rfl,
    (layerFrame_of_frame (writeRegs_frame ht)).respond _, fun i hi hik => ?stored, fun a ha => ?kept, hptr⟩
  case stored =>
    have hat := readMem_writeBytes_at hm addr (values.take (k - 3)) (by omega) i (by omega)
    rw [List.getElem_take] at hat
    rw [respond_line, hmap, hat]
  case kept =>
    rw [respond_line, hmap]
    exact readMem_writeBytes_other _ addr _ (by rw [htake]; exact ha)

/-! ### After an arbitration loss (R233) -/

/-- What an arbitration loss leaves, in whatever action it comes: a recovered block before a plain chip with the old map. -/
structure Recovered (s t : State) : Prop where
  cfg : t.cfg = s.cfg
  answers : t.line.answers = s.line.answers.tail
  rm : t.line.rm = s.line.rm
  rp : t.line.rp = s.line.rp
  ps : t.ps = .idle
  dir : t.dir = .none
  wait : t.wait = .none
  closed : LinesClosed t

theorem Recovered.respond {s t : State} (h : Recovered s t) (r : List Byte) : Recovered s (respond r t) :=
  ⟨h.cfg, h.answers, h.rm, h.rp, h.ps, h.dir, h.wait, h.closed⟩

theorem recovered_lockRecovery {s : State} (a : BusAction) {hs : HwStatus}
    (hrm : (chipReact s.cfg (popAnswer (emit (.action a) s.line)) a hs.cls).rm = s.line.rm)
    (hrp : (chipReact s.cfg (popAnswer (emit (.action a) s.line)) a hs.cls).rp = s.line.rp) :
    Recovered s (lockRecovery (answered a hs s)) where
  cfg := rfl
  answers := by simp
  rm := hrm
  rp := hrp
  ps := rfl
  dir := rfl
  wait := rfl
  closed := ⟨rfl, rfl⟩

/-- R233: a START, an address or data byte or a receive that loses arbitration. -/
theorem exec_of_arbLost {s : State} {lost : RawCode} {data : Byte} (hv : configValid s.cfg = true)
    (hc : classOf s.cfg.statusCodes lost = .arbLost) (hans : s.line.answers = [.status lost data]) {i : Instr}
    (hi : i = .start ∨ (∃ addr7 read, i = .sendAddress addr7 read) ∨ (∃ b, i = .sendByte b) ∨ i = .receiveByte) :
    ∃ t, exec i s = .next t ∧ t.response.getLast? = some lost.byte ∧ Recovered s t := by
  have hr : ∀ a, reply s.cfg s.line a = some (hwStatus s.cfg lost data) :=
    reply_of_status (by rw [nextAnswer, hans, List.headD_cons])
  have hn : s.line.answers.tail.headD .asChip ≠ .never := by rw [hans]; nofun
  have hcls : (hwStatus s.cfg lost data).cls = .arbLost := by rw [hwStatus, hc]; rfl
  obtain rfl | ⟨addr7, read, rfl⟩ | ⟨b, rfl⟩ | rfl := hi
  · have hf : startFault (hwStatus s.cfg lost data).cls = some .arbitrationLoss := by rw [hcls]; rfl
    refine ⟨_, execStart_of_reply hv (hr _), ?_, ?_⟩ <;> rw [startAfter_of_fault hf]
    · rfl
    · exact (recovered_lockRecovery .start (by rw [chipReact_start]; rfl) (by rw [chipReact_start]; rfl)).respond _
  · have hf : addressFault read (hwStatus s.cfg lost data).cls = some .busFault :=
      addressFault_of_other (by rw [hcls]; cases read <;> decide)
    obtain ⟨hrm, hrp, -⟩ := chipReact_address_kept s.cfg
      (popAnswer (emit (.action (.address (addressByte s.cfg addr7 read))) s.line)) (addressByte s.cfg addr7 read)
      (hwStatus s.cfg lost data).cls
    refine ⟨_, execSendAddress_of_reply hv (hr _) hn, ?_, ?_⟩ <;> rw [addressAfter_of_fault _ _ _ hf]
    · rfl
    · exact (recovered_lockRecovery _ hrm hrp).respond _
  · have hne : (hwStatus s.cfg lost data).cls ≠ .txAck := by rw [hcls]; decide
    have hf : txFault (hwStatus s.cfg lost data).cls = some .busFault := by rw [hcls]; rfl
    refine ⟨_, execSendByte_of_reply hv (hr _) hn, ?_, ?_⟩ <;> rw [sendAfter_of_fault _ _ hf]
    · rfl
    · exact (recovered_lockRecovery _ (by rw [chipReact_tx_of_fault _ _ _ hne]; rfl)
        (by rw [chipReact_tx_of_fault _ _ _ hne]; rfl)).respond _
  · have hne : ∀ v, (hwStatus s.cfg lost data).cls ≠ .rxDone v := by rw [hcls]; nofun
    have hf : rxOutcome (hwStatus s.cfg lost data).cls = .error .busFault := by rw [hcls]; rfl
    refine ⟨_, execReceiveByte_of_reply hv (hr _) hn, ?_, ?_⟩ <;> rw [receiveAfter_of_fault _ hf]
    · rfl
    · have h := recovered_lockRecovery (s := s) .rx (hs := hwStatus s.cfg lost data)
        (by rw [chipReact_rx_of_fault _ _ hne]; rfl) (by rw [chipReact_rx_of_fault _ _ hne]; rfl)
      exact ⟨h.cfg, h.answers, h.rm, h.rp, h.ps, h.dir, h.wait, h.closed⟩

theorem execStart_plainChip {s : State} (hv : configValid s.cfg = true) (hp : PlainChip s) :
    ∃ t, execStart s = .next t ∧ t.response = [0x00#8] ∧ t.ps = .started := by
  have hf : startFault (chipAnswer s.cfg s.line .start) = none := by
    simp only [chipAnswer]
    split <;> rfl
  have h := execStart_of_reply hv (reply_of_plainChip hp .start)
  rw [startAfter_of_success hf] at h
  exact ⟨_, h, rfl, rfl⟩

/-- A WRITE_BULK that is answered by a list of answers no longer than itself has used them all up. -/
theorem writeRegs_answers_nil {addr : Byte} {values : List Byte} {s t : State} (h : writeRegs addr values s = .done () t)
    (hl : s.line.answers.length ≤ 4 + values.length) : t.line.answers = [] := by
  obtain ⟨-, m, hm, ha, -⟩ := (writeRegs_uses addr values s).done () t h
  rw [ha]
  exact List.drop_eq_nil_of_le (by omega)

/-- Settles O16: a recovered block finds the plain chip as it was, and so does a WRITE_BULK that is repeated. -/
theorem recoveryThenTransaction : Obligations.RecoveryThenTransaction := by
  intro s lost data hv hm hc hlost
  refine ⟨fun i hi hans => ?recovered, fun addr values k hne hl hk hans => ?repeated⟩
  case recovered =>
    obtain ⟨t, ht, hresp, hrec⟩ := exec_of_arbLost hv hlost hans hi
    have hvt : configValid t.cfg = true := by rw [hrec.cfg]; exact hv
    have hpt : PlainChip t := ⟨by rw [hrec.answers, hans]; rfl, by rw [hrec.cfg]; exact hc⟩
    have hmt : memWf t.line.rm = true := by rw [hrec.rm]; exact hm
    refine ⟨t, ht, hresp, hrec.ps, hrec.dir, hrec.wait, hrec.closed, chipKept_of_eq hrec.rm hrec.rp,
      execStart_plainChip hvt hpt, fun addr => ?read, fun addr values hne hl => ?write⟩
    case read =>
      refine ⟨_, execReadReg_plainChip hvt hpt hmt addr, ?_⟩
      rw [respond_response, hrec.rm]
    case write =>
      refine ⟨_, execWriteBulk_plainChip hvt hpt addr hne, rfl, ⟨rfl, rfl, rfl, rfl⟩,
        fun j hj => readMem_writeBytes_at hmt addr values (by omega) j hj, fun a ha => ?_⟩
      have h := readMem_writeBytes_other t.line.rm addr values ha
      rw [hrec.rm] at h
      rw [← h, ← hrec.rm]
      rfl
  case repeated =>
    obtain ⟨t, ht, hresp, hframe, -, hkept, -⟩ := interruptedWriteIsTorn s addr values k lost data [] hv hc hm hne hl hk
      (fun _ => by rw [hlost]; decide) (fun _ => by rw [hlost]; decide) (fun _ => by rw [hlost]; decide) (by simp) hans
    obtain ⟨-, -, u, hu, rfl⟩ := execWriteBulk_eq_next_iff.mp ht
    have hcfg : u.cfg = s.cfg := (writeRegs_frame hu).1.cfg
    have hans' : u.line.answers = [] := writeRegs_answers_nil hu (by
      rw [hans, List.length_append, List.length_replicate, List.length_singleton]; omega)
    have hpu : PlainChip (respond [boolByte u.raFault] u) := ⟨hans', by rw [respond_cfg, hcfg]; exact hc⟩
    have hvu : configValid (respond [boolByte u.raFault] u).cfg = true := by rw [respond_cfg, hcfg]; exact hv
    have hmu : memWf u.line.rm = true := (writeRegs_frame hu).1.memWf hm
    refine ⟨_, _, ht, hresp, hframe.2.2.1.1, execWriteBulk_plainChip hvu hpu addr hne, rfl,
      fun j hj => readMem_writeBytes_at hmu addr values (by omega) j hj, fun a ha => ?_⟩
    have hsub : a ∉ addrsFrom addr (k - 3) := by
      rw [mem_addrsFrom] at ha ⊢
      rintro ⟨j, hj, he⟩
      exact ha ⟨j, by omega, he⟩
    exact (readMem_writeBytes_other u.line.rm addr values ha).trans (hkept a hsub)

end Sys2Proof.Machine
end

section
/-! Proofs about the Synthesizer Controller (`spec/44_controller.md`): the bus work and the mirror writes that each operation is
made of, in every environment. -/

namespace Sys2Proof.Machine

/-! ### The recorded status stays a pair (R89) -/

theorem runCall_paired {c : TransportCall} {s : State} {st : Status} {t : State} (h : runCall c s = .done st t)
    (hp : StatusPaired s) : StatusPaired t := by
  have hcfg : t.cfg = s.cfg := (runCall_busOnly h).cfg
  cases c with
  | start =>
    obtain ⟨hs, hr, he⟩ := callStart_eq_done h
    have ht := startAfter_tstat hs s
    rw [← he] at ht
    rw [StatusPaired, hcfg, ht]
    exact reply_paired hr
  | address read =>
    obtain ⟨hs, hr, he⟩ := callAddress_eq_done h
    have ht := addressAfter_tstat s.cfg.chipAddr read hs s
    rw [← he] at ht
    rw [StatusPaired, hcfg, ht]
    exact reply_paired hr
  | byte b =>
    obtain ⟨hs, hr, he⟩ := callSend_eq_done h
    have ht := sendAfter_tstat b hs s
    rw [← he] at ht
    rw [StatusPaired, hcfg, ht]
    exact reply_paired hr
  | stop =>
    obtain ⟨_, u, hu, h⟩ := Run.bind_eq_done h
    obtain ⟨-, rfl⟩ := callStop_eq_done hu
    cases h
    exact hp

theorem runCalls_paired {cs : List TransportCall} {s t : State} (h : runCalls cs s = .done () t) (hp : StatusPaired s) :
    StatusPaired t := by
  induction cs generalizing s with
  | nil => cases h; exact hp
  | cons c cs ih =>
    obtain ⟨st, u, hu, hrest⟩ := runCalls_cons_eq_done h
    have hpu : StatusPaired u := runCall_paired hu hp
    exact ih hrest hpu

theorem callReceive_paired {s : State} {r : Byte × Status} {t : State} (h : callReceive s = .done r t) : StatusPaired t := by
  have hcfg : t.cfg = s.cfg := (callReceive_busOnly h).cfg
  obtain ⟨hs, hr, he⟩ := callReceive_eq_done h
  have ht := receiveAfter_tstat hs s
  rw [← he] at ht
  rw [StatusPaired, hcfg, ht]
  exact reply_paired hr

theorem writeRegs_paired {addr : Byte} {values : List Byte} {s t : State} (h : writeRegs addr values s = .done () t)
    (hp : StatusPaired s) : StatusPaired t := by
  obtain ⟨u, hu, rfl⟩ := writeRegs_eq_done h
  have hpu : StatusPaired u := runCalls_paired (s := raBegin s) hu hp
  exact hpu

theorem readReg_paired {addr v : Byte} {s t : State} (h : readReg addr s = .done v t) : StatusPaired t := by
  obtain ⟨u, r, w, x, -, hw, hx, -, rfl⟩ := readReg_eq_done h
  have hpw : StatusPaired w := callReceive_paired hw
  have hpx : StatusPaired x := runCalls_paired (s := latch r.2 w) hx hpw
  obtain hv | hv := readValue_snd r x <;> rw [hv]
  · exact hpx
  · exact hpx

theorem updateReg_paired {addr mask value : Byte} {s t : State} (h : updateReg addr mask value s = .done () t) :
    StatusPaired t := by
  obtain ⟨old, u, w, hu, hw, rfl⟩ := updateReg_eq_done_iff.mp h
  exact writeRegs_paired (t := w) hw (readReg_paired hu)

theorem runRaOps_paired {os : List RaOp} {s : State} {f : Bool} {t : State} (h : runRaOps os s = .done f t)
    (hp : StatusPaired s) : StatusPaired t := by
  induction os generalizing s f with
  | nil => cases h; exact hp
  | cons o os ih =>
    obtain ⟨_, u, hu, h⟩ := Run.bind_eq_done h
    obtain ⟨g, w, hw, h⟩ := Run.bind_eq_done h
    cases h
    refine ih hw ?_
    cases o with
    | write addr values => exact writeRegs_paired hu hp
    | update addr mask value => exact updateReg_paired hu

/-! ### The bus work of an operation -/

/-- From `s` to `t` the bus work of a list of register operations was done, whatever was done to the mirrors meanwhile: what
holds of it in every environment, and what it does to the plain chip. -/
structure BusWork (os : List RaOp) (s t : State) : Prop where
  nonempty : os ≠ []
  cfg : t.cfg = s.cfg
  command : t.command = s.command
  idle : TransportIdle t
  closed : LinesClosed t
  answers : t.line.answers <:+ s.line.answers
  memWf : memWf s.line.rm = true → memWf t.line.rm = true
  paired : StatusPaired s → StatusPaired t
  plain : PlainChip s → Machine.memWf s.line.rm = true → t.raFault = false ∧ t.line.rm = opsMem os s.line.rm ∧
    t.line.events = s.line.events ++ opsFrames s.cfg s.line.rm os

/-- What the bus work is about: all of the state but the mirrors, the response and the free index. -/
def busPart (s : State) : Config × (ProtState × Direction × Wait × Option Nat) × HwStatus × Bool × LineEnv × List Byte :=
  (s.cfg, (s.ps, s.dir, s.wait, s.seq), s.tstat, s.raFault, s.line, s.command)

@[simp] theorem busPart_respond (bs : List Byte) (s : State) : busPart (respond bs s) = busPart s := rfl

@[simp] theorem busPart_setChOf (s : State) (i : Channel) (v : ClockChannel) : busPart (setChOf s i v) = busPart s := by
  cases i <;> rfl

@[simp] theorem busPart_setFrequencyOf (s : State) (x : Pll) (freq : Nat) : busPart (setFrequencyOf s x freq) = busPart s := by
  cases x <;> rfl

@[simp] theorem busPart_setCorrectionOf (s : State) (x : Pll) (ppb : BitVec 32) :
    busPart (setCorrectionOf s x ppb) = busPart s := by
  cases x <;> rfl

@[simp] theorem busPart_initMirrors (s : State) : busPart (initMirrors s) = busPart s := rfl

theorem busPart_eq_iff {s t : State} :
    busPart t = busPart s ↔ t.cfg = s.cfg ∧ (t.ps = s.ps ∧ t.dir = s.dir ∧ t.wait = s.wait ∧ t.seq = s.seq) ∧
      t.tstat = s.tstat ∧ t.raFault = s.raFault ∧ t.line = s.line ∧ t.command = s.command := by
  simp only [busPart, Prod.mk.injEq]

namespace BusWork

theorem of_runRaOps {os : List RaOp} (hne : os ≠ []) {s : State} {f : Bool} {t : State} (h : runRaOps os s = .done f t) :
    BusWork os s t where
  nonempty := hne
  cfg := (runRaOps_busOnly h).cfg
  command := (runRaOps_busOnly h).command
  idle := (runRaOps_idle hne h).1
  closed := (runRaOps_idle hne h).2
  answers := (runRaOps_busOnly h).answers
  memWf := (runRaOps_busOnly h).memWf
  paired := runRaOps_paired h
  plain := fun hp hm => by
    obtain ⟨g, u, hu, -, hf, hrm, hev⟩ := runRaOps_plainChip hp hm os
    rw [h] at hu
    cases hu
    exact ⟨hf hne, hrm, hev⟩

theorem of_updateReg {addr mask value : Byte} {s t : State} (h : updateReg addr mask value s = .done () t) :
    BusWork [.update addr mask value] s t := by
  obtain ⟨f, hf⟩ := runRaOps_update_eq_done_iff.mpr h
  exact of_runRaOps (List.cons_ne_nil _ _) hf

theorem responsive {os : List RaOp} {s t : State} (h : BusWork os s t) (r : Responsive s) : Responsive t := fun hm =>
  r (h.answers.subset hm)

theorem plainChip {os : List RaOp} {s t : State} (h : BusWork os s t) (r : PlainChip s) : PlainChip t := by
  have hans := h.answers
  rw [r.1] at hans
  exact ⟨List.suffix_nil.mp hans, h.cfg ▸ r.2⟩

theorem trans {os ps : List RaOp} {s t u : State} (h : BusWork os s t) (k : BusWork ps t u) : BusWork (os ++ ps) s u where
  nonempty := fun he => h.nonempty (List.append_eq_nil_iff.mp he).1
  cfg := k.cfg.trans h.cfg
  command := k.command.trans h.command
  idle := k.idle
  closed := k.closed
  answers := k.answers.trans h.answers
  memWf := fun hm => k.memWf (h.memWf hm)
  paired := fun hp => k.paired (h.paired hp)
  plain := fun hp hm => by
    obtain ⟨-, hrm, hev⟩ := h.plain hp hm
    obtain ⟨hf, hrm', hev'⟩ := k.plain (h.plainChip hp) (h.memWf hm)
    refine ⟨hf, by rw [hrm', hrm, opsMem_append], ?_⟩
    rw [hev', hev, hrm, h.cfg, opsFrames_append, List.append_assoc]

/-- A mirror write after the bus work. -/
theorem before_mirrors {os : List RaOp} {s t u : State} (h : BusWork os s t) (hu : busPart u = busPart t) :
    BusWork os s u := by
  obtain ⟨hcfg, ⟨hps, hdir, hwait, hseq⟩, htstat, hra, hline, hcommand⟩ := busPart_eq_iff.mp hu
  exact {
    nonempty := h.nonempty
    cfg := hcfg.trans h.cfg
    command := hcommand.trans h.command
    idle := by rw [TransportIdle, hps, hdir, hwait, hseq]; exact h.idle
    closed := by rw [LinesClosed, hline]; exact h.closed
    answers := by rw [hline]; exact h.answers
    memWf := by rw [hline]; exact h.memWf
    paired := by rw [StatusPaired, StatusPaired, hcfg, htstat]; exact h.paired
    plain := by rw [hra, hline]; exact h.plain }

/-- A mirror write before the bus work. -/
theorem after_mirrors {os : List RaOp} {s t u : State} (h : BusWork os s t) (hu : busPart s = busPart u) :
    BusWork os u t := by
  obtain ⟨hcfg, -, htstat, -, hline, hcommand⟩ := busPart_eq_iff.mp hu
  exact {
    nonempty := h.nonempty
    cfg := h.cfg.trans hcfg
    command := h.command.trans hcommand
    idle := h.idle
    closed := h.closed
    answers := hline ▸ h.answers
    memWf := hline ▸ h.memWf
    paired := fun hp => h.paired (by rw [StatusPaired, hcfg, htstat]; exact hp)
    plain := fun hp hm => by
      have hk := h.plain (by rw [PlainChip, hline, hcfg]; exact hp) (by rw [hline]; exact hm)
      rw [hcfg, hline] at hk
      exact hk }

end BusWork

/-! ### The mirrors of two states -/

namespace MirrorsKept

theorem trans {s t u : State} (h : MirrorsKept s t) (k : MirrorsKept t u) : MirrorsKept s u := by
  obtain ⟨hc, hi, hA, hB, h0, h1, h2⟩ := h
  obtain ⟨kc, ki, kA, kB, k0, k1, k2⟩ := k
  exact ⟨kc.trans hc, ki.trans hi, kA.trans hA, kB.trans hB, k0.trans h0, k1.trans h1, k2.trans h2⟩

theorem pllOf {s t : State} (h : MirrorsKept s t) (x : Pll) : pllOf t x = pllOf s x := by
  obtain ⟨-, -, hA, hB, -⟩ := h
  cases x
  · exact hA
  · exact hB

theorem chOf {s t : State} (h : MirrorsKept s t) (i : Channel) : chOf t i = chOf s i := by
  obtain ⟨-, -, -, -, h0, h1, h2⟩ := h
  cases i
  · exact h0
  · exact h1
  · exact h2

theorem setFrequencyOf {s t : State} (h : MirrorsKept s t) (x : Pll) (freq : Nat) :
    MirrorsKept (setFrequencyOf s x freq) (setFrequencyOf t x freq) := by
  obtain ⟨hc, hi, hA, hB, h0, h1, h2⟩ := h
  cases x
  · exact ⟨hc, hi, congrArg (fun p => { p with frequency := BitVec.ofNat 64 freq }) hA, hB, h0, h1, h2⟩
  · exact ⟨hc, hi, hA, congrArg (fun p => { p with frequency := BitVec.ofNat 64 freq }) hB, h0, h1, h2⟩

theorem setChOf {s t : State} (h : MirrorsKept s t) (i : Channel) (v : ClockChannel) :
    MirrorsKept (setChOf s i v) (setChOf t i v) := by
  obtain ⟨hc, hi, hA, hB, h0, h1, h2⟩ := h
  cases i
  · exact ⟨hc, hi, hA, hB, rfl, h1, h2⟩
  · exact ⟨hc, hi, hA, hB, h0, rfl, h2⟩
  · exact ⟨hc, hi, hA, hB, h0, h1, rfl⟩

theorem initMirrors {s t : State} (h : MirrorsKept s t) : MirrorsKept (initMirrors s) (initMirrors t) := by
  obtain ⟨hc, hi, hA, hB, h0, h1, h2⟩ := h
  refine ⟨hc, rfl, hA, hB, ?_, ?_, ?_⟩
  · rw [initMirrors_ch0, initMirrors_ch0, hc, h0]
  · rw [initMirrors_ch1, initMirrors_ch1, hc, h1]
  · rw [initMirrors_ch2, initMirrors_ch2, hc, h2]

end MirrorsKept

/-! ### The outcome of a controller operation -/

/-- A controller operation that has done the bus work of `os` from `s` and left the mirrors of `m` ends in `t` (R196). -/
structure CtlOutcome (os : List RaOp) (s m t : State) : Prop where
  bus : BusWork os s t
  mirrors : MirrorsKept m t
  response : t.response = []

theorem ctlOutcome_respond {os : List RaOp} {s m t u : State} (hb : BusWork os s t) (hu : busPart u = busPart t)
    (hm : MirrorsKept m u) : CtlOutcome os s m (respond [] u) where
  bus := hb.before_mirrors ((busPart_respond [] u).trans hu)
  mirrors := hm
  response := rfl

/-! ### The procedures of the controller -/

/-- The write of a PLL's parameter block (R197). -/
def pllOp (c : Config) (x : Pll) (p : PllPlan) : RaOp := .write (pllParamsAddr c x) (ser8 p.fields 0#3 0b00#2)

theorem doSetPll_eq_done {x : Pll} {p : PllPlan} {s : State} {f : Bool} {t : State} (h : doSetPll x p s = .done f t) :
    BusWork [pllOp s.cfg x p] s t ∧ MirrorsKept (setFrequencyOf s x p.target) t := by
  obtain ⟨g, u, hu, h⟩ := Run.bind_eq_done h
  cases h
  exact ⟨(BusWork.of_runRaOps (List.cons_ne_nil _ _) hu).before_mirrors (busPart_setFrequencyOf u x p.target),
    (runRaOps_busOnly hu).mirrorsKept.setFrequencyOf x p.target⟩

theorem doSetPll_of_responsive {s : State} (h : Responsive s) (x : Pll) (p : PllPlan) :
    ∃ f t, doSetPll x p s = .done f t := by
  obtain ⟨f, u, hu⟩ := runRaOps_of_responsive h [.write (pllParamsAddr s.cfg x) (ser8 p.fields 0#3 0b00#2)]
  exact ⟨f, _, by rw [doSetPll, hu]; rfl⟩

/-- The mirrors of SET_CORRECTION (R205). -/
def correctionMirrors (s : State) (ppb : BitVec 32) (pa pb : PllPlan) : State :=
  setFrequencyOf (setFrequencyOf (setCorrectionOf (setCorrectionOf s .a ppb) .b ppb) .a pa.target) .b pb.target

theorem runCorrection_eq_done {ppb : BitVec 32} {pa pb : PllPlan} {s t : State}
    (h : runCorrection ppb pa pb s = .done () t) :
    BusWork [pllOp s.cfg .a pa, pllOp s.cfg .b pb] s t ∧ MirrorsKept (correctionMirrors s ppb pa pb) t := by
  obtain ⟨_, u, hu, h⟩ := Run.bind_eq_done h
  obtain ⟨_, w, hw, h⟩ := Run.bind_eq_done h
  cases h
  obtain ⟨hbu, hmu⟩ := doSetPll_eq_done hu
  obtain ⟨hbw, hmw⟩ := doSetPll_eq_done hw
  have hcfg : u.cfg = s.cfg := hbu.cfg
  rw [hcfg] at hbw
  exact ⟨(hbu.after_mirrors (u := s) rfl).trans hbw, (hmu.setFrequencyOf .b pb.target).trans hmw⟩

theorem runCorrection_of_responsive {s : State} (h : Responsive s) (ppb : BitVec 32) (pa pb : PllPlan) :
    ∃ t, runCorrection ppb pa pb s = .done () t := by
  obtain ⟨_, u, hu⟩ := doSetPll_of_responsive (s := setCorrectionOf (setCorrectionOf s .a ppb) .b ppb) h .a pa
  obtain ⟨_, w, hw⟩ := doSetPll_of_responsive ((doSetPll_eq_done hu).1.responsive h) .b pb
  exact ⟨w, by rw [runCorrection, hu]; simp only [Run.bind_done]; rw [hw]; rfl⟩

/-- All register operations of INITIALIZE, in order (R198). -/
def initOps (c : Config) (pa pb : PllPlan) : List RaOp :=
  initHeadOps c ++ ([pllOp c .a pa] ++ ([pllOp c .b pb] ++ initTailOps c))

/-- The PLL mirrors of INITIALIZE (R198). -/
def bringUpMirrors (s : State) (pa pb : PllPlan) : State := setFrequencyOf (setFrequencyOf s .a pa.target) .b pb.target

theorem initHeadOps_ne_nil (c : Config) : initHeadOps c ≠ [] := by simp [initHeadOps]

theorem initTailOps_ne_nil (c : Config) : initTailOps c ≠ [] := by simp [initTailOps]

theorem runInit_eq_done {pa pb : PllPlan} {s t : State} (h : runInit pa pb s = .done () t) :
    BusWork (initOps s.cfg pa pb) s t ∧ MirrorsKept (initMirrors (bringUpMirrors s pa pb)) t := by
  obtain ⟨_, u, hu, h⟩ := Run.bind_eq_done h
  obtain ⟨_, v, hv, h⟩ := Run.bind_eq_done h
  obtain ⟨_, w, hw, h⟩ := Run.bind_eq_done h
  obtain ⟨_, x, hx, h⟩ := Run.bind_eq_done h
  cases h
  have hbu := BusWork.of_runRaOps (initHeadOps_ne_nil _) hu
  obtain ⟨hbv, hmv⟩ := doSetPll_eq_done hv
  obtain ⟨hbw, hmw⟩ := doSetPll_eq_done hw
  have hbx := BusWork.of_runRaOps (initTailOps_ne_nil _) hx
  have hcu : u.cfg = s.cfg := hbu.cfg
  have hcv : v.cfg = s.cfg := hbv.cfg.trans hcu
  have hcw : w.cfg = s.cfg := hbw.cfg.trans hcv
  rw [hcu] at hbv
  rw [hcv] at hbw
  rw [hcw] at hbx
  refine ⟨(hbu.trans (hbv.trans (hbw.trans hbx))).before_mirrors (busPart_initMirrors x), ?_⟩
  have hv' := ((runRaOps_busOnly hu).mirrorsKept.setFrequencyOf .a pa.target).trans hmv
  have hw' := (hv'.setFrequencyOf .b pb.target).trans hmw
  exact (hw'.trans (runRaOps_busOnly hx).mirrorsKept).initMirrors

theorem runInit_of_responsive {s : State} (h : Responsive s) (pa pb : PllPlan) : ∃ t, runInit pa pb s = .done () t := by
  obtain ⟨_, u, hu⟩ := runRaOps_of_responsive h (initHeadOps s.cfg)
  have hru := (runRaOps_busOnly hu).responsive h
  obtain ⟨_, v, hv⟩ := doSetPll_of_responsive hru .a pa
  have hrv := (doSetPll_eq_done hv).1.responsive hru
  obtain ⟨_, w, hw⟩ := doSetPll_of_responsive hrv .b pb
  have hrw := (doSetPll_eq_done hw).1.responsive hrv
  obtain ⟨_, x, hx⟩ := runRaOps_of_responsive hrw (initTailOps w.cfg)
  refine ⟨initMirrors x, ?_⟩
  rw [runInit, hu]
  simp only [Run.bind_done]
  rw [hv]
  simp only [Run.bind_done]
  rw [hw]
  simp only [Run.bind_done]
  rw [hx]
  rfl

/-! ### The operations: when each answers a next state -/

theorem whenInited_eq_next_iff {s : State} {r : Result} {t : State} :
    whenInited s r = .next t ↔ configValid s.cfg = true ∧ s.inited = true ∧ r = .next t :=
  ⟨whenInited_eq_next, fun ⟨hv, hi, h⟩ => by rw [whenInited_of_inited hv hi, h]⟩

theorem finish_unit_eq_next_iff {r : Run Unit} {t : State} :
    (r.finish fun _ u => respond [] u) = .next t ↔ ∃ u, r = .done () u ∧ t = respond [] u := by
  rw [Run.finish_eq_next_iff]
  exact ⟨fun ⟨_, u, hu, ht⟩ => ⟨u, hu, ht⟩, fun ⟨u, hu, ht⟩ => ⟨(), u, hu, ht⟩⟩

theorem execInitialize_eq_next_iff {s t : State} :
    execInitialize s = .next t ↔ configValid s.cfg = true ∧
      ∃ pa pb u, planStage s.cfg s.cfg.pllBringupX100 s.pllA.correctionPpb = .ok pa ∧
        planStage s.cfg s.cfg.pllBringupX100 s.pllB.correctionPpb = .ok pb ∧ runInit pa pb s = .done () u ∧
        t = respond [] u := by
  rw [execInitialize, whenConfigured_eq_next_iff]
  refine and_congr_right fun _ => ?_
  cases ha : planStage s.cfg s.cfg.pllBringupX100 s.pllA.correctionPpb with
  | error r => simp
  | ok pa =>
    cases hb : planStage s.cfg s.cfg.pllBringupX100 s.pllB.correctionPpb with
    | error r => simp
    | ok pb => simp [finish_unit_eq_next_iff]

theorem execSetPll_eq_next_iff {freq : U64} {x : Pll} {s t : State} :
    execSetPll freq x s = .next t ↔ configValid s.cfg = true ∧ s.inited = true ∧
      ∃ p f u, planStage s.cfg freq.toNat (pllOf s x).correctionPpb = .ok p ∧ doSetPll x p s = .done f u ∧
        t = respond [] u := by
  rw [execSetPll, whenInited_eq_next_iff]
  refine and_congr_right fun _ => and_congr_right fun _ => ?_
  cases ha : planStage s.cfg freq.toNat (pllOf s x).correctionPpb with
  | error r => simp
  | ok p => simp [Run.finish_eq_next_iff]

theorem execSetCorrection_eq_next_iff {ppb : BitVec 32} {r : Reference} {s t : State} :
    execSetCorrection ppb r s = .next t ↔ configValid s.cfg = true ∧ s.inited = true ∧
      ∃ pa pb u, planStage s.cfg s.pllA.frequency.toNat ppb = .ok pa ∧ planStage s.cfg s.pllB.frequency.toNat ppb = .ok pb ∧
        runCorrection ppb pa pb s = .done () u ∧ t = respond [] u := by
  rw [execSetCorrection, whenInited_eq_next_iff]
  refine and_congr_right fun _ => and_congr_right fun _ => ?_
  cases ha : planStage s.cfg s.pllA.frequency.toNat ppb with
  | error r => simp
  | ok pa =>
    cases hb : planStage s.cfg s.pllB.frequency.toNat ppb with
    | error r => simp
    | ok pb => simp [finish_unit_eq_next_iff]

/-- The exponent and the plan that SET_FREQUENCY works with (R200). -/
def frequencyPlan (s : State) (i : Channel) (freq : U64) : Except Refusal MsPlan :=
  planMultisynth s.cfg (selectRDivider s.cfg freq.toNat).2 (pllOf s (chOf s i).assignedPll).frequency.toNat true

/-- The mirrors of SET_FREQUENCY (R200, R201). -/
def frequencyMirrors (s : State) (i : Channel) (freq : U64) (p : MsPlan) : State :=
  setChOf s i { chOf s i with
    rDividerExponent := BitVec.ofNat 3 (selectRDivider s.cfg freq.toNat).1, integerMode := integerModeOf s.cfg p }

theorem execSetFrequency_eq_next_iff {i : Channel} {freq : U64} {s t : State} :
    execSetFrequency i freq s = .next t ↔ configValid s.cfg = true ∧ s.inited = true ∧
      ∃ p f u, frequencyPlan s i freq = .ok p ∧
        runRaOps (frequencyOps s.cfg i (BitVec.ofNat 3 (selectRDivider s.cfg freq.toNat).1) p) s = .done f u ∧
        t = respond [] (setChOf u i { chOf u i with
          rDividerExponent := BitVec.ofNat 3 (selectRDivider s.cfg freq.toNat).1, integerMode := integerModeOf u.cfg p }) := by
  rw [execSetFrequency, whenInited_eq_next_iff]
  refine and_congr_right fun _ => and_congr_right fun _ => ?_
  dsimp only
  rw [← frequencyPlan]
  cases ha : frequencyPlan s i freq with
  | error r => simp
  | ok p => simp [Run.finish_eq_next_iff]

theorem execPowerDown_eq_next_iff {s t : State} :
    execPowerDown s = .next t ↔ configValid s.cfg = true ∧ s.inited = true ∧
      ∃ f u, runRaOps (powerDownOps s.cfg) s = .done f u ∧ t = respond [] u := by
  rw [execPowerDown, whenInited_eq_next_iff, Run.finish_eq_next_iff]

/-- The operations that are one masked update and a mirror write: they answer in the ends of that update. -/
theorem whenInited_update_eq_next_iff {addr mask value : Byte} {k : State → State} {s t : State} :
    (whenInited s ((runRaOps [.update addr mask value] s).finish fun _ u => k u)) = .next t ↔
      configValid s.cfg = true ∧ s.inited = true ∧ ∃ w, updateReg addr mask value s = .done () w ∧ t = k w := by
  rw [whenInited_eq_next_iff, Run.finish_eq_next_iff, exists_comm]
  refine and_congr_right fun _ => and_congr_right fun _ => exists_congr fun w => ?_
  rw [exists_and_right, runRaOps_update_eq_done_iff]

theorem execOutputEnable_eq_next_iff {i : Channel} {enable : Bool} {s t : State} :
    execOutputEnable i enable s = .next t ↔ configValid s.cfg = true ∧ s.inited = true ∧
      ∃ w, updateReg s.cfg.regOutputEnable (bitMask (channelNumber i)) (bitValue (oeBit s.cfg enable) (channelNumber i)) s =
          .done () w ∧ t = respond [] (setChOf w i { chOf w i with enabled := enable }) :=
  whenInited_update_eq_next_iff

theorem execSetClockPower_eq_next_iff {i : Channel} {on : Bool} {s t : State} :
    execSetClockPower i on s = .next t ↔ configValid s.cfg = true ∧ s.inited = true ∧
      ∃ w, updateReg (clkCtrlAddr s.cfg i) (bitMask s.cfg.ccPdn.val) (bitValue (!on) s.cfg.ccPdn.val) s = .done () w ∧
        t = respond [] w :=
  whenInited_update_eq_next_iff

theorem execSetPllAssignment_eq_next_iff {i : Channel} {x : Pll} {s t : State} :
    execSetPllAssignment i x s = .next t ↔ configValid s.cfg = true ∧ s.inited = true ∧
      ∃ w, updateReg (clkCtrlAddr s.cfg i) (bitMask s.cfg.ccPllSel.val) (bitValue (x == .b) s.cfg.ccPllSel.val) s =
          .done () w ∧ t = respond [] (setChOf w i { chOf w i with assignedPll := x }) :=
  whenInited_update_eq_next_iff

theorem execDriveStrength_eq_next {i : Channel} {level : BitVec 2} {s t : State} (h : execDriveStrength i level s = .next t) :
    configValid s.cfg = true ∧ s.inited = true ∧
      ∃ w, updateReg (clkCtrlAddr s.cfg i) (3#8 <<< s.cfg.ccDrv.val) (level.zeroExtend 8 <<< s.cfg.ccDrv.val) s =
          .done () w ∧ t = respond [] (setChOf w i { chOf s i with driveStrength := level }) := by
  obtain ⟨hv, hi, -⟩ := whenInited_eq_next h
  exact ⟨hv, hi, (execDriveStrength_eq_next_iff hv hi).mp h⟩

/-! ### The operations: what each has done when it answers a next state -/

theorem execInitialize_outcome {s t : State} (h : execInitialize s = .next t) :
    ∃ pa pb, planStage s.cfg s.cfg.pllBringupX100 s.pllA.correctionPpb = .ok pa ∧
      planStage s.cfg s.cfg.pllBringupX100 s.pllB.correctionPpb = .ok pb ∧
      CtlOutcome (initOps s.cfg pa pb) s (initMirrors (bringUpMirrors s pa pb)) t := by
  obtain ⟨-, pa, pb, u, ha, hb, hu, rfl⟩ := execInitialize_eq_next_iff.mp h
  obtain ⟨hbus, hm⟩ := runInit_eq_done hu
  exact ⟨pa, pb, ha, hb, ctlOutcome_respond hbus rfl hm⟩

theorem execSetPll_outcome {freq : U64} {x : Pll} {s t : State} (h : execSetPll freq x s = .next t) :
    ∃ p, planStage s.cfg freq.toNat (pllOf s x).correctionPpb = .ok p ∧
      CtlOutcome [pllOp s.cfg x p] s (setFrequencyOf s x p.target) t := by
  obtain ⟨-, -, p, f, u, hp, hu, rfl⟩ := execSetPll_eq_next_iff.mp h
  obtain ⟨hbus, hm⟩ := doSetPll_eq_done hu
  exact ⟨p, hp, ctlOutcome_respond hbus rfl hm⟩

theorem execSetCorrection_outcome {ppb : BitVec 32} {r : Reference} {s t : State} (h : execSetCorrection ppb r s = .next t) :
    ∃ pa pb, planStage s.cfg s.pllA.frequency.toNat ppb = .ok pa ∧ planStage s.cfg s.pllB.frequency.toNat ppb = .ok pb ∧
      CtlOutcome [pllOp s.cfg .a pa, pllOp s.cfg .b pb] s (correctionMirrors s ppb pa pb) t := by
  obtain ⟨-, -, pa, pb, u, ha, hb, hu, rfl⟩ := execSetCorrection_eq_next_iff.mp h
  obtain ⟨hbus, hm⟩ := runCorrection_eq_done hu
  exact ⟨pa, pb, ha, hb, ctlOutcome_respond hbus rfl hm⟩

theorem execSetFrequency_outcome {i : Channel} {freq : U64} {s t : State} (h : execSetFrequency i freq s = .next t) :
    ∃ p, frequencyPlan s i freq = .ok p ∧
      CtlOutcome (frequencyOps s.cfg i (BitVec.ofNat 3 (selectRDivider s.cfg freq.toNat).1) p) s
        (frequencyMirrors s i freq p) t := by
  obtain ⟨-, -, p, f, u, hp, hu, rfl⟩ := execSetFrequency_eq_next_iff.mp h
  have hb := runRaOps_busOnly hu
  refine ⟨p, hp, ctlOutcome_respond (BusWork.of_runRaOps (List.cons_ne_nil _ _) hu) (busPart_setChOf u i _) ?_⟩
  rw [hb.chOf i, hb.cfg]
  exact hb.mirrorsKept.setChOf i _

theorem execPowerDown_outcome {s t : State} (h : execPowerDown s = .next t) : CtlOutcome (powerDownOps s.cfg) s s t := by
  obtain ⟨-, -, f, u, hu, rfl⟩ := execPowerDown_eq_next_iff.mp h
  exact ctlOutcome_respond (BusWork.of_runRaOps (List.cons_ne_nil _ _) hu) rfl (runRaOps_busOnly hu).mirrorsKept

/-- A masked update and a write of one channel record. -/
theorem ctlOutcome_of_update {addr mask value : Byte} {s w : State} (h : updateReg addr mask value s = .done () w)
    (i : Channel) (v : ClockChannel) :
    CtlOutcome [.update addr mask value] s (setChOf s i v) (respond [] (setChOf w i v)) :=
  ctlOutcome_respond (BusWork.of_updateReg h) (busPart_setChOf w i v) ((updateReg_frame h).1.mirrorsKept.setChOf i v)

theorem execOutputEnable_outcome {i : Channel} {enable : Bool} {s t : State} (h : execOutputEnable i enable s = .next t) :
    CtlOutcome [.update s.cfg.regOutputEnable (bitMask (channelNumber i))
      (bitValue (oeBit s.cfg enable) (channelNumber i))] s (setChOf s i { chOf s i with enabled := enable }) t := by
  obtain ⟨-, -, w, hw, rfl⟩ := execOutputEnable_eq_next_iff.mp h
  rw [(updateReg_frame hw).1.chOf i]
  exact ctlOutcome_of_update hw i _

theorem execDriveStrength_outcome {i : Channel} {level : BitVec 2} {s t : State} (h : execDriveStrength i level s = .next t) :
    CtlOutcome [.update (clkCtrlAddr s.cfg i) (3#8 <<< s.cfg.ccDrv.val) (level.zeroExtend 8 <<< s.cfg.ccDrv.val)] s
      (setChOf s i { chOf s i with driveStrength := level }) t := by
  obtain ⟨-, -, w, hw, rfl⟩ := execDriveStrength_eq_next h
  exact ctlOutcome_of_update hw i _

theorem execSetPllAssignment_outcome {i : Channel} {x : Pll} {s t : State} (h : execSetPllAssignment i x s = .next t) :
    CtlOutcome [.update (clkCtrlAddr s.cfg i) (bitMask s.cfg.ccPllSel.val) (bitValue (x == .b) s.cfg.ccPllSel.val)] s
      (setChOf s i { chOf s i with assignedPll := x }) t := by
  obtain ⟨-, -, w, hw, rfl⟩ := execSetPllAssignment_eq_next_iff.mp h
  rw [(updateReg_frame hw).1.chOf i]
  exact ctlOutcome_of_update hw i _

theorem execSetClockPower_outcome {i : Channel} {on : Bool} {s t : State} (h : execSetClockPower i on s = .next t) :
    CtlOutcome [.update (clkCtrlAddr s.cfg i) (bitMask s.cfg.ccPdn.val) (bitValue (!on) s.cfg.ccPdn.val)] s s t := by
  obtain ⟨-, -, w, hw, rfl⟩ := execSetClockPower_eq_next_iff.mp h
  exact ctlOutcome_respond (BusWork.of_updateReg hw) rfl (updateReg_frame hw).1.mirrorsKept

/-! ### R206, R207, R209 -/

theorem bitValue_oeBit (c : Config) (enable : Bool) (n : Nat) :
    bitValue (oeBit c enable) n = if enable = c.oeActiveLow then 0#8 else 1#8 <<< n := by
  unfold bitValue oeBit bitMask
  cases enable <;> cases c.oeActiveLow <;> rfl

theorem bitValue_not (on : Bool) (n : Nat) : bitValue (!on) n = if on then 0#8 else 1#8 <<< n := by
  cases on <;> rfl

theorem bitValue_pll (x : Pll) (n : Nat) : bitValue (x == .b) n = if x = .b then 1#8 <<< n else 0#8 := by
  cases x <;> rfl

/-- A masked update with a write of one channel record is that of UPDATE_REG, whose response is written over. -/
theorem update_setChOf_iff {addr mask value : Byte} {s t : State} (hv : configValid s.cfg = true) (i : Channel)
    (f : ClockChannel → ClockChannel) :
    (∃ w, updateReg addr mask value s = .done () w ∧ t = respond [] (setChOf w i (f (chOf w i)))) ↔
      ∃ u, execUpdateReg addr mask value s = .next u ∧ t = respond [] (setChOf u i (f (chOf s i))) := by
  simp only [execUpdateReg_eq_next_iff hv]
  constructor
  · rintro ⟨w, hw, rfl⟩
    refine ⟨_, ⟨w, hw, rfl⟩, ?_⟩
    rw [respond_setChOf_respond, (updateReg_frame hw).1.chOf i]
  · rintro ⟨_, ⟨w, hw, rfl⟩, rfl⟩
    refine ⟨w, hw, ?_⟩
    rw [respond_setChOf_respond, (updateReg_frame hw).1.chOf i]

/-- Settles O54: the update leaves the mirrors alone, and the response that UPDATE_REG adds is written over. -/
theorem maskedUpdateOperations : Obligations.MaskedUpdateOperations := by
  intro s t i hv hi
  refine ⟨fun enable => ?enable, fun on => ?power, fun which => ?assign⟩
  case enable =>
    have h := update_setChOf_iff (addr := s.cfg.regOutputEnable) (mask := bitMask (channelNumber i))
      (value := bitValue (oeBit s.cfg enable) (channelNumber i)) (t := t) hv i fun v => { v with enabled := enable }
    rw [exec_outputEnable, execOutputEnable_eq_next_iff]
    simp only [hv, hi, true_and]
    rw [h, bitValue_oeBit]
    exact Iff.rfl
  case power =>
    rw [exec_setClockPower, execSetClockPower_eq_next_iff, bitValue_not]
    simp only [hv, hi, true_and, exec_updateReg, execUpdateReg_eq_next_iff hv]
    constructor
    · rintro ⟨w, hw, rfl⟩
      exact ⟨_, ⟨w, hw, rfl⟩, rfl⟩
    · rintro ⟨_, ⟨w, hw, rfl⟩, rfl⟩
      exact ⟨w, hw, rfl⟩
  case assign =>
    have h := update_setChOf_iff (addr := clkCtrlAddr s.cfg i) (mask := bitMask s.cfg.ccPllSel.val)
      (value := bitValue (which == .b) s.cfg.ccPllSel.val) (t := t) hv i fun v => { v with assignedPll := which }
    rw [exec_setPllAssignment, execSetPllAssignment_eq_next_iff]
    simp only [hv, hi, true_and]
    rw [h, bitValue_pll]
    exact Iff.rfl

end Sys2Proof.Machine
end

section
/-! Proofs about the machine as a whole: what every operation leaves alone (`spec/10_state.md` R29), the invariant of the machine
between operations (R21 to R27), and the hang of an operation whose call is never answered (`spec/60_exceptions.md` R238). -/

namespace Sys2Proof.Machine

/-! ### What an operation of the lower layers answers -/

/-- A planner operation or the selector answers the state it began in, but for the response (R100). -/
theorem planner_eq_next {i : Instr} {s t : State} (h : exec i s = .next t)
    (hi : (∃ f r p, i = .planPll f r p) ∨ (∃ f p x, i = .planMultisynth f p x) ∨ (∃ a b c, i = .encodeFields a b c) ∨
      ∃ f, i = .selectRDivider f) : ∃ bs, t = respond bs s := by
  obtain ⟨f, r, p, rfl⟩ | ⟨f, p, x, rfl⟩ | ⟨a, b, c, rfl⟩ | ⟨f, rfl⟩ := hi
  · obtain ⟨-, h⟩ := whenConfigured_eq_next h
    split at h
    · cases h
    · cases h; exact ⟨_, rfl⟩
  · obtain ⟨-, h⟩ := whenConfigured_eq_next h
    split at h
    · cases h
    · cases h; exact ⟨_, rfl⟩
  · obtain ⟨-, h⟩ := whenConfigured_eq_next h
    split at h
    · cases h
    · cases h; exact ⟨_, rfl⟩
  · obtain ⟨-, h⟩ := whenConfigured_eq_next h
    cases h
    exact ⟨_, rfl⟩

/-- `ps` is not STOPPED, and `dir` is NONE in IDLE and STARTED (R21, R22). -/
def TransportRests (s : State) : Prop := s.ps ≠ .stopped ∧ ((s.ps = .idle ∨ s.ps = .started) → s.dir = .none)

theorem transportRests_of_idle {s : State} (hp : s.ps = .idle) (hd : s.dir = .none) : TransportRests s :=
  ⟨by rw [hp]; decide, fun _ => hd⟩

theorem transportRests_of_inside {s : State} (hp : s.ps = .addressed ∨ s.ps = .data) : TransportRests s := by
  obtain hp | hp := hp
  · exact ⟨by rw [hp]; decide, fun h => by rw [hp] at h; obtain h | h := h <;> cases h⟩
  · exact ⟨by rw [hp]; decide, fun h => by rw [hp] at h; obtain h | h := h <;> cases h⟩

theorem transportRests_afterReaction {cause : Cause} (h : cause = .nack ∨ cause = .busFault) (s : State) :
    TransportRests (afterReaction cause s) := by
  obtain rfl | rfl := h <;> exact transportRests_of_idle rfl rfl

/-- What a transport operation that answers `t` from `s` has kept of the invariant, and how it leaves the transport. -/
structure CallKeeps (s t : State) : Prop where
  frame : CallFrame s t
  memWf : memWf s.line.rm = true → memWf t.line.rm = true
  rests : TransportRests s → TransportRests t
  paired : StatusPaired s → StatusPaired t

theorem CallKeeps.respond {s t : State} (h : CallKeeps s t) (bs : List Byte) : CallKeeps s (respond bs t) :=
  ⟨h.frame, h.memWf, h.rests, h.paired⟩

theorem paired_of_answer {s t : State} {a : BusAction} {hs : HwStatus} (hr : reply s.cfg s.line a = some hs)
    (hc : t.cfg = s.cfg) (ht : t.tstat = hs) : StatusPaired t := by
  rw [StatusPaired, hc, ht]
  exact reply_paired hr

theorem startAfter_keeps {s : State} {hs : HwStatus} (hr : reply s.cfg s.line .start = some hs) :
    CallKeeps s (startAfter hs s).2 where
  frame := startAfter_callFrame hs s
  memWf := (startAfter_busOnly hs s).memWf
  paired := fun _ => paired_of_answer hr (startAfter_busOnly hs s).cfg (startAfter_tstat hs s)
  rests := fun h => by
    cases hf : startFault hs.cls with
    | none => rw [startAfter_of_success hf]; exact ⟨nofun, fun _ => rfl⟩
    | some cause =>
      rw [startAfter_of_fault hf]
      obtain rfl | rfl := startFault_cause hf
      · exact transportRests_of_idle rfl rfl
      · exact h

theorem addressAfter_keeps {s : State} {addr7 : BitVec 7} {read : Bool} {hs : HwStatus}
    (hr : reply s.cfg s.line (.address (addressByte s.cfg addr7 read)) = some hs) :
    CallKeeps s (addressAfter addr7 read hs s).2 where
  frame := addressAfter_callFrame addr7 read hs s
  memWf := (addressAfter_busOnly addr7 read hs s).memWf
  paired := fun _ => paired_of_answer hr (addressAfter_busOnly addr7 read hs s).cfg (addressAfter_tstat addr7 read hs s)
  rests := fun _ => by
    cases hf : addressFault read hs.cls with
    | none => rw [addressAfter_of_success _ _ _ hf]; exact transportRests_of_inside (.inl rfl)
    | some cause => rw [addressAfter_of_fault _ _ _ hf]; exact transportRests_afterReaction (addressFault_cause hf) _

theorem sendAfter_keeps {s : State} {b : Byte} {hs : HwStatus} (hr : reply s.cfg s.line (.tx b) = some hs) :
    CallKeeps s (sendAfter b hs s).2 where
  frame := sendAfter_callFrame b hs s
  memWf := (sendAfter_busOnly b hs s).memWf
  paired := fun _ => paired_of_answer hr (sendAfter_busOnly b hs s).cfg (sendAfter_tstat b hs s)
  rests := fun _ => by
    cases hf : txFault hs.cls with
    | none => rw [sendAfter_of_success _ _ hf]; exact transportRests_of_inside (.inr rfl)
    | some cause => rw [sendAfter_of_fault _ _ hf]; exact transportRests_afterReaction (txFault_cause hf) _

theorem receiveAfter_keeps {s : State} {hs : HwStatus} (hr : reply s.cfg s.line .rx = some hs) :
    CallKeeps s (receiveAfter hs s).2 where
  frame := receiveAfter_callFrame hs s
  memWf := (receiveAfter_busOnly hs s).memWf
  paired := fun _ => paired_of_answer hr (receiveAfter_busOnly hs s).cfg (receiveAfter_tstat hs s)
  rests := fun _ => by
    cases hf : rxOutcome hs.cls with
    | ok v => rw [receiveAfter_of_success _ hf]; exact transportRests_of_inside (.inr rfl)
    | error cause => rw [receiveAfter_of_fault _ hf]; exact transportRests_afterReaction (rxOutcome_cause hf) _

/-- The transport operations, whoever answers them (R154 to R158). -/
theorem transport_keeps {i : Instr} {s t : State} (h : exec i s = .next t)
    (hi : i = .start ∨ (∃ a r, i = .sendAddress a r) ∨ (∃ b, i = .sendByte b) ∨ i = .receiveByte ∨ i = .stop) :
    CallKeeps s t := by
  obtain rfl | ⟨addr7, read, rfl⟩ | ⟨b, rfl⟩ | rfl | rfl := hi
  · obtain ⟨-, h⟩ := whenConfigured_eq_next h
    obtain ⟨st, u, hu, rfl⟩ := Run.finish_eq_next h
    obtain ⟨hs, hr, he⟩ := callStart_eq_done hu
    have hk := startAfter_keeps hr
    rw [← he] at hk
    exact hk.respond _
  · obtain ⟨-, h⟩ := whenConfigured_eq_next h
    obtain ⟨st, u, hu, rfl⟩ := Run.finish_eq_next h
    obtain ⟨hs, hr, he⟩ := callAddress_eq_done hu
    have hk := addressAfter_keeps hr
    rw [← he] at hk
    exact hk.respond _
  · obtain ⟨-, h⟩ := whenConfigured_eq_next h
    obtain ⟨st, u, hu, rfl⟩ := Run.finish_eq_next h
    obtain ⟨hs, hr, he⟩ := callSend_eq_done hu
    have hk := sendAfter_keeps hr
    rw [← he] at hk
    exact hk.respond _
  · obtain ⟨-, h⟩ := whenConfigured_eq_next h
    obtain ⟨r, u, hu, rfl⟩ := Run.finish_eq_next h
    obtain ⟨hs, hr, he⟩ := callReceive_eq_done hu
    have hk := receiveAfter_keeps hr
    rw [← he] at hk
    exact hk.respond _
  · obtain ⟨-, h⟩ := whenConfigured_eq_next h
    obtain ⟨_, u, hu, rfl⟩ := Run.finish_eq_next h
    obtain ⟨-, rfl⟩ := callStop_eq_done hu
    exact ⟨⟨⟨rfl, rfl, rfl, rfl, rfl, rfl, rfl⟩, rfl, rfl, rfl, rfl⟩, (stopDone_busOnly s).memWf,
      fun _ => transportRests_of_idle rfl rfl, id⟩

theorem StatusPaired.respond {s : State} (h : StatusPaired s) (bs : List Byte) : StatusPaired (respond bs s) := h

/-- The Register Access Layer operations, whoever answers them (R187). -/
theorem layer_keeps {i : Instr} {s t : State} (h : exec i s = .next t)
    (hi : (∃ a, i = .readReg a) ∨ (∃ a v, i = .writeReg a v) ∨ (∃ a vs, i = .writeBulk a vs) ∨
      ∃ a m v, i = .updateReg a m v) :
    LayerFrame s t ∧ (memWf s.line.rm = true → memWf t.line.rm = true) ∧ (StatusPaired s → StatusPaired t) := by
  obtain ⟨a, rfl⟩ | ⟨a, v, rfl⟩ | ⟨a, vs, rfl⟩ | ⟨a, m, v, rfl⟩ := hi
  · obtain ⟨-, v, u, hu, rfl⟩ := execReadReg_eq_next_iff.mp h
    exact ⟨(layerFrame_of_frame (readReg_frame hu)).respond _, (readReg_frame hu).1.memWf, fun _ => (readReg_paired hu).respond _⟩
  · obtain ⟨-, u, hu, rfl⟩ := execWriteReg_eq_next_iff.mp h
    exact ⟨(layerFrame_of_frame (writeRegs_frame hu)).respond _, (writeRegs_frame hu).1.memWf,
      fun hp => (writeRegs_paired hu hp).respond _⟩
  · obtain ⟨-, -, u, hu, rfl⟩ := execWriteBulk_eq_next_iff.mp h
    exact ⟨(layerFrame_of_frame (writeRegs_frame hu)).respond _, (writeRegs_frame hu).1.memWf,
      fun hp => (writeRegs_paired hu hp).respond _⟩
  · obtain ⟨hv, -⟩ := whenConfigured_eq_next h
    obtain ⟨u, hu, rfl⟩ := (execUpdateReg_eq_next_iff hv).mp h
    exact ⟨(layerFrame_of_frame (updateReg_frame hu)).respond _, (updateReg_frame hu).1.memWf, 
      fun _ => (updateReg_paired hu).respond _⟩

/-! ### Which operations write which mirror (R29, R37) -/

/-- The mirrors of `m` differ from those of `s` only as the rules of operation `i` allow (R29). -/
structure WritesOwnMirrors (i : Instr) (s m : State) : Prop where
  keepsInited : s.inited = true → m.inited = true
  inited : m.inited ≠ s.inited → i = .initializeAll
  reference : ∀ x, (pllOf m x).referenceIndex = (pllOf s x).referenceIndex
  correction : ∀ x, (pllOf m x).correctionPpb ≠ (pllOf s x).correctionPpb → ∃ ppb r, i = .setCorrection ppb r
  frequency : ∀ x, (pllOf m x).frequency ≠ (pllOf s x).frequency →
    i = .initializeAll ∨ (∃ f, i = .setPll f x) ∨ ∃ ppb r, i = .setCorrection ppb r
  assigned : ∀ c, (chOf m c).assignedPll ≠ (chOf s c).assignedPll → i = .initializeAll ∨ ∃ x, i = .setPllAssignment c x
  divider : ∀ c, (chOf m c).rDividerExponent ≠ (chOf s c).rDividerExponent ∨ (chOf m c).integerMode ≠ (chOf s c).integerMode →
    i = .initializeAll ∨ ∃ f, i = .setFrequency c f
  drive : ∀ c, (chOf m c).driveStrength ≠ (chOf s c).driveStrength → ∃ l, i = .driveStrength c l
  enabled : ∀ c, (chOf m c).enabled ≠ (chOf s c).enabled → i = .initializeAll ∨ ∃ b, i = .outputEnable c b

namespace WritesOwnMirrors

theorem refl (i : Instr) (s : State) : WritesOwnMirrors i s s where
  keepsInited := id
  inited := fun h => absurd rfl h
  reference := fun _ => rfl
  correction := fun _ h => absurd rfl h
  frequency := fun _ h => absurd rfl h
  assigned := fun _ h => absurd rfl h
  divider := fun _ h => h.elim (absurd rfl) (absurd rfl)
  drive := fun _ h => absurd rfl h
  enabled := fun _ h => absurd rfl h

theorem of_kept {i : Instr} {s m t : State} (h : WritesOwnMirrors i s m) (hm : MirrorsKept m t) : WritesOwnMirrors i s t where
  keepsInited := by rw [hm.2.1]; exact h.keepsInited
  inited := by rw [hm.2.1]; exact h.inited
  reference := fun x => (congrArg PllState.referenceIndex (MirrorsKept.pllOf hm x)).trans (h.reference x)
  correction := fun x => by rw [MirrorsKept.pllOf hm]; exact h.correction x
  frequency := fun x => by rw [MirrorsKept.pllOf hm]; exact h.frequency x
  assigned := fun c => by rw [MirrorsKept.chOf hm]; exact h.assigned c
  divider := fun c => by rw [MirrorsKept.chOf hm]; exact h.divider c
  drive := fun c => by rw [MirrorsKept.chOf hm]; exact h.drive c
  enabled := fun c => by rw [MirrorsKept.chOf hm]; exact h.enabled c

/-- The write of one channel record, from what holds of that record. -/
theorem of_setChOf {i : Instr} {s : State} {c : Channel} {v : ClockChannel}
    (hassigned : v.assignedPll ≠ (chOf s c).assignedPll → ∃ x, i = .setPllAssignment c x)
    (hdivider : v.rDividerExponent ≠ (chOf s c).rDividerExponent ∨ v.integerMode ≠ (chOf s c).integerMode →
      ∃ f, i = .setFrequency c f)
    (hdrive : v.driveStrength ≠ (chOf s c).driveStrength → ∃ l, i = .driveStrength c l)
    (henabled : v.enabled ≠ (chOf s c).enabled → ∃ b, i = .outputEnable c b) : WritesOwnMirrors i s (setChOf s c v) where
  keepsInited := by rw [setChOf_inited]; exact id
  inited := fun h => absurd (setChOf_inited s c v) h
  reference := fun x => by rw [pllOf_setChOf]
  correction := fun x h => absurd (congrArg _ (pllOf_setChOf s c v x)) h
  frequency := fun x h => absurd (congrArg _ (pllOf_setChOf s c v x)) h
  assigned := fun d h => by
    by_cases hd : d = c
    · subst hd; rw [chOf_setChOf] at h; exact .inr (hassigned h)
    · rw [chOf_setChOf_of_ne s hd] at h; exact absurd rfl h
  divider := fun d h => by
    by_cases hd : d = c
    · subst hd; rw [chOf_setChOf] at h; exact .inr (hdivider h)
    · rw [chOf_setChOf_of_ne s hd] at h; exact h.elim (absurd rfl) (absurd rfl)
  drive := fun d h => by
    by_cases hd : d = c
    · subst hd; rw [chOf_setChOf] at h; exact hdrive h
    · rw [chOf_setChOf_of_ne s hd] at h; exact absurd rfl h
  enabled := fun d h => by
    by_cases hd : d = c
    · subst hd; rw [chOf_setChOf] at h; exact .inr (henabled h)
    · rw [chOf_setChOf_of_ne s hd] at h; exact absurd rfl h

theorem setPll (freq : U64) (x : Pll) (s : State) (f : Nat) :
    WritesOwnMirrors (.setPll freq x) s (setFrequencyOf s x f) where
  keepsInited := by rw [setFrequencyOf_inited]; exact id
  inited := fun h => absurd (setFrequencyOf_inited s x f) h
  reference := fun y => by cases x <;> cases y <;> rfl
  correction := fun y h => absurd (by cases x <;> cases y <;> rfl) h
  frequency := fun y h => by
    by_cases hy : y = x
    · exact .inr (.inl ⟨freq, by rw [hy]⟩)
    · rw [setFrequencyOf, pllOf_setPllOf_of_ne s hy] at h; exact absurd rfl h
  assigned := fun c h => absurd (by cases x <;> cases c <;> rfl) h
  divider := fun c h => h.elim (absurd (by cases x <;> cases c <;> rfl)) (absurd (by cases x <;> cases c <;> rfl))
  drive := fun c h => absurd (by cases x <;> cases c <;> rfl) h
  enabled := fun c h => absurd (by cases x <;> cases c <;> rfl) h

theorem setCorrection (ppb : BitVec 32) (r : Reference) (s : State) (pa pb : PllPlan) :
    WritesOwnMirrors (.setCorrection ppb r) s (correctionMirrors s ppb pa pb) where
  keepsInited := id
  inited := fun h => absurd rfl h
  reference := fun x => by cases x <;> rfl
  correction := fun _ _ => ⟨ppb, r, rfl⟩
  frequency := fun _ _ => .inr (.inr ⟨ppb, r, rfl⟩)
  assigned := fun c h => absurd (by cases c <;> rfl) h
  divider := fun c h => h.elim (absurd (by cases c <;> rfl)) (absurd (by cases c <;> rfl))
  drive := fun c h => absurd (by cases c <;> rfl) h
  enabled := fun c h => absurd (by cases c <;> rfl) h

theorem initializeAll (s : State) (pa pb : PllPlan) :
    WritesOwnMirrors .initializeAll s (initMirrors (bringUpMirrors s pa pb)) where
  keepsInited := fun _ => rfl
  inited := fun _ => rfl
  reference := fun x => by cases x <;> rfl
  correction := fun x h => absurd (by cases x <;> rfl) h
  frequency := fun _ _ => .inl rfl
  assigned := fun _ _ => .inl rfl
  divider := fun _ _ => .inl rfl
  drive := fun c h => absurd (by cases c <;> rfl) h
  enabled := fun _ _ => .inl rfl

end WritesOwnMirrors

theorem mirrors_of_exec {i : Instr} {s t : State} (h : exec i s = .next t) :
    t.cfg = s.cfg ∧ t.command = s.command ∧ WritesOwnMirrors i s t := by
  have kept : MirrorsKept s t → t.command = s.command → t.cfg = s.cfg ∧ t.command = s.command ∧ WritesOwnMirrors i s t :=
    fun hm hc => ⟨hm.1, hc, (WritesOwnMirrors.refl i s).of_kept hm⟩
  have ctl : ∀ {os m}, CtlOutcome os s m t → WritesOwnMirrors i s m →
      t.cfg = s.cfg ∧ t.command = s.command ∧ WritesOwnMirrors i s t :=
    fun ho hw => ⟨ho.bus.cfg, ho.bus.command, hw.of_kept ho.mirrors⟩
  cases i with
  | start | sendAddress | sendByte | receiveByte | stop =>
    obtain ⟨hm, -, -, hc, -⟩ := (transport_keeps h (by simp)).frame
    exact kept hm hc
  | readReg | writeReg | writeBulk | updateReg =>
    obtain ⟨⟨hm, hc, -⟩, -⟩ := layer_keeps h (by simp)
    exact kept hm hc
  | planPll | planMultisynth | encodeFields | selectRDivider =>
    obtain ⟨bs, rfl⟩ := planner_eq_next h (by simp)
    exact kept ⟨rfl, rfl, rfl, rfl, rfl, rfl, rfl⟩ rfl
  | initializeAll =>
    obtain ⟨pa, pb, -, -, ho⟩ := execInitialize_outcome h
    exact ctl ho (.initializeAll s pa pb)
  | setFrequency c f =>
    obtain ⟨p, -, ho⟩ := execSetFrequency_outcome h
    exact ctl ho (.of_setChOf (absurd rfl) (fun _ => ⟨f, rfl⟩) (absurd rfl) (absurd rfl))
  | setPll f x =>
    obtain ⟨p, -, ho⟩ := execSetPll_outcome h
    exact ctl ho (.setPll f x s p.target)
  | setCorrection ppb r =>
    obtain ⟨pa, pb, -, -, ho⟩ := execSetCorrection_outcome (r := r) h
    exact ctl ho (.setCorrection ppb r s pa pb)
  | outputEnable c b =>
    exact ctl (execOutputEnable_outcome h)
      (.of_setChOf (absurd rfl) (fun h => h.elim (absurd rfl) (absurd rfl)) (absurd rfl) fun _ => ⟨b, rfl⟩)
  | driveStrength c l =>
    exact ctl (execDriveStrength_outcome h)
      (.of_setChOf (absurd rfl) (fun h => h.elim (absurd rfl) (absurd rfl)) (fun _ => ⟨l, rfl⟩) (absurd rfl))
  | setClockPower c b => exact ctl (execSetClockPower_outcome h) (.refl _ s)
  | powerDown => exact ctl (execPowerDown_outcome h) (.refl _ s)
  | setPllAssignment c x =>
    exact ctl (execSetPllAssignment_outcome h)
      (.of_setChOf (fun _ => ⟨x, rfl⟩) (fun h => h.elim (absurd rfl) (absurd rfl)) (absurd rfl) (absurd rfl))

/-- Settles O56, operation by operation. -/
theorem mirrorsWrittenOnlyByTheirOperations : Obligations.MirrorsWrittenOnlyByTheirOperations := by
  intro i s t h
  obtain ⟨hcfg, hcommand, hw⟩ := mirrors_of_exec h
  exact ⟨hcfg, hcommand, hw.keepsInited, hw.inited, hw.reference, hw.correction, hw.frequency, hw.assigned, hw.divider,
    hw.drive, hw.enabled⟩

/-! ### The invariant (R21 to R27) -/

/-- The part of the invariant that is about the PLL mirrors (R27, R38). -/
def PllsInvariant (s : State) : Prop :=
  (s.inited = true → PllInRange s.cfg s.pllA ∧ PllInRange s.cfg s.pllB) ∧
    (s.inited = false → s.pllA.correctionPpb = 0#32 ∧ s.pllB.correctionPpb = 0#32)

theorem inv_iff {s : State} :
    Inv s ↔ memWf s.line.rm = true ∧ s.wait = .none ∧ s.seq = none ∧ TransportRests s ∧ PllsInvariant s ∧ StatusPaired s := by
  constructor
  · rintro ⟨hm, hw, hq, hp, hd, hi, h0, hs⟩
    exact ⟨hm, hw, hq, ⟨hp, hd⟩, ⟨hi, h0⟩, hs⟩
  · rintro ⟨hm, hw, hq, ⟨hp, hd⟩, ⟨hi, h0⟩, hs⟩
    exact ⟨hm, hw, hq, hp, hd, hi, h0, hs⟩

theorem PllsInvariant.of_kept {s t : State} (h : PllsInvariant s) (hm : MirrorsKept s t) : PllsInvariant t := by
  obtain ⟨hc, hi, hA, hB, -⟩ := hm
  rw [PllsInvariant, hc, hi, hA, hB]
  exact h

theorem CallKeeps.inv {s t : State} (h : CallKeeps s t) (hs : Inv s) : Inv t := by
  obtain ⟨hm, -, hq, hr, hp, hst⟩ := inv_iff.mp hs
  obtain ⟨hk, hseq, -, -, hw⟩ := h.frame
  exact inv_iff.mpr ⟨h.memWf hm, hw, hseq.trans hq, h.rests hr, hp.of_kept hk, h.paired hst⟩

/-- An operation that leaves the transport idle keeps the invariant when its mirrors meet it. -/
theorem inv_of_idle {s t : State} (hs : Inv s) (hm : memWf s.line.rm = true → memWf t.line.rm = true)
    (hidle : TransportIdle t) (hst : StatusPaired s → StatusPaired t) (hp : PllsInvariant s → PllsInvariant t) : Inv t := by
  obtain ⟨hms, -, -, -, hps, hss⟩ := inv_iff.mp hs
  obtain ⟨hidle, hdir, hwait, hseq⟩ := hidle
  exact inv_iff.mpr ⟨hm hms, hwait, hseq, transportRests_of_idle hidle hdir, hp hps, hst hss⟩

theorem CtlOutcome.inv {os : List RaOp} {s m t : State} (h : CtlOutcome os s m t) (hs : Inv s)
    (hp : PllsInvariant s → PllsInvariant m) : Inv t :=
  inv_of_idle hs h.bus.memWf h.bus.idle h.bus.paired fun hps => (hp hps).of_kept h.mirrors

/-- Under K7 for the correction in use neither ratio clamp moves a target out of the VCO range (R27, C9). -/
theorem clampedTarget_range {c : Config} (hK1 : ConstraintK1 c) (freq : Nat) {ref1 : Nat} (h1 : 1 ≤ ref1)
    (hlo : c.vcoMin * freqMult ≤ 90 * ref1) (hhi : 15 * ref1 ≤ c.vcoMax * freqMult) :
    c.vcoMin * freqMult ≤ clampedTarget c freq ref1 ∧ clampedTarget c freq ref1 ≤ c.vcoMax * freqMult := by
  obtain ⟨hmin, hmax⟩ := bounded_range (Nat.mul_le_mul_right freqMult hK1.2.1) freq
  simp only [clampedTarget]
  generalize bounded freq (c.vcoMin * freqMult) (c.vcoMax * freqMult) = t1 at hmin hmax ⊢
  split
  · next h15 =>
    have := (Nat.div_lt_iff_lt_mul (by omega)).mp h15
    omega
  split
  · next h90 =>
    have := (Nat.le_div_iff_mul_le (by omega)).mp (Nat.le_of_lt h90)
    omega
  · exact ⟨hmin, hmax⟩

/-- A plan of a PLL stage: the corrected crystal is at least 1, and its target is the one after both clamps (R102, R105). -/
theorem planStage_eq_ok {c : Config} (hK1 : ConstraintK1 c) {freq : Nat} {ppb : BitVec 32} {p : PllPlan}
    (h : planStage c freq ppb = .ok p) :
    1 ≤ correctedCrystal c ppb ∧ p.target = clampedTarget c freq (correctedCrystal c ppb).toNat ∧ p.target < 2 ^ 64 := by
  obtain ⟨-, h1, hp⟩ := planPll_planned h
  refine ⟨?_, hp.target_eq_clampedTarget hK1, planPll_target_lt hK1 h⟩
  rw [correctedCrystal]
  omega

/-- The mirror of a PLL that was planned under its correction meets R27. -/
theorem pllInRange_of_plan {c : Config} (hK1 : ConstraintK1 c) {freq : Nat} {v : PllState} {p : PllPlan}
    (h : planStage c freq v.correctionPpb = .ok p) : PllInRange c { v with frequency := BitVec.ofNat 64 p.target } := by
  obtain ⟨h1, ht, hlt⟩ := planStage_eq_ok hK1 h
  refine ⟨h1, fun hreach => ?_⟩
  have hreach' : RatioReaches c v.correctionPpb := hreach
  obtain ⟨hlo, hhi⟩ := hreach'
  rw [← correctedCrystal] at hlo hhi
  have hr := clampedTarget_range hK1 freq (ref1 := (correctedCrystal c v.correctionPpb).toNat) (by omega) (by omega) (by omega)
  rw [← ht] at hr
  rwa [BitVec.toNat_ofNat, Nat.mod_eq_of_lt hlt]

theorem pllsInvariant_of_inited {s : State} (hi : s.inited = true) (h : ∀ x, PllInRange s.cfg (pllOf s x)) :
    PllsInvariant s :=
  ⟨fun _ => ⟨h .a, h .b⟩, fun h0 => by rw [hi] at h0; cases h0⟩

theorem pllsInvariant_pllOf {s : State} (h : PllsInvariant s) (hi : s.inited = true) (x : Pll) :
    PllInRange s.cfg (pllOf s x) := by
  cases x
  · exact (h.1 hi).1
  · exact (h.1 hi).2

theorem pllsInvariant_setFrequencyOf {s : State} (hK1 : ConstraintK1 s.cfg) (hi : s.inited = true) {freq : Nat} {x : Pll}
    {p : PllPlan} (hp : planStage s.cfg freq (pllOf s x).correctionPpb = .ok p) (h : PllsInvariant s) :
    PllsInvariant (setFrequencyOf s x p.target) := by
  refine pllsInvariant_of_inited (by rw [setFrequencyOf_inited]; exact hi) fun y => ?_
  rw [setFrequencyOf_cfg]
  by_cases hy : y = x
  · rw [hy, pllOf_setFrequencyOf]
    exact pllInRange_of_plan hK1 hp
  · rw [setFrequencyOf, pllOf_setPllOf_of_ne s hy]
    exact pllsInvariant_pllOf h hi y

theorem pllsInvariant_correctionMirrors {s : State} (hK1 : ConstraintK1 s.cfg) (hi : s.inited = true) {fa fb : Nat}
    {ppb : BitVec 32} {pa pb : PllPlan} (ha : planStage s.cfg fa ppb = .ok pa) (hb : planStage s.cfg fb ppb = .ok pb) :
    PllsInvariant (correctionMirrors s ppb pa pb) := by
  refine pllsInvariant_of_inited hi fun x => ?_
  cases x
  · exact pllInRange_of_plan (v := { s.pllA with correctionPpb := ppb }) hK1 ha
  · exact pllInRange_of_plan (v := { s.pllB with correctionPpb := ppb }) hK1 hb

theorem pllsInvariant_initMirrors {s : State} (hK1 : ConstraintK1 s.cfg) {fa fb : Nat} {pa pb : PllPlan}
    (ha : planStage s.cfg fa s.pllA.correctionPpb = .ok pa) (hb : planStage s.cfg fb s.pllB.correctionPpb = .ok pb) :
    PllsInvariant (initMirrors (bringUpMirrors s pa pb)) := by
  refine pllsInvariant_of_inited rfl fun x => ?_
  cases x
  · exact pllInRange_of_plan hK1 ha
  · exact pllInRange_of_plan hK1 hb

theorem pllsInvariant_setChOf {s : State} (h : PllsInvariant s) (i : Channel) (v : ClockChannel) :
    PllsInvariant (setChOf s i v) := by
  cases i <;> exact h

/-- Every operation keeps the invariant. -/
theorem inv_of_exec {i : Instr} {s t : State} (h : exec i s = .next t) (hs : Inv s) : Inv t := by
  cases i with
  | start | sendAddress | sendByte | receiveByte | stop => exact (transport_keeps h (by simp)).inv hs
  | readReg | writeReg | writeBulk | updateReg =>
    obtain ⟨⟨hk, -, hidle, -⟩, hm, hst⟩ := layer_keeps h (by simp)
    exact inv_of_idle hs hm hidle hst fun hp => hp.of_kept hk
  | planPll | planMultisynth | encodeFields | selectRDivider =>
    obtain ⟨bs, rfl⟩ := planner_eq_next h (by simp)
    exact hs
  | initializeAll =>
    obtain ⟨hv, -⟩ := execInitialize_eq_next_iff.mp h
    obtain ⟨pa, pb, ha, hb, ho⟩ := execInitialize_outcome h
    exact ho.inv hs fun _ => pllsInvariant_initMirrors (configValid_K1 hv) ha hb
  | setFrequency c f =>
    obtain ⟨p, -, ho⟩ := execSetFrequency_outcome h
    exact ho.inv hs fun hp => pllsInvariant_setChOf hp c _
  | setPll f x =>
    obtain ⟨hv, hi, -⟩ := execSetPll_eq_next_iff.mp h
    obtain ⟨p, hp, ho⟩ := execSetPll_outcome h
    exact ho.inv hs (pllsInvariant_setFrequencyOf (configValid_K1 hv) hi hp)
  | setCorrection ppb r =>
    obtain ⟨hv, hi, -⟩ := (execSetCorrection_eq_next_iff (r := r)).mp h
    obtain ⟨pa, pb, ha, hb, ho⟩ := execSetCorrection_outcome (r := r) h
    exact ho.inv hs fun _ => pllsInvariant_correctionMirrors (configValid_K1 hv) hi ha hb
  | outputEnable c b => exact (execOutputEnable_outcome h).inv hs fun hp => pllsInvariant_setChOf hp c _
  | driveStrength c l => exact (execDriveStrength_outcome h).inv hs fun hp => pllsInvariant_setChOf hp c _
  | setClockPower c b => exact (execSetClockPower_outcome h).inv hs id
  | powerDown => exact (execPowerDown_outcome h).inv hs id
  | setPllAssignment c x => exact (execSetPllAssignment_outcome h).inv hs fun hp => pllsInvariant_setChOf hp c _

/-- Settles O57: a step is an operation on the state without its packet, which the invariant does not speak of. -/
theorem stepKeepsTheInvariant : Obligations.StepKeepsTheInvariant := by
  intro s t hs h
  rw [step] at h
  split at h
  · split at h
    · exact inv_of_exec h hs
    · cases h; exact hs
    · cases h
  · cases h

/-! ### The hang (R238) -/

theorem whenConfigured_stuckFrom {s : State} (hv : configValid s.cfg = true) {r : Result} (h : StuckFrom s r) :
    StuckFrom s (whenConfigured s r) := by
  rw [whenConfigured_of_valid hv]
  exact h

theorem whenInited_stuckFrom {s : State} (hv : configValid s.cfg = true) (hi : s.inited = true) {r : Result}
    (h : StuckFrom s r) : StuckFrom s (whenInited s r) := by
  rw [whenInited_of_inited hv hi]
  exact h

/-- INITIALIZE hangs in one of its calls, before its last mirror writes. -/
theorem runInit_stuckFrom {s : State} {k : Nat} (hk : k < initCalls s.cfg) (ha : s.line.answers[k]? = some .never)
    (pa pb : PllPlan) (f : Unit → State → State) : StuckFrom s ((runInit pa pb s).finish f) := by
  obtain ⟨u, hu, hw, hn, hp⟩ := (initBus_uses pa pb s).hangs hk ha
  rw [runInit_parts, hu]
  exact ⟨u, rfl, hw, hn, step_of_waiting hw, hp.cfg, hp.inited, hp.ch0, hp.ch1, hp.ch2, hp.command, hp.response⟩

/-- Settles O22, by the number of answers that the procedure of each operation is sure to use. -/
theorem operationsHangWithTheirCalls : Obligations.OperationsHangWithTheirCalls := by
  intro s k hv ha
  refine ⟨fun addr hk => ?read, fun addr value hk => ?write, fun addr values hne hk => ?bulk,
    fun addr mask value hk => ?update, fun pa pb hpa hpb hk => ?init, fun hi => ⟨fun i freq p hp hk => ?frequency,
      fun freq x p hp hk => ?pll, fun ppb pa pb hpa hpb hk => ?correction, fun i enable hk => ?enable,
      fun i level hk => ?drive, fun i on hk => ?power, fun hk => ?down, fun i x hk => ?assign⟩⟩
  case read => exact whenConfigured_stuckFrom hv ((readReg_uses addr s).stuckFrom hk ha _)
  case write => exact whenConfigured_stuckFrom hv ((writeRegs_uses addr [value] s).stuckFrom hk ha _)
  case bulk =>
    rw [exec_writeBulk, execWriteBulk_of_values hne]
    exact whenConfigured_stuckFrom hv ((writeRegs_uses addr values s).stuckFrom hk ha _)
  case update => exact whenConfigured_stuckFrom hv ((updateReg_uses addr mask value s).stuckFrom hk ha _)
  case init =>
    rw [exec_initializeAll, execInitialize, planStage, hpa, planStage, hpb]
    exact whenConfigured_stuckFrom hv (runInit_stuckFrom hk ha pa pb _)
  case frequency =>
    rw [exec_setFrequency, execSetFrequency]
    dsimp only
    rw [hp]
    exact whenInited_stuckFrom hv hi ((runRaOps_uses _ s).stuckFrom hk ha _)
  case pll =>
    rw [exec_setPll, execSetPll, planStage, hp]
    exact whenInited_stuckFrom hv hi ((doSetPll_uses x p s).stuckFrom hk ha _)
  case correction =>
    rw [exec_setCorrection, execSetCorrection, planStage, hpa, planStage, hpb]
    exact whenInited_stuckFrom hv hi ((runCorrection_uses ppb pa pb s).stuckFrom hk ha _)
  case enable | drive | power | down | assign =>
    exact whenInited_stuckFrom hv hi ((runRaOps_uses _ s).stuckFrom hk ha _)

end Sys2Proof.Machine
end

section
/-! Proofs about the Synthesizer Controller (`spec/44_controller.md`): when its operations return, what they leave in the mirrors,
and what they write to the plain chip. -/

namespace Sys2Proof.Machine

/-! ### A list of register operations on the map of the chip -/

theorem readMem_writeMem_congr {m m' : Memory} (hm : memWf m = true) (hm' : memWf m' = true) {x : Nat}
    (h : readMem m x = readMem m' x) (a : Nat) (v : Byte) : readMem (writeMem m a v) x = readMem (writeMem m' a v) x := by
  by_cases hx : x = a
  · rw [hx, readMem_writeMem_same hm, readMem_writeMem_same hm']
  · rw [readMem_writeMem_other m hx, readMem_writeMem_other m' hx, h]

theorem readMem_writeBytes_congr {m m' : Memory} (hm : memWf m = true) (hm' : memWf m' = true) {x : Nat}
    (h : readMem m x = readMem m' x) (a : Byte) (vs : List Byte) :
    readMem (writeBytes m a vs) x = readMem (writeBytes m' a vs) x := by
  induction vs generalizing m m' a with
  | nil => exact h
  | cons v vs ih =>
    exact ih (memWf_writeMem hm a.isLt v) (memWf_writeMem hm' a.isLt v) (readMem_writeMem_congr hm hm' h a.toNat v) (a + 1#8)

/-- An operation acts byte by byte: what it leaves in one byte depends on that byte alone. -/
theorem readMem_opMem_congr {m m' : Memory} (hm : memWf m = true) (hm' : memWf m' = true) {x : Nat}
    (h : readMem m x = readMem m' x) (o : RaOp) : readMem (opMem o m) x = readMem (opMem o m') x := by
  cases o with
  | write addr values => exact readMem_writeBytes_congr hm hm' h addr values
  | update addr mask value =>
    by_cases hx : x = addr.toNat
    · subst hx
      rw [opMem, opMem, readMem_writeMem_same hm, readMem_writeMem_same hm', h]
    · rw [opMem, opMem, readMem_writeMem_other m hx, readMem_writeMem_other m' hx, h]

theorem readMem_opsMem_of_not_mem {os : List RaOp} {x : Nat} (h : x ∉ os.flatMap opAddrs) (m : Memory) :
    readMem (opsMem os m) x = readMem m x :=
  readMem_opsMem_other os m fun _ ho hx => h (List.mem_flatMap.mpr ⟨_, ho, hx⟩)

/-- When no two operations of a list write the same byte, each leaves what it alone would have left. -/
theorem readMem_opsMem_of_nodup {os : List RaOp} (hn : (os.flatMap opAddrs).Nodup) {o : RaOp} (ho : o ∈ os) {m : Memory}
    (hm : memWf m = true) {x : Nat} (hx : x ∈ opAddrs o) : readMem (opsMem os m) x = readMem (opMem o m) x := by
  obtain ⟨before, after, rfl⟩ := List.append_of_mem ho
  rw [List.flatMap_append, List.flatMap_cons, List.nodup_append, List.nodup_append] at hn
  obtain ⟨-, ⟨-, -, hafter⟩, hbefore⟩ := hn
  have hxa : x ∉ after.flatMap opAddrs := fun h => hafter x hx x h rfl
  have hxb : x ∉ before.flatMap opAddrs := fun h => hbefore x h x (List.mem_append_left _ hx) rfl
  rw [opsMem_append, opsMem_cons, readMem_opsMem_of_not_mem hxa]
  exact readMem_opMem_congr (memWf_opsMem hm before) hm (readMem_opsMem_of_not_mem hxb m) o

theorem readMem_opMem_write_one {m : Memory} (hm : memWf m = true) (a v : Byte) :
    readMem (opMem (.write a [v]) m) a.toNat = v := readMem_writeMem_same hm a.toNat v

theorem readMem_opMem_update {m : Memory} (hm : memWf m = true) (a mask value : Byte) :
    readMem (opMem (.update a mask value) m) a.toNat = mergeMasked (readMem m a.toNat) mask value :=
  readMem_writeMem_same hm a.toNat _

/-- The bytes of a parameter block (R82). -/
theorem readMem_opMem_block {m : Memory} (hm : memWf m = true) (a : Byte) (f : RegisterFields) (r : BitVec 3) (d : BitVec 2)
    (j : Nat) (h : j < 8) : readMem (opMem (.write a (ser8 f r d)) m) ((a.toNat + j) % 256) = (ser8 f r d)[j]'h :=
  readMem_writeBytes_at hm a (ser8 f r d) (by decide : 8 ≤ 256) j h

theorem opAddrs_write_one (a v : Byte) : opAddrs (.write a [v]) = [a.toNat] := addrsFrom_one a

theorem opAddrs_update (a mask value : Byte) : opAddrs (.update a mask value) = [a.toNat] := rfl

theorem opAddrs_pllOp (c : Config) (x : Pll) (p : PllPlan) : opAddrs (pllOp c x p) = addrsFrom (pllParamsAddr c x) 8 := rfl

theorem mem_opAddrs_pllOp (c : Config) (x : Pll) (p : PllPlan) {j : Nat} (h : j < 8) :
    ((pllParamsAddr c x).toNat + j) % 256 ∈ opAddrs (pllOp c x p) := mem_addrsFrom.mpr ⟨j, h, rfl⟩

/-- A PLL block keeps its bytes to the end of a list that writes no byte twice. -/
theorem readMem_opsMem_pllBlock {os : List RaOp} (hn : (os.flatMap opAddrs).Nodup) {c : Config} {x : Pll} {p : PllPlan}
    (ho : pllOp c x p ∈ os) {m : Memory} (hm : memWf m = true) {j : Nat} (h : j < 8) :
    readMem (opsMem os m) (((pllParamsAddr c x).toNat + j) % 256) = (ser8 p.fields 0#3 0#2)[j]'h := by
  rw [readMem_opsMem_of_nodup hn ho hm (mem_opAddrs_pllOp c x p h)]
  exact readMem_opMem_block hm _ _ _ _ j h

/-! ### Bits of a masked update (R186) -/

theorem getLsbD_bitMask (n j : Nat) (hj : j < 8) : (bitMask n).getLsbD j = decide (j = n) := by
  rw [bitMask, BitVec.getLsbD_shiftLeft, BitVec.getLsbD_one]
  by_cases h : j = n
  · simp [h]
    omega
  · simp [h]
    omega

theorem getLsbD_bitValue (v : Bool) (n j : Nat) (hj : j < 8) : (bitValue v n).getLsbD j = (v && decide (j = n)) := by
  cases v with
  | false => rw [bitValue, if_neg Bool.false_ne_true, BitVec.getLsbD_zero, Bool.false_and]
  | true => rw [bitValue, if_pos rfl, getLsbD_bitMask n j hj, Bool.true_and]

/-- One bit written through its mask. -/
theorem mergeMasked_bitValue (old : Byte) (v : Bool) (n j : Nat) (hj : j < 8) :
    (mergeMasked old (bitMask n) (bitValue v n)).getLsbD j = if j = n then v else old.getLsbD j := by
  rw [mergeMasked_bit _ _ _ j hj, getLsbD_bitMask n j hj, getLsbD_bitValue v n j hj]
  by_cases h : j = n <;> simp [h]

/-- The two-bit drive field written through its mask (R85). -/
theorem mergeMasked_drive (old : Byte) (level : BitVec 2) (n : Fin 7) (j : Nat) (hj : j < 8) :
    (mergeMasked old (3#8 <<< n.val) (level.zeroExtend 8 <<< n.val)).getLsbD j =
      if j = n.val then level.getLsbD 0 else if j = n.val + 1 then level.getLsbD 1 else old.getLsbD j := by
  have h3 : ∀ k, (3#8).getLsbD k = decide (k < 2) := by
    intro k
    obtain hk | hk := Nat.lt_or_ge k 8
    · interval_cases k <;> rfl
    · rw [BitVec.getLsbD_of_ge _ _ hk, decide_eq_false (by omega)]
  rw [mergeMasked_bit _ _ _ j hj, BitVec.getLsbD_shiftLeft, BitVec.getLsbD_shiftLeft, h3, BitVec.zeroExtend,
    BitVec.getLsbD_setWidth]
  by_cases h0 : j = n.val
  · subst h0
    simp [hj]
  by_cases h1 : j = n.val + 1
  · subst h1
    simp [hj]
  · rw [if_neg h0, if_neg h1]
    by_cases hlt : j < n.val
    · simp [hlt]
    · have hge : ¬ j - n.val < 2 := by omega
      simp [hge]

/-! ### When the operations return -/

theorem configValid_crystalSmall {c : Config} (hv : configValid c = true) : c.xtalFreqX100 < 2 ^ 44 := by
  obtain ⟨-, -, -, -, -, -, h, -⟩ := (configValid_iff c).mp hv
  exact h

theorem configValid_crystalReaches {c : Config} (hv : configValid c = true) : CrystalReaches c := by
  obtain ⟨-, -, -, -, h, -⟩ := (configValid_iff c).mp hv
  exact h

theorem configValid_K8 {c : Config} (hv : configValid c = true) : ConstraintK8 c := by
  obtain ⟨-, -, -, -, -, h, -⟩ := (configValid_iff c).mp hv
  exact h

/-- A PLL stage is planned for every target, when its corrected crystal is at least 1 (R102). -/
theorem planStage_exists {c : Config} (hv : configValid c = true) {ppb : BitVec 32} (h : 1 ≤ correctedCrystal c ppb)
    (freq : Nat) : ∃ p, planStage c freq ppb = .ok p :=
  ⟨_, (planStage_of_corrected freq (configValid_crystalSmall hv) h).trans (planPllAt_eq_ok c freq (by omega))⟩

/-- The mirror value of a plan, for the corrected crystal as a number (R103, R105). -/
theorem planStage_target {c : Config} (hv : configValid c = true) {freq ref1 : Nat} {ppb : BitVec 32} {p : PllPlan}
    (h : planStage c freq ppb = .ok p) (hr : (ref1 : Int) = correctedCrystal c ppb) :
    (BitVec.ofNat 64 p.target).toNat = clampedTarget c freq ref1 := by
  obtain ⟨-, ht, hlt⟩ := planStage_eq_ok (configValid_K1 hv) h
  rw [BitVec.toNat_ofNat, Nat.mod_eq_of_lt hlt, ht, ← hr, Int.toNat_natCast]

theorem execInitialize_returns {s : State} (hv : configValid s.cfg = true) (hr : Responsive s)
    (ha : 1 ≤ correctedCrystal s.cfg s.pllA.correctionPpb) (hb : 1 ≤ correctedCrystal s.cfg s.pllB.correctionPpb) :
    ∃ t, execInitialize s = .next t := by
  obtain ⟨pa, hpa⟩ := planStage_exists hv ha s.cfg.pllBringupX100
  obtain ⟨pb, hpb⟩ := planStage_exists hv hb s.cfg.pllBringupX100
  obtain ⟨u, hu⟩ := runInit_of_responsive hr pa pb
  exact ⟨_, execInitialize_eq_next_iff.mpr ⟨hv, pa, pb, u, hpa, hpb, hu, rfl⟩⟩

theorem execSetPll_returns {s : State} (hv : configValid s.cfg = true) (hi : s.inited = true) (hr : Responsive s) {x : Pll}
    (h : 1 ≤ correctedCrystal s.cfg (pllOf s x).correctionPpb) (freq : U64) : ∃ t, execSetPll freq x s = .next t := by
  obtain ⟨p, hp⟩ := planStage_exists hv h freq.toNat
  obtain ⟨f, u, hu⟩ := doSetPll_of_responsive hr x p
  exact ⟨_, execSetPll_eq_next_iff.mpr ⟨hv, hi, p, f, u, hp, hu, rfl⟩⟩

theorem execSetCorrection_returns {s : State} (hv : configValid s.cfg = true) (hi : s.inited = true) (hr : Responsive s)
    {ppb : BitVec 32} (h : 1 ≤ correctedCrystal s.cfg ppb) : ∃ t, execSetCorrection ppb .crystal s = .next t := by
  obtain ⟨pa, hpa⟩ := planStage_exists hv h s.pllA.frequency.toNat
  obtain ⟨pb, hpb⟩ := planStage_exists hv h s.pllB.frequency.toNat
  obtain ⟨u, hu⟩ := runCorrection_of_responsive hr ppb pa pb
  exact ⟨_, execSetCorrection_eq_next_iff.mpr ⟨hv, hi, pa, pb, u, hpa, hpb, hu, rfl⟩⟩

theorem execSetFrequency_returns {s : State} (hv : configValid s.cfg = true) (hi : s.inited = true) (hr : Responsive s)
    {i : Channel} {freq : U64} {p : MsPlan} (hp : frequencyPlan s i freq = .ok p) :
    ∃ t, execSetFrequency i freq s = .next t := by
  obtain ⟨f, u, hu⟩ := runRaOps_of_responsive hr (frequencyOps s.cfg i (BitVec.ofNat 3 (selectRDivider s.cfg freq.toNat).1) p)
  exact ⟨_, execSetFrequency_eq_next_iff.mpr ⟨hv, hi, p, f, u, hp, hu, rfl⟩⟩

theorem execPowerDown_returns {s : State} (hv : configValid s.cfg = true) (hi : s.inited = true) (hr : Responsive s) :
    ∃ t, execPowerDown s = .next t := by
  obtain ⟨f, u, hu⟩ := runRaOps_of_responsive hr (powerDownOps s.cfg)
  exact ⟨_, execPowerDown_eq_next_iff.mpr ⟨hv, hi, f, u, hu, rfl⟩⟩

/-- The plan of SET_FREQUENCY is the exact one in fixed-PLL mode: a 64-bit PLL frequency never makes it too wide. -/
theorem frequencyPlan_eq {s : State} (hv : configValid s.cfg = true) (i : Channel) (freq : U64) :
    frequencyPlan s i freq = planMultisynthExact s.cfg (selectRDivider s.cfg freq.toNat).2
      (pllOf s (chOf s i).assignedPll).frequency.toNat true :=
  planMultisynth_fixed_eq_exact (configValid_K2 hv) _ (BitVec.isLt _)

/-- With a stored PLL frequency that meets K8, SET_FREQUENCY is planned for every operand (R114). -/
theorem frequencyPlan_exists {s : State} (hv : configValid s.cfg = true) {i : Channel}
    (h : 3240000 ≤ (pllOf s (chOf s i).assignedPll).frequency.toNat) (freq : U64) :
    ∃ p, frequencyPlan s i freq = .ok p := by
  have hmin : 1 ≤ msClamp s.cfg (selectRDivider s.cfg freq.toNat).2 := by
    have := (msClamp_range (configValid_K2 hv) (selectRDivider s.cfg freq.toNat).2).1
    have := (configValid_K2 hv).1
    omega
  rw [frequencyPlan_eq hv]
  obtain hlt | h4 := Nat.lt_or_ge (msClamp s.cfg (selectRDivider s.cfg freq.toNat).2) (s.cfg.divBy4Threshold * 100)
  · rw [planMultisynthExact_of_fixed _ hlt]
    exact planFixed_of_K8 hmin h
  · exact ⟨_, planMultisynthExact_of_divBy4 _ h4 true⟩

/-- Settles O44: a corrected crystal below 1 has no plan, and the ratio clamp refuses a small PLL frequency. -/
theorem controllerPlanRefusals : Obligations.ControllerPlanRefusals := by
  intro s hv
  have hx := configValid_crystalSmall hv
  refine ⟨fun h => ?init, fun hi freq x h => ?setPll, fun hi i freq => ?setFrequency⟩
  case init =>
    rw [exec_initializeAll, execInitialize, whenConfigured_of_valid hv]
    obtain hA | hA := Int.lt_or_le (correctedCrystal s.cfg s.pllA.correctionPpb) 1
    · rw [planStage_of_below_one _ hx hA]
    · have hB := h.resolve_left (by omega)
      obtain ⟨pa, hpa⟩ := planStage_exists hv hA s.cfg.pllBringupX100
      rw [hpa, planStage_of_below_one _ hx hB]
  case setPll =>
    rw [exec_setPll, execSetPll, whenInited_of_inited hv hi, planStage_of_below_one _ hx h]
  case setFrequency =>
    intro pll t1 a t2 hlt hsmall
    have ht1 : msClamp s.cfg (selectRDivider s.cfg freq.toNat).2 = t1 := msClamp_eq_bounded (configValid_K2 hv) _
    have hplan : frequencyPlan s i freq = .error .pllFreqTooSmall := by
      rw [frequencyPlan_eq hv, planMultisynthExact_of_fixed _ (by rw [ht1]; exact hlt), ht1]
      refine planFixed_of_too_small ?_
      rw [msRatio_eq]
      exact hsmall
    rw [exec_setFrequency, execSetFrequency, whenInited_of_inited hv hi]
    dsimp only
    rw [← frequencyPlan, hplan]

/-- The crystal without a correction is at least 1 (K7, K8). -/
theorem one_le_correctedCrystal_zero {c : Config} (hv : configValid c = true) : 1 ≤ correctedCrystal c 0#32 := by
  have hx : correctedCrystal c 0#32 = c.xtalFreqX100 := by
    rw [correctedCrystal, correctedReference_eq]
    simp
  have h7 := (configValid_crystalReaches hv).1
  have h8 := configValid_K8 hv
  rw [ConstraintK8] at h8
  rw [hx]
  omega

theorem PllsInvariant.one_le_correctedCrystal {s : State} (h : PllsInvariant s) (hv : configValid s.cfg = true) (x : Pll) :
    1 ≤ correctedCrystal s.cfg (Machine.pllOf s x).correctionPpb := by
  cases hi : s.inited with
  | true => exact (pllsInvariant_pllOf h hi x).1
  | false =>
    obtain ⟨hA, hB⟩ := h.2 hi
    cases x
    · exact hA.symm ▸ one_le_correctedCrystal_zero hv
    · exact hB.symm ▸ one_le_correctedCrystal_zero hv

/-- Settles O45: under the invariant every plan of the controller succeeds. -/
theorem controllerPlansUnderTheInvariant : Obligations.ControllerPlansUnderTheInvariant := by
  intro s hs hv hr
  obtain ⟨-, -, -, -, hp, -⟩ := inv_iff.mp hs
  refine ⟨execInitialize_returns hv hr (hp.one_le_correctedCrystal hv .a) (hp.one_le_correctedCrystal hv .b), fun hi =>
    ⟨fun freq x => execSetPll_returns hv hi hr (hp.one_le_correctedCrystal hv x) freq,
      fun ppb h => execSetCorrection_returns hv hi hr h, fun i freq hreach => ?_⟩⟩
  have hrange := ((pllsInvariant_pllOf hp hi (chOf s i).assignedPll).2 hreach).1
  obtain ⟨p, hplan⟩ := frequencyPlan_exists hv ((configValid_K8 hv).trans hrange) freq
  exact execSetFrequency_returns hv hi hr hplan

/-! ### INITIALIZE and SET_FREQUENCY: the mirrors (R198, R200, R201) -/

/-- Settles O40: the plans exist, so the run ends, and its mirrors are those of its last writes. -/
theorem initializeOutcome : Obligations.InitializeOutcome := by
  intro s ra rb hv hr h1a ha h1b hb
  obtain ⟨t, ht⟩ := execInitialize_returns hv hr (by omega) (by omega)
  obtain ⟨pa, pb, hpa, hpb, ho⟩ := execInitialize_outcome ht
  have hm := ho.mirrors
  refine ⟨t, ht, ho.response, hm.2.1, ho.bus.cfg, ho.bus.command, ho.bus.idle, ho.bus.closed, fun x => ?correction, ?freqA,
    ?freqB, fun i => ?channel⟩
  case correction =>
    rw [MirrorsKept.pllOf hm]
    cases x <;> rfl
  case freqA =>
    rw [hm.2.2.1]
    exact planStage_target hv hpa ha
  case freqB =>
    rw [hm.2.2.2.1]
    exact planStage_target hv hpb hb
  case channel =>
    rw [MirrorsKept.chOf hm]
    cases i <;> rfl

theorem fieldsInteger_iff (f : RegisterFields) :
    fieldsInteger f = true ↔ f.p2.toNat = 0 ∧ (f.p1.toNat + 512) % 128 = 0 := by
  rw [fieldsInteger, Bool.and_eq_true, beq_iff_eq, beq_iff_eq, BitVec.toNat_eq]
  exact Iff.rfl

/-- In fixed-PLL mode a plan divides by 4 exactly from the threshold up (R111). -/
theorem frequencyPlan_divby4_iff {s : State} (hv : configValid s.cfg = true) {i : Channel} {freq : U64} {p : MsPlan}
    (h : frequencyPlan s i freq = .ok p) :
    p.divby4 = true ↔ s.cfg.divBy4Threshold * 100 ≤ msClamp s.cfg (selectRDivider s.cfg freq.toNat).2 := by
  rw [frequencyPlan_eq hv] at h
  cases planMultisynthExact_planned h with
  | divBy4 _ h4 => exact ⟨fun _ => h4, fun _ => rfl⟩
  | fixed hlt hp =>
    rw [(planFixed_eq_ok hp).2.2]
    exact ⟨nofun, fun h4 => absurd h4 (Nat.not_le.mpr hlt)⟩

/-- Settles O42: K8 gives a plan, and its mode is the side of the threshold that the target lies on. -/
theorem setFrequencyOutcome : Obligations.SetFrequencyOutcome := by
  intro s i freq hv hi hr hK8 r t1
  obtain ⟨p, hp⟩ := frequencyPlan_exists hv hK8 freq
  obtain ⟨t, ht⟩ := execSetFrequency_returns hv hi hr hp
  obtain ⟨q, hq, ho⟩ := execSetFrequency_outcome ht
  rw [hp] at hq
  cases hq
  have hm := ho.mirrors
  have hch : chOf t i = { chOf s i with
      rDividerExponent := BitVec.ofNat 3 r.1, integerMode := integerModeOf s.cfg p } := by
    rw [MirrorsKept.chOf hm]
    exact chOf_setChOf s i _
  have hmode : (chOf t i).integerMode = integerModeOf s.cfg p := by rw [hch]
  have hr7 : r.1 ≤ 7 := selectRDivider_fst_le s.cfg freq.toNat
  refine ⟨t, p, ht, hp, ho.response, ho.bus.command, ho.bus.idle, ho.bus.closed, ho.bus.cfg, ?inited, ?pllA, ?pllB,
    ?exponent, fun hpol => ?divBy4Only, fun hpol => ?whenBZero, by rw [hch], by rw [hch], by rw [hch], fun j hj => ?other⟩
  case inited => exact hm.2.1.trans ((setChOf_inited s i _).trans hi)
  case pllA => exact hm.2.2.1.trans (setChOf_pllA s i _)
  case pllB => exact hm.2.2.2.1.trans (setChOf_pllB s i _)
  case exponent =>
    rw [hch]
    exact (BitVec.toNat_ofNat r.1 3).trans (Nat.mod_eq_of_lt (by omega))
  case divBy4Only =>
    have ht1 : msClamp s.cfg r.2 = t1 := msClamp_eq_bounded (configValid_K2 hv) _
    rw [hmode, ← ht1, ← frequencyPlan_divby4_iff hv hp, integerModeOf, hpol]
  case whenBZero =>
    rw [hmode, ← fieldsInteger_iff, integerModeOf, hpol]
  case other =>
    rw [MirrorsKept.chOf hm]
    exact chOf_setChOf_of_ne s hj _

/-! ### SET_PLL and SET_CORRECTION (R203, R205) -/

/-- Settles O46: one write of a block and one mirror write. -/
theorem setPllOutcome : Obligations.SetPllOutcome := by
  intro s x freq ref1 hv hi hr h1 href
  obtain ⟨t, ht⟩ := execSetPll_returns hv hi hr (x := x) (by omega) freq
  obtain ⟨p, hp, ho⟩ := execSetPll_outcome ht
  have hm := ho.mirrors
  have hpll : pllOf t x = { pllOf s x with frequency := BitVec.ofNat 64 p.target } := by
    rw [MirrorsKept.pllOf hm, pllOf_setFrequencyOf]
  refine ⟨t, p, ht, ho.response, ho.bus.command, ho.bus.idle, ho.bus.closed, ho.bus.cfg, ?inited, ?ch0, ?ch1, ?ch2,
    ?frequency, by rw [hpll], fun y hy => ?other, hp, fun hpc hmw => ?chip⟩
  case inited => exact hm.2.1.trans ((setFrequencyOf_inited s x _).trans hi)
  case ch0 => exact hm.2.2.2.2.1.trans (setFrequencyOf_ch0 s x _)
  case ch1 => exact hm.2.2.2.2.2.1.trans (setFrequencyOf_ch1 s x _)
  case ch2 => exact hm.2.2.2.2.2.2.trans (setFrequencyOf_ch2 s x _)
  case frequency =>
    rw [hpll]
    exact planStage_target hv hp href
  case other =>
    rw [MirrorsKept.pllOf hm]
    exact pllOf_setPllOf_of_ne s hy _
  case chip =>
    obtain ⟨-, hrm, -⟩ := ho.bus.plain hpc hmw
    refine ⟨fun j hj => ?_, fun a ha => ?_⟩
    · rw [hrm]
      exact readMem_opMem_block hmw _ _ _ _ j hj
    · rw [hrm]
      exact readMem_opMem_other (pllOp s.cfg x p) _ ha

/-- The register map as counts: no address stands in it twice (R59). -/
theorem count_mapAddrs_le {c : Config} (hv : configValid c = true) (x : Nat) : (mapAddrs c).count x ≤ 1 := by
  have hn : (mapAddrs c).Nodup := by
    rw [← (mapEntries_perm_mapAddrs c).nodup_iff]
    obtain ⟨-, -, -, -, -, -, -, h⟩ := (configValid_iff c).mp hv
    exact h
  exact List.nodup_iff_count_le_one.mp hn x

theorem flatMap_pllBlocks (c : Config) (pa pb : PllPlan) :
    [pllOp c .a pa, pllOp c .b pb].flatMap opAddrs = addrsFrom c.regPllParamsA 8 ++ addrsFrom c.regPllParamsB 8 := by
  rw [List.flatMap_cons, List.flatMap_cons, List.flatMap_nil, List.append_nil]
  rfl

theorem nodup_pllBlocks {c : Config} (hv : configValid c = true) (pa pb : PllPlan) :
    ([pllOp c .a pa, pllOp c .b pb].flatMap opAddrs).Nodup := by
  refine List.nodup_iff_count_le_one.mpr fun x => (?_ : _ ≤ (mapAddrs c).count x).trans (count_mapAddrs_le hv x)
  have hblock : ∀ base : Byte, addrsFrom base 8 = blockAddrs base := fun _ => rfl
  simp only [flatMap_pllBlocks, hblock, mapAddrs, List.count_append]
  omega

/-- Settles O47: the two blocks share no byte, so each is as its own write left it. -/
theorem setCorrectionOutcome : Obligations.SetCorrectionOutcome := by
  intro s ppb hv hi
  refine ⟨fun h => ?refused, fun ref1 hr h1 href => ?done⟩
  case refused =>
    rw [exec_setCorrection, execSetCorrection, whenInited_of_inited hv hi,
      planStage_of_below_one _ (configValid_crystalSmall hv) h]
  case done =>
    obtain ⟨t, ht⟩ := execSetCorrection_returns hv hi hr (ppb := ppb) (by omega)
    obtain ⟨pa, pb, hpa, hpb, ho⟩ := execSetCorrection_outcome ht
    have hm := ho.mirrors
    refine ⟨t, pa, pb, ht, ho.response, ho.bus.command, ho.bus.idle, ho.bus.closed, ho.bus.cfg, hm.2.1.trans hi,
      hm.2.2.2.2.1, hm.2.2.2.2.2.1, hm.2.2.2.2.2.2, fun x => ?mirrors, hpa, hpb, fun hpc hmw => ?chip⟩
    case mirrors =>
      rw [MirrorsKept.pllOf hm]
      cases x
      · exact ⟨rfl, planStage_target hv hpa href⟩
      · exact ⟨rfl, planStage_target hv hpb href⟩
    case chip =>
      obtain ⟨-, hrm, -⟩ := ho.bus.plain hpc hmw
      have hn := nodup_pllBlocks hv pa pb
      refine ⟨fun j hj => ?_, fun j hj => ?_, fun a ha => ?_⟩
      · rw [hrm]
        exact readMem_opsMem_pllBlock hn (x := .a) List.mem_cons_self hmw hj
      · rw [hrm]
        exact readMem_opsMem_pllBlock hn (x := .b) (List.mem_cons_of_mem _ List.mem_cons_self) hmw hj
      · rw [hrm]
        exact readMem_opsMem_of_not_mem (by rw [flatMap_pllBlocks]; exact ha) _

/-! ### The operations that are one masked update (R206 to R209) -/

/-- What a masked update and the write of one channel record leave, in every environment. -/
theorem channelOutcome {os : List RaOp} {s t : State} {i : Channel} {v : ClockChannel}
    (ho : CtlOutcome os s (setChOf s i v) t) (hi : s.inited = true) :
    t.response = [] ∧ t.command = s.command ∧ TransportIdle t ∧ LinesClosed t ∧ t.cfg = s.cfg ∧ t.inited = true ∧
      t.pllA = s.pllA ∧ t.pllB = s.pllB ∧ chOf t i = v ∧ ∀ j, j ≠ i → chOf t j = chOf s j := by
  have hm := ho.mirrors
  refine ⟨ho.response, ho.bus.command, ho.bus.idle, ho.bus.closed, ho.bus.cfg,
    hm.2.1.trans ((setChOf_inited s i v).trans hi), hm.2.2.1.trans (setChOf_pllA s i v),
    hm.2.2.2.1.trans (setChOf_pllB s i v), ?_, fun j hj => ?_⟩
  · rw [MirrorsKept.chOf hm, chOf_setChOf]
  · rw [MirrorsKept.chOf hm, chOf_setChOf_of_ne s hj]

/-- What one masked update leaves in the map of the plain chip. -/
theorem BusWork.update_map {addr mask value : Byte} {s t : State} (h : BusWork [.update addr mask value] s t)
    (hp : PlainChip s) (hm : Machine.memWf s.line.rm = true) :
    readMem t.line.rm addr.toNat = mergeMasked (readMem s.line.rm addr.toNat) mask value ∧
      MapKeptBut [addr.toNat] s t := by
  obtain ⟨-, hrm, -⟩ := h.plain hp hm
  refine ⟨by rw [hrm]; exact readMem_opMem_update hm addr mask value, fun a ha => ?_⟩
  rw [hrm]
  exact readMem_opMem_other (.update addr mask value) _ ha

/-- Settles O48: one masked update of one bit and one mirror write. -/
theorem outputEnableOutcome : Obligations.OutputEnableOutcome := by
  intro s i enable hv hi hr
  obtain ⟨w, hw⟩ := updateReg_of_responsive hr s.cfg.regOutputEnable (bitMask (channelNumber i))
    (bitValue (oeBit s.cfg enable) (channelNumber i))
  have ht := execOutputEnable_eq_next_iff.mpr ⟨hv, hi, w, hw, rfl⟩
  have ho := execOutputEnable_outcome ht
  obtain ⟨h1, h2, h3, h4, h5, h6, h7, h8, h9, h10⟩ := channelOutcome ho hi
  refine ⟨_, ht, h1, h2, h3, h4, h5, h6, h7, h8, h9, h10, fun hp hm => ?_⟩
  obtain ⟨hbyte, hkept⟩ := ho.bus.update_map hp hm
  refine ⟨fun j hj => ?_, hkept⟩
  rw [hbyte, mergeMasked_bitValue _ _ _ j hj]
  rfl

/-- Settles O50: one masked update of the two drive bits and one mirror write. -/
theorem driveStrengthProgramsTheChip : Obligations.DriveStrengthProgramsTheChip := by
  intro s i level hv hi hr
  obtain ⟨w, hw⟩ := updateReg_of_responsive hr (clkCtrlAddr s.cfg i) (3#8 <<< s.cfg.ccDrv.val)
    (level.zeroExtend 8 <<< s.cfg.ccDrv.val)
  have ht := (execDriveStrength_eq_next_iff hv hi).mpr ⟨w, hw, rfl⟩
  have ho := execDriveStrength_outcome ht
  obtain ⟨h1, h2, h3, h4, h5, h6, h7, h8, h9, h10⟩ := channelOutcome ho hi
  refine ⟨_, ht, h1, h2, h3, h4, h5, h6, h7, h8, h9, h10, fun hp hm => ?_⟩
  obtain ⟨hbyte, hkept⟩ := ho.bus.update_map hp hm
  refine ⟨fun j hj => ?_, hkept⟩
  rw [hbyte, mergeMasked_drive _ _ _ j hj]

/-- Settles O51: one masked update of one bit and no mirror write. -/
theorem setClockPowerOutcome : Obligations.SetClockPowerOutcome := by
  intro s i on hv hi hr
  obtain ⟨w, hw⟩ := updateReg_of_responsive hr (clkCtrlAddr s.cfg i) (bitMask s.cfg.ccPdn.val)
    (bitValue (!on) s.cfg.ccPdn.val)
  have ht := execSetClockPower_eq_next_iff.mpr ⟨hv, hi, w, hw, rfl⟩
  have ho := execSetClockPower_outcome ht
  refine ⟨_, ht, ho.response, ⟨ho.mirrors, ho.bus.command, ho.bus.idle, ho.bus.closed⟩, fun hp hm => ?_⟩
  obtain ⟨hbyte, hkept⟩ := ho.bus.update_map hp hm
  refine ⟨fun j hj => ?_, hkept⟩
  rw [hbyte, mergeMasked_bitValue _ _ _ j hj]

/-- Settles O53: one masked update of one bit and one mirror write. -/
theorem setPllAssignmentOutcome : Obligations.SetPllAssignmentOutcome := by
  intro s i which hv hi hr
  obtain ⟨w, hw⟩ := updateReg_of_responsive hr (clkCtrlAddr s.cfg i) (bitMask s.cfg.ccPllSel.val)
    (bitValue (which == .b) s.cfg.ccPllSel.val)
  have ht := execSetPllAssignment_eq_next_iff.mpr ⟨hv, hi, w, hw, rfl⟩
  have ho := execSetPllAssignment_outcome ht
  obtain ⟨h1, h2, h3, h4, h5, h6, h7, h8, h9, h10⟩ := channelOutcome ho hi
  refine ⟨_, ht, h1, h2, h3, h4, h5, h6, h7, h8, h9, h10, fun hp hm => ?_⟩
  obtain ⟨hbyte, hkept⟩ := ho.bus.update_map hp hm
  refine ⟨fun j hj => ?_, hkept⟩
  rw [hbyte, mergeMasked_bitValue _ _ _ j hj]
  cases which <;> rfl

end Sys2Proof.Machine
end

section
/-! Proofs about the Synthesizer Controller (`spec/44_controller.md`) on the plain chip of D29: what INITIALIZE, SET_FREQUENCY and
POWER_DOWN leave in the chip, and the frames of the operations with several updates. -/

namespace Sys2Proof.Machine

theorem PlainChip.responsive {s : State} (h : PlainChip s) : Responsive s := by
  rw [Responsive, h.1]
  exact List.not_mem_nil

/-! ### INITIALIZE (R198) -/

theorem flatMap_opAddrs_writes (as : List Byte) (v : Byte) :
    (as.map fun a => RaOp.write a [v]).flatMap opAddrs = as.map BitVec.toNat := by
  induction as with
  | nil => rfl
  | cons a as ih => rw [List.map_cons, List.flatMap_cons, ih, opAddrs_write_one, List.map_cons, List.singleton_append]

/-- The addresses that INITIALIZE writes, in order. -/
theorem flatMap_initOps (c : Config) (pa pb : PllPlan) :
    (initOps c pa pb).flatMap opAddrs =
      [c.regXtalLoad.toNat] ++ c.regDisableState.map BitVec.toNat ++ [c.regOutputEnable.toNat]
        ++ (addrsFrom c.regPllParamsA 8 ++ (addrsFrom c.regPllParamsB 8
        ++ ([c.regClkCtrl0.toNat, c.regClkCtrl1.toNat, c.regClkCtrl2.toNat] ++ c.regVcxo.map BitVec.toNat
        ++ [c.regPllReset.toNat]))) := by
  simp only [initOps, initHeadOps, initTailOps, initChannelOp, List.flatMap_append, List.flatMap_cons, List.flatMap_nil,
    List.append_nil, flatMap_opAddrs_writes, opAddrs_write_one, opAddrs_update, opAddrs_pllOp]
  rfl

theorem nodup_initOps {c : Config} (hv : configValid c = true) (pa pb : PllPlan) :
    ((initOps c pa pb).flatMap opAddrs).Nodup := by
  refine List.nodup_iff_count_le_one.mpr fun x => (?_ : _ ≤ (mapAddrs c).count x).trans (count_mapAddrs_le hv x)
  have hblock : ∀ base : Byte, addrsFrom base 8 = blockAddrs base := fun _ => rfl
  simp only [flatMap_initOps, hblock, mapAddrs, List.count_append, List.count_cons, List.count_nil]
  omega

/-- INITIALIZE on the plain chip: it ends with its list of operations done (R198). -/
theorem execInitialize_plainChip {s : State} {pa pb : PllPlan} (hv : configValid s.cfg = true) (hp : PlainChip s)
    (hpa : planStage s.cfg s.cfg.pllBringupX100 s.pllA.correctionPpb = .ok pa)
    (hpb : planStage s.cfg s.cfg.pllBringupX100 s.pllB.correctionPpb = .ok pb) :
    ∃ t, execInitialize s = .next t ∧ BusWork (initOps s.cfg pa pb) s t := by
  obtain ⟨u, hu⟩ := runInit_of_responsive hp.responsive pa pb
  have ht := execInitialize_eq_next_iff.mpr ⟨hv, pa, pb, u, hpa, hpb, hu, rfl⟩
  exact ⟨_, ht, (runInit_eq_done hu).1.before_mirrors (busPart_respond [] u)⟩

/-- A bit of a control byte after INITIALIZE. -/
theorem mergeMasked_clear (old : Byte) (m n j : Nat) (hj : j < 8) :
    (mergeMasked old (bitMask m ||| bitMask n) 0#8).getLsbD j = if j = m ∨ j = n then false else old.getLsbD j := by
  rw [mergeMasked_bit _ _ _ j hj, BitVec.getLsbD_or, getLsbD_bitMask m j hj, getLsbD_bitMask n j hj, BitVec.getLsbD_zero]
  by_cases h : j = m ∨ j = n
  · rw [if_pos h, if_pos (by simpa using h)]
  · rw [if_neg h, if_neg (by simpa using h)]

/-- Settles O41: no two operations of INITIALIZE write the same byte, so each byte is as its operation left it. -/
theorem initializeProgramsTheChip : Obligations.InitializeProgramsTheChip := by
  intro s pa pb hv hp hm hpa hpb
  obtain ⟨t, ht, hbus⟩ := execInitialize_plainChip hv hp hpa hpb
  obtain ⟨hf, hrm, -⟩ := hbus.plain hp hm
  have hn := nodup_initOps hv pa pb
  have hone : ∀ {a v : Byte}, RaOp.write a [v] ∈ initOps s.cfg pa pb → readMem t.line.rm a.toNat = v := by
    intro a v ho
    rw [hrm, readMem_opsMem_of_nodup hn ho hm (by rw [opAddrs_write_one]; exact List.mem_singleton_self _)]
    exact readMem_opMem_write_one hm a v
  refine ⟨t, ht, hf, hone ?load, fun a ha => hone ?disable, hone ?enable, fun j hj => ?blockA, fun j hj => ?blockB,
    fun i j hj => ?control, fun a ha => hone ?vcxo, fun j hj => ?reset, fun a ha => ?kept⟩
  case load => simp [initOps, initHeadOps]
  case disable => simp [initOps, initHeadOps, ha]
  case enable => simp [initOps, initHeadOps]
  case vcxo => simp [initOps, initTailOps, ha]
  case blockA =>
    rw [hrm]
    exact readMem_opsMem_pllBlock hn (x := .a) (by simp [initOps]) hm hj
  case blockB =>
    rw [hrm]
    exact readMem_opsMem_pllBlock hn (x := .b) (by simp [initOps]) hm hj
  case control =>
    have ho : initChannelOp s.cfg i ∈ initOps s.cfg pa pb := by cases i <;> simp [initOps, initTailOps]
    rw [hrm, readMem_opsMem_of_nodup hn ho hm (by rw [initChannelOp, opAddrs_update]; exact List.mem_singleton_self _),
      initChannelOp, readMem_opMem_update hm, mergeMasked_clear _ _ _ j hj]
  case reset =>
    rw [hone (a := s.cfg.regPllReset) (v := bitMask s.cfg.rstA.val ||| bitMask s.cfg.rstB.val)
      (by simp [initOps, initTailOps]), BitVec.getLsbD_or, getLsbD_bitMask _ j hj, getLsbD_bitMask _ j hj]
    simp
  case kept =>
    rw [hrm]
    refine readMem_opsMem_of_not_mem (fun hmem => ha ?_) _
    rw [flatMap_initOps] at hmem
    simp only [List.mem_append, List.mem_cons, List.not_mem_nil, or_false] at hmem ⊢
    tauto

/-! ### SET_FREQUENCY (R200) -/

/-- The divider/mode byte with its two fields written through their mask (R83). -/
theorem mergeMasked_dividerMode (f : RegisterFields) (k : BitVec 3) (divby4 : Bool) :
    mergeMasked ((ser8 f 0#3 0b00#2)[2]'(by decide : 2 < 8)) dmMask (dmValue k divby4) =
      (ser8 f k (if divby4 then 0b11#2 else 0b00#2))[2]'(by decide : 2 < 8) := by
  have hd : ∀ d : BitVec 2, mergeMasked (0#1 ++ 0#3 ++ 0#2 ++ f.p1.extractLsb' 16 2) 0x7C#8 (0#1 ++ k ++ d ++ 0#2) =
      0#1 ++ k ++ d ++ f.p1.extractLsb' 16 2 := by
    intro d
    generalize f.p1.extractLsb' 16 2 = x
    revert k d x
    decide
  exact hd _

/-- The other bytes of a block do not hold the two fields (R82). -/
theorem ser8_getElem_of_ne (f : RegisterFields) (r r' : BitVec 3) (d d' : BitVec 2) {j : Nat} (h : j < 8) (hj : j ≠ 2) :
    (ser8 f r d)[j]'h = (ser8 f r' d')[j]'h := by
  obtain rfl | rfl | rfl | rfl | rfl | rfl | rfl : j = 0 ∨ j = 1 ∨ j = 3 ∨ j = 4 ∨ j = 5 ∨ j = 6 ∨ j = 7 := by omega
  all_goals rfl

theorem toNat_add_two (a : Byte) : (a + 2#8).toNat = (a.toNat + 2) % 256 := toNat_add_ofNat a (i := 2) (by decide)

/-- No control byte lies in a multisynth block (R59). -/
theorem clkCtrl_not_mem_block {c : Config} (hv : configValid c = true) (i : Channel) :
    (clkCtrlAddr c i).toNat ∉ addrsFrom (msParamsAddr c i) 8 := by
  intro hmem
  have hblock : ∀ base : Byte, addrsFrom base 8 = blockAddrs base := fun _ => rfl
  have hcount := List.count_pos_iff.mpr hmem
  have hle := count_mapAddrs_le hv (clkCtrlAddr c i).toNat
  cases i <;> simp only [clkCtrlAddr, msParamsAddr, hblock] at hcount hle <;>
    simp only [mapAddrs, List.count_append, List.count_cons, beq_self_eq_true, if_true] at hle <;> omega

/-- What SET_FREQUENCY's list leaves in the channel's block. -/
theorem readMem_frequencyOps_block {c : Config} (hv : configValid c = true) {m : Memory} (hm : memWf m = true) (i : Channel)
    (k : BitVec 3) (p : MsPlan) {j : Nat} (hj : j < 8) :
    readMem (opsMem (frequencyOps c i k p) m) (((msParamsAddr c i).toNat + j) % 256) =
      (ser8 p.fields k (if p.divby4 then 0b11#2 else 0b00#2))[j]'hj := by
  have hmw := memWf_opMem hm (.write (msParamsAddr c i) (ser8 p.fields 0#3 0b00#2))
  have hblock := readMem_opMem_block hm (msParamsAddr c i) p.fields 0#3 0b00#2
  have hctrl : ((msParamsAddr c i).toNat + j) % 256 ∉ [(clkCtrlAddr c i).toNat] := by
    intro hmem
    exact clkCtrl_not_mem_block hv i (List.mem_singleton.mp hmem ▸ mem_addrsFrom.mpr ⟨j, hj, rfl⟩)
  rw [frequencyOps, opsMem_cons, opsMem_cons, opsMem_cons, opsMem_nil, readMem_opMem_other (.update _ _ _) _ hctrl]
  by_cases h2 : j = 2
  · subst h2
    have hbyte := readMem_opMem_update hmw (msParamsAddr c i + 2#8) dmMask (dmValue k p.divby4)
    rw [toNat_add_two, hblock 2 (by decide)] at hbyte
    exact hbyte.trans (mergeMasked_dividerMode p.fields k p.divby4)
  · have hmode : ((msParamsAddr c i).toNat + j) % 256 ∉ [(msParamsAddr c i + 2#8).toNat] := by
      rw [List.mem_singleton, toNat_add_two]
      omega
    rw [readMem_opMem_other (.update _ _ _) _ hmode]
    exact (hblock j hj).trans (ser8_getElem_of_ne p.fields _ _ _ _ hj h2)

theorem mem_flatMap_frequencyOps {c : Config} {i : Channel} {k : BitVec 3} {p : MsPlan} {x : Nat}
    (h : x ∈ (frequencyOps c i k p).flatMap opAddrs) : x ∈ (clkCtrlAddr c i).toNat :: addrsFrom (msParamsAddr c i) 8 := by
  have hblock : opAddrs (.write (msParamsAddr c i) (ser8 p.fields 0#3 0b00#2)) = addrsFrom (msParamsAddr c i) 8 := rfl
  have hmode : (msParamsAddr c i + 2#8).toNat ∈ addrsFrom (msParamsAddr c i) 8 :=
    mem_addrsFrom.mpr ⟨2, by decide, (toNat_add_two _).symm⟩
  simp only [frequencyOps, List.flatMap_cons, List.flatMap_nil, hblock, opAddrs_update, List.mem_append, List.mem_cons,
    List.not_mem_nil, or_false] at h
  obtain h | h | h := h
  · exact List.mem_cons_of_mem _ h
  · exact List.mem_cons_of_mem _ (h ▸ hmode)
  · exact h ▸ List.mem_cons_self

/-- The control byte after SET_FREQUENCY's list: only its integer-mode bit is written. -/
theorem readMem_frequencyOps_control {c : Config} (hv : configValid c = true) {m : Memory} (hm : memWf m = true) (i : Channel)
    (k : BitVec 3) (p : MsPlan) :
    readMem (opsMem (frequencyOps c i k p) m) (clkCtrlAddr c i).toNat =
      mergeMasked (readMem m (clkCtrlAddr c i).toNat) (bitMask c.ccInt.val) (bitValue (integerModeOf c p) c.ccInt.val) := by
  have hnot := clkCtrl_not_mem_block hv i
  have hmode : (clkCtrlAddr c i).toNat ∉ [(msParamsAddr c i + 2#8).toNat] := fun hmem =>
    hnot (mem_addrsFrom.mpr ⟨2, by decide, by rw [List.mem_singleton.mp hmem, toNat_add_two]⟩)
  have hmw := memWf_opMem (memWf_opMem hm (.write (msParamsAddr c i) (ser8 p.fields 0#3 0b00#2)))
    (.update (msParamsAddr c i + 2#8) dmMask (dmValue k p.divby4))
  rw [frequencyOps, opsMem_cons, opsMem_cons, opsMem_cons, opsMem_nil, readMem_opMem_update hmw,
    readMem_opMem_other (.update _ _ _) _ hmode, readMem_opMem_other (.write _ _) _ hnot]

/-- SET_FREQUENCY on the plain chip: it ends with its list of operations done and the mirrors of its rule. -/
theorem execSetFrequency_plainChip {s : State} {i : Channel} {freq : U64} {p : MsPlan} (hv : configValid s.cfg = true)
    (hi : s.inited = true) (hp : PlainChip s) (hplan : frequencyPlan s i freq = .ok p) :
    ∃ t, execSetFrequency i freq s = .next t ∧
      BusWork (frequencyOps s.cfg i (BitVec.ofNat 3 (selectRDivider s.cfg freq.toNat).1) p) s t ∧
      (chOf t i).integerMode = integerModeOf s.cfg p := by
  obtain ⟨t, ht⟩ := execSetFrequency_returns hv hi hp.responsive hplan
  obtain ⟨q, hq, ho⟩ := execSetFrequency_outcome ht
  rw [hplan] at hq
  cases hq
  refine ⟨t, ht, ho.bus, ?_⟩
  rw [MirrorsKept.chOf ho.mirrors, frequencyMirrors, chOf_setChOf]

/-- Settles O43: the block and then two masked updates, the first of them inside the block. -/
theorem setFrequencyProgramsTheChip : Obligations.SetFrequencyProgramsTheChip := by
  intro s i freq p hv hi hp hm hplan
  obtain ⟨t, ht, hbus, hmode⟩ := execSetFrequency_plainChip hv hi hp hplan
  obtain ⟨hf, hrm, -⟩ := hbus.plain hp hm
  refine ⟨t, ht, hf, fun j hj => ?block, fun j hj => ?control, fun a ha => ?kept⟩
  case block =>
    rw [hrm]
    exact readMem_frequencyOps_block hv hm i _ p hj
  case control =>
    rw [hrm, readMem_frequencyOps_control hv hm, mergeMasked_bitValue _ _ _ j hj, hmode]
  case kept =>
    rw [hrm]
    exact readMem_opsMem_of_not_mem (fun hmem => ha (mem_flatMap_frequencyOps hmem)) _

/-! ### POWER_DOWN (R210) -/

theorem flatMap_powerDownOps (c : Config) :
    (powerDownOps c).flatMap opAddrs =
      [c.regOutputEnable.toNat, c.regClkCtrl0.toNat, c.regClkCtrl1.toNat, c.regClkCtrl2.toNat] := by
  simp only [powerDownOps, List.flatMap_cons, List.flatMap_nil, opAddrs_update, opAddrs_write_one, clkCtrlAddr]
  rfl

theorem nodup_powerDownOps {c : Config} (hv : configValid c = true) : ((powerDownOps c).flatMap opAddrs).Nodup := by
  refine List.nodup_iff_count_le_one.mpr fun x => (?_ : _ ≤ (mapAddrs c).count x).trans (count_mapAddrs_le hv x)
  simp only [flatMap_powerDownOps, mapAddrs, List.count_append, List.count_cons, List.count_nil]
  omega

/-- The three disable bits written through their mask (R87, D34). -/
theorem mergeMasked_disable (old : Byte) (v : Bool) (j : Nat) (hj : j < 8) :
    (mergeMasked old 0b111#8 (if v then 0b111#8 else 0b000#8)).getLsbD j = if j < 3 then v else old.getLsbD j := by
  rw [mergeMasked_bit _ _ _ j hj]
  interval_cases j <;> cases v <;> rfl

theorem oeBit_false (c : Config) : oeBit c false = c.oeActiveLow := Bool.false_bne _

/-- Settles O52: no two operations of the list write the same byte, and no mirror is written. -/
theorem powerDownOutcome : Obligations.PowerDownOutcome := by
  intro s hv hi hr
  obtain ⟨t, ht⟩ := execPowerDown_returns hv hi hr
  have ho := execPowerDown_outcome ht
  refine ⟨t, ht, ho.response, ⟨ho.mirrors, ho.bus.command, ho.bus.idle, ho.bus.closed⟩, fun hp hm => ?_⟩
  obtain ⟨-, hrm, -⟩ := ho.bus.plain hp hm
  have hn := nodup_powerDownOps hv
  refine ⟨fun j hj => ?enable, fun i => ?control, fun a ha => ?kept⟩
  case enable =>
    have hmem : RaOp.update s.cfg.regOutputEnable 0b111#8 (if oeBit s.cfg false then 0b111#8 else 0b000#8) ∈
        powerDownOps s.cfg := List.mem_cons_self
    rw [hrm, readMem_opsMem_of_nodup hn hmem hm (List.mem_singleton_self _), readMem_opMem_update hm, oeBit_false,
      mergeMasked_disable _ _ j hj]
  case control =>
    have hmem : RaOp.write (clkCtrlAddr s.cfg i) [s.cfg.clkCtrlPdnValue] ∈ powerDownOps s.cfg := by
      cases i <;> simp [powerDownOps]
    rw [hrm, readMem_opsMem_of_nodup hn hmem hm (by rw [opAddrs_write_one]; exact List.mem_singleton_self _),
      readMem_opMem_write_one hm]
  case kept =>
    rw [hrm]
    exact readMem_opsMem_of_not_mem (by rw [flatMap_powerDownOps]; exact ha) _

/-! ### The frames, in order (R211) -/

/-- The list of INITIALIZE, written out (R198). -/
theorem initOps_eq (c : Config) (pa pb : PllPlan) :
    initOps c pa pb =
      [.write c.regXtalLoad [c.xtalLoadValue]] ++ c.regDisableState.map (fun a => .write a [c.disableStateValue])
        ++ [.write c.regOutputEnable [c.oeMaskInit], .write c.regPllParamsA (ser8 pa.fields 0#3 0#2),
          .write c.regPllParamsB (ser8 pb.fields 0#3 0#2),
          .update c.regClkCtrl0 (1#8 <<< c.ccInt.val ||| 1#8 <<< c.ccPllSel.val) 0#8,
          .update c.regClkCtrl1 (1#8 <<< c.ccInt.val ||| 1#8 <<< c.ccPllSel.val) 0#8,
          .update c.regClkCtrl2 (1#8 <<< c.ccInt.val ||| 1#8 <<< c.ccPllSel.val) 0#8]
        ++ c.regVcxo.map (fun a => .write a [0x00#8])
        ++ [.write c.regPllReset [1#8 <<< c.rstA.val ||| 1#8 <<< c.rstB.val]] := by
  simp only [initOps, initHeadOps, initTailOps, initChannelOp, pllOp, bitMask, clkCtrlAddr, pllParamsAddr, List.append_assoc,
    List.cons_append, List.nil_append]

/-- The value of the divider/mode byte as a number (R83). -/
theorem dmValue_eq {k : Nat} (hk : k ≤ 7) (divby4 : Bool) :
    dmValue (BitVec.ofNat 3 k) divby4 = BitVec.ofNat 8 (16 * k + if divby4 then 12 else 0) := by
  interval_cases k <;> cases divby4 <;> rfl

/-- Settles O55: each list of register operations, and the frames it puts on the lines. -/
theorem controllerBusSequences : Obligations.ControllerBusSequences := by
  intro s hv hp hm
  refine ⟨fun pa pb hpa hpb => ?init, fun hi => ⟨fun i freq p hplan => ?frequency, fun freq x p hplan => ?pll,
    fun ppb pa pb hpa hpb => ?correction, ?down⟩⟩
  case init =>
    obtain ⟨t, ht, hbus⟩ := execInitialize_plainChip hv hp hpa hpb
    obtain ⟨-, -, hev⟩ := hbus.plain hp hm
    rw [initOps_eq] at hev
    exact ⟨t, ht, hev⟩
  case frequency =>
    obtain ⟨t, ht, hbus, hmode⟩ := execSetFrequency_plainChip hv hi hp hplan
    obtain ⟨-, -, hev⟩ := hbus.plain hp hm
    rw [frequencyOps, dmValue_eq (selectRDivider_fst_le s.cfg freq.toNat), ← hmode] at hev
    exact ⟨t, ht, hev⟩
  case pll =>
    obtain ⟨f, u, hu⟩ := doSetPll_of_responsive hp.responsive x p
    obtain ⟨-, -, hev⟩ := (doSetPll_eq_done hu).1.plain hp hm
    exact ⟨_, execSetPll_eq_next_iff.mpr ⟨hv, hi, p, f, u, hplan, hu, rfl⟩, hev⟩
  case correction =>
    obtain ⟨u, hu⟩ := runCorrection_of_responsive hp.responsive ppb pa pb
    obtain ⟨-, -, hev⟩ := (runCorrection_eq_done hu).1.plain hp hm
    exact ⟨_, (execSetCorrection_eq_next_iff (r := .crystal)).mpr ⟨hv, hi, pa, pb, u, hpa, hpb, hu, rfl⟩, hev⟩
  case down =>
    obtain ⟨t, ht⟩ := execPowerDown_returns hv hi hp.responsive
    obtain ⟨-, -, hev⟩ := (execPowerDown_outcome ht).bus.plain hp hm
    rw [powerDownOps, oeBit_false] at hev
    exact ⟨t, ht, hev⟩

end Sys2Proof.Machine
end
